-- ==== Sys2Proof/Word.lean ====
section
/-! DEFINITION. The words of the block: a register (32 bits, D1), a sample (64 bits, R76), a byte of BRAM (8 bits, R47). -/

namespace Sys2Proof

/-- A control and status register, a command word, a bus word: 32 bits (R16, R63, R45). -/
abbrev Word := BitVec 32

/-- An SRAM cell: one 64-bit pattern (R46, R76). -/
abbrev Sample := BitVec 64

/-- A BRAM cell, a code, a target: 8 bits, unsigned (R47, R6). -/
abbrev Byte := BitVec 8

end Sys2Proof
end

