-- ==== Sys2Proof/Config.lean ====
section
/-! DEFINITION. What an implementation fixes (R6) and the free values (U4, U5). -/

namespace Sys2Proof

/-- The parameters of rule R6, all OPEN. They are plain data and stand in State, so that a statement about every state
is a statement about every block (log 1). -/
structure Config where
  /-- SAMPLE_WORDS, the depth of SRAM in samples (R6, R46). -/
  sampleWords : Nat
  /-- BYTE_WORDS, the depth of BRAM in bytes (R6, R47). -/
  byteWords : Nat
  /-- BLOCK_BASE, the bus address of the block's window (R6, R45). -/
  blockBase : Nat
deriving DecidableEq, Repr

/-- The parameters in State.reset. DESIGN CHOICE (log 1): the depths are those of the spec's own programs P1 to P5, the base is 0;
R6 leaves all three open. -/
def Config.default : Config := { sampleWords := 64, byteWords := 64, blockBase := 0 }

/-- Free value: the bits of a NaN the resampler computes that R10 and U4 leave open (log 3, log 11). No body. -/
opaque Config.freeNaNBits : Nat → Sample

/-- Free value: what a host read of one half of sample `j` returns while the sample is unwritten; `cell` is what is written of its eight
bytes (R53, U5; log 5). No body. -/
opaque Config.unwrittenHalf : (j : Nat) → (high : Bool) → (cell : List (Option Byte)) → Word

/-- Free value: what a host read of byte `k` of BRAM returns while it is unwritten (R53, U5; log 5). No body. -/
opaque Config.unwrittenByte : (k : Nat) → Byte

end Sys2Proof
end

