-- ==== Sys2Proof/Syntax.lean ====
section
/-! DEFINITION. The commands of the block, one constructor for each row of spec/opcode_table.json (R64). -/

namespace Sys2Proof

/-- A command (R15, R64). Operands other than DSTEP's target are read from the registers (R63). -/
inductive Instr where
  | nop
  | resample
  | rslen
  | quant
  | qone
  | dinit
  | denc
  /-- `target` is IMM8, an unsigned code (R65). -/
  | dstep (target : Byte)
  | dflush
deriving DecidableEq, Repr

end Sys2Proof
end

