-- ==== Sys2Proof/WellFormed.lean ====
section
/-! DEFINITION. Well-formedness: of a command word's fields (R63, R66, R67), of an instruction, and of the parameters (R6). -/

namespace Sys2Proof

/-- The three fields of a command word (R63). -/
structure CmdFields where
  /-- Bits 7:0. -/
  op : Byte
  /-- Bits 15:8. -/
  imm8 : Byte
  /-- Bits 31:16. -/
  rsv : BitVec 16
deriving DecidableEq, Repr

/-- The operation codes of the opcode map (R64). -/
def CmdFields.opMap : List Byte := [0x00, 0x01, 0x02, 0x10, 0x11, 0x20, 0x21, 0x22, 0x23]

/-- RSV is 0 for any OP (R66). -/
def CmdFields.rsvOk (f : CmdFields) : Bool := f.rsv = 0

/-- IMM8 is 0 for every OP but DSTEP's (R63, R66). -/
def CmdFields.immOk (f : CmdFields) : Bool := f.op = 0x22 || f.imm8 = 0

/-- OP is in the opcode map (R67). -/
def CmdFields.opOk (f : CmdFields) : Bool := CmdFields.opMap.contains f.op

/-- The fields of a legal command word. -/
def CmdFields.wellFormed (f : CmdFields) : Bool := f.rsvOk && f.immOk && f.opOk

/-- The fields of an instruction's word: OP and IMM8 by the opcode map, RSV 0 (R63 to R65). -/
def Instr.fields : Instr → CmdFields
  | .nop => { op := 0x00, imm8 := 0, rsv := 0 }
  | .resample => { op := 0x01, imm8 := 0, rsv := 0 }
  | .rslen => { op := 0x02, imm8 := 0, rsv := 0 }
  | .quant => { op := 0x10, imm8 := 0, rsv := 0 }
  | .qone => { op := 0x11, imm8 := 0, rsv := 0 }
  | .dinit => { op := 0x20, imm8 := 0, rsv := 0 }
  | .denc => { op := 0x21, imm8 := 0, rsv := 0 }
  | .dstep target => { op := 0x22, imm8 := target, rsv := 0 }
  | .dflush => { op := 0x23, imm8 := 0, rsv := 0 }

/-- An instruction is well formed when its word's fields are legal. The type admits no other (Laws/Encoding.lean). -/
def Instr.wellFormed (i : Instr) : Bool := i.fields.wellFormed

/-- SAMPLE_WORDS is in 1..131072 (R6, D4). -/
def Config.sampleWordsOk (c : Config) : Bool := decide (1 ≤ c.sampleWords ∧ c.sampleWords ≤ 131072)

/-- BYTE_WORDS is in 4..1048576 and a multiple of 4 (R6, D4). -/
def Config.byteWordsOk (c : Config) : Bool :=
  decide (4 ≤ c.byteWords ∧ c.byteWords ≤ 1048576 ∧ c.byteWords % 4 = 0)

/-- BLOCK_BASE is aligned to 4 MiB (R6, D24). -/
def Config.blockBaseOk (c : Config) : Bool := decide (c.blockBase % 0x400000 = 0)

/-- The bounds rule R6 puts on the parameters. -/
def Config.wellFormed (c : Config) : Bool := c.sampleWordsOk && c.byteWordsOk && c.blockBaseOk

end Sys2Proof
end

