-- ==== Sys2Proof/Decode.lean ====
section
/-! DEFINITION. Decoding of command words, total on every 32-bit word (R69), and the encoder. -/

namespace Sys2Proof

/-- Why a word is ILLEGAL. Hardware shows one error code for all three (R119). -/
inductive Illegal where
  /-- `w[31:16]` is not 0 (R66). -/
  | reservedField
  /-- `w[15:8]` is not 0 and OP is not 0x22 (R66). -/
  | immediateField
  /-- OP is not in the opcode map (R67). -/
  | reservedOp
deriving DecidableEq, Repr

/-- The fields of a word (R63). -/
def splitWord (w : Word) : CmdFields :=
  { op := w.extractLsb' 0 8, imm8 := w.extractLsb' 8 8, rsv := w.extractLsb' 16 16 }

/-- The word of three fields (R63). -/
def joinWord (f : CmdFields) : Word := f.rsv ++ f.imm8 ++ f.op

/-- The opcode map for the words whose IMM8 and RSV are 0 (R64, R69). -/
def decodeOp (op : Byte) : Except Illegal Instr :=
  if op = 0x00 then .ok .nop
  else if op = 0x01 then .ok .resample
  else if op = 0x02 then .ok .rslen
  else if op = 0x10 then .ok .quant
  else if op = 0x11 then .ok .qone
  else if op = 0x20 then .ok .dinit
  else if op = 0x21 then .ok .denc
  else if op = 0x23 then .ok .dflush
  else .error .reservedOp

/-- Decoding from the fields, in the order of R69. -/
def decodeFields (f : CmdFields) : Except Illegal Instr :=
  if f.rsv ≠ 0 then .error .reservedField
  else if f.op = 0x22 then .ok (.dstep f.imm8)
  else if f.imm8 ≠ 0 then .error .immediateField
  else decodeOp f.op

/-- `decode(w)` (R69). -/
def decode (w : Word) : Except Illegal Instr := decodeFields (splitWord w)

/-- The word of an instruction (R64, R65). -/
def encode (i : Instr) : Word := joinWord i.fields

/-- The instruction the decoder reads from the bits `w` of a row of spec/opcode_table.json, `nbits` bits wide; the bits above are 0.
A command is one 32-bit word (R70), so a wider number is no command. -/
def decodeTableWord (nbits w : Nat) : Option Instr :=
  if w % 2 ^ nbits < 2 ^ 32 then
    match decode (BitVec.ofNat 32 (w % 2 ^ nbits)) with
    | .ok i => some i
    | .error _ => none
  else none

end Sys2Proof
end

