-- ==== Sys2Proof/Machine/State.lean ====
section
/-! DEFINITION. The state of the block and of its host port, as plain data, and State.reset. -/

namespace Sys2Proof.Machine

/-- STATUS.ERR (R118). Codes 6 to 15 are never produced and have no constructor (U11). -/
inductive ErrCode where
  | none
  | illegal
  | rate
  | range
  | overlap
  | nan
deriving DecidableEq, Repr

/-- The named registers of the map (R16). -/
inductive Csr where
  | id | ctrl | status | cmd
  | srcRate | dstRate | rsSrc | rsDst | rsLen | rsOutLen
  | qSrc | qDst | qLen | qoneLo | qoneHi | qoneRes
  | dSrc | dLen | dWptr | dAcc | dPack | dBits
  | errIndex | errCmd
deriving DecidableEq, Repr

/-- The width of a host access; only 32-bit ones are accepted (R49). -/
inductive Width where
  | w8 | w16 | w32
deriving DecidableEq, Repr

/-- What a host access does. -/
inductive BusOp where
  | read
  | write (value : Word)
deriving DecidableEq, Repr

/-- One host bus access, at an address of the host's bus (R45, R49). -/
structure BusAccess where
  addr  : Nat
  width : Width
  op    : BusOp
deriving DecidableEq, Repr

/-- A move of the host (R154). -/
inductive HostMove where
  /-- A bus access. -/
  | access (a : BusAccess)
  /-- The host drives the reset input: asserted (true) or released (false) (R141; log 6). -/
  | resetLine (level : Bool)
deriving DecidableEq, Repr

/-- What the host gets back for an access (R49, R154). -/
inductive Reply where
  /-- An accepted write has completed. -/
  | done
  /-- The value of an accepted read. -/
  | data (value : Word)
  /-- A bus error; no data (R49). -/
  | busError
  /-- The address is outside the block's window: the block gives no answer (R45; log 7). -/
  | notClaimed
deriving DecidableEq, Repr

/-- A memory: pairs of a byte address and a byte, addresses rising. An address with no pair is unwritten (R53): it holds no value. -/
abbrev Memory := List Host.Cell

/-- Reasons the model stops a run. -/
inductive Fault where
  /-- UNINIT (R140): RESAMPLE or QUANT read this SRAM cell, which is not written. Safe: the hardware goes on with
  unspecified contents. -/
  | uninitSample (index : Nat)
  /-- UNINIT (R140): DENC read this BRAM cell, which is not written. Safe, as above. -/
  | uninitByte (index : Nat)
deriving DecidableEq, Repr

/-- Reasons the model gives no meaning. -/
inductive Refusal where
  /-- Raised by `exec` for an instruction with no meaning yet. No arm raises it. Safe. -/
  | notModelled (mnemonic : String)
deriving DecidableEq, Repr

/-- Everything the spec gives the machine; INVENTORY.md lists each field's rule and reset value. -/
structure State where
  /-- The parameters of the block; no step changes them (R6; log 1). -/
  cfg : Config
  /-- CTRL.IE_DONE (R23). -/
  ieDone : Bool
  /-- CTRL.IE_ERR (R23). -/
  ieErr : Bool
  /-- STATUS.DONE (R25). -/
  done : Bool
  /-- STATUS.WARN_DEGEN (R26). -/
  warnDegen : Bool
  /-- STATUS.ERR (R27). -/
  err : ErrCode
  /-- ERR_INDEX (R41). -/
  errIndex : Word
  /-- ERR_CMD (R42). -/
  errCmd : Word
  /-- SRC_RATE (R30). -/
  srcRate : Word
  /-- DST_RATE (R30). -/
  dstRate : Word
  /-- RS_SRC (R31). -/
  rsSrc : Word
  /-- RS_DST (R31). -/
  rsDst : Word
  /-- RS_LEN (R31). -/
  rsLen : Word
  /-- RS_OUTLEN (R32). -/
  rsOutLen : Word
  /-- Q_SRC (R33). -/
  qSrc : Word
  /-- Q_DST (R33). -/
  qDst : Word
  /-- Q_LEN (R33). -/
  qLen : Word
  /-- QONE_LO (R34). -/
  qoneLo : Word
  /-- QONE_HI (R34). -/
  qoneHi : Word
  /-- QONE_RES[7:0] (R35). -/
  qoneRes : Byte
  /-- D_SRC (R36). -/
  dSrc : Word
  /-- D_LEN (R36). -/
  dLen : Word
  /-- D_WPTR (R37). -/
  dWptr : Word
  /-- ACC, D_ACC[7:0] (R38). -/
  acc : Byte
  /-- PEND, D_PACK[6:0] (R40). -/
  pend : BitVec 7
  /-- CNT, D_PACK[10:8] (R40). -/
  cnt : BitVec 3
  /-- LASTBIT, D_PACK[16] (R40). -/
  lastBit : Bool
  /-- D_BITS (R39). -/
  dBits : Word
  /-- SRAM (R46): byte b of sample j's pattern, least significant first, is at byte address 8j + b. -/
  sram : Memory
  /-- BRAM (R47): cell k is at byte address k. -/
  bram : Memory
  /-- The level of the reset input (R141; log 6). -/
  rst : Bool
  /-- The host's moves still to come, oldest first (R153, R154; log 2). -/
  host : List HostMove
  /-- The replies the host has got, newest first (R153, R154). -/
  replies : List Reply
  /-- The model's own: how many free values have been taken (log 3). -/
  draws : Nat
deriving DecidableEq, Repr

/-- A block with these parameters just after power-up and reset: every register at its reset value (R142), every RAM cell
unwritten (R53), the reset input released, no host move pending (log 2). -/
def State.atReset (c : Config) : State where
  cfg := c
  ieDone := false
  ieErr := false
  done := false
  warnDegen := false
  err := .none
  errIndex := 0
  errCmd := 0
  srcRate := 0
  dstRate := 0
  rsSrc := 0
  rsDst := 0
  rsLen := 0
  rsOutLen := 0
  qSrc := 0
  qDst := 0
  qLen := 0
  qoneLo := 0
  qoneHi := 0
  qoneRes := 0
  dSrc := 0
  dLen := 0
  dWptr := 0
  acc := 128
  pend := 0
  cnt := 0
  lastBit := false
  dBits := 0
  sram := []
  bram := []
  rst := false
  host := []
  replies := []
  draws := 0

/-- The machine right after reset (R142), with the parameters of log 1. -/
def State.reset : State := State.atReset Config.default

end Sys2Proof.Machine
end

