-- ==== Sys2Proof/Machine/Ops.lean ====
section
/-! DEFINITION. The named operations over memory and registers: reads and writes of cells, raising an error and clearing it,
completing a command, the element loop, the reset input. -/

namespace Sys2Proof.Machine

/-- The byte at an address; `none` where nothing has been written (R53). -/
def Memory.read : Memory → Nat → Option Byte
  | [], _ => none
  | (k, v) :: m, a => if k = a then some v else Memory.read m a

/-- Writes one byte, keeping the addresses rising. -/
def Memory.write : Memory → Nat → Byte → Memory
  | [], a, v => [(a, v)]
  | (k, x) :: m, a, v =>
    if a < k then (a, v) :: (k, x) :: m
    else if a = k then (a, v) :: m
    else (k, x) :: Memory.write m a v

/-- The canonical form: addresses strictly rising. An unlisted address holds no value, so no entry equals one. -/
abbrev Memory.wf (m : Memory) : Prop := m.Pairwise fun x y => x.1 < y.1

/-- `n` bytes as one number, the byte at the lowest address least significant (R48); `none` if one of them is unwritten. -/
def Memory.readLE (m : Memory) : (a n : Nat) → Option Nat
  | _, 0 => some 0
  | a, n + 1 =>
    match Memory.read m a, Memory.readLE m (a + 1) n with
    | some b, some r => some (b.toNat + 256 * r)
    | _, _ => none

/-- Writes the low `n` bytes of a number, the least significant at the lowest address (R48). -/
def Memory.writeLE (m : Memory) : (a n v : Nat) → Memory
  | _, 0, _ => m
  | a, n + 1, v => Memory.writeLE (Memory.write m a (BitVec.ofNat 8 v)) (a + 1) n (v / 256)

/-- Sample `j` of SRAM (R46); `none` unless both halves have been written (R53). -/
def Memory.readSample (m : Memory) (j : Nat) : Option Sample := (Memory.readLE m (8 * j) 8).map (BitVec.ofNat 64)

/-- Writes sample `j` of SRAM (R46). -/
def Memory.writeSample (m : Memory) (j : Nat) (v : Sample) : Memory := Memory.writeLE m (8 * j) 8 v.toNat

/-- What a command's pseudocode comes to: it goes on, it has ended in an error (R125), or the model stops (R140). -/
inductive Flow where
  | go (s : State)
  | ended (s : State)
  | stop (f : Fault)
deriving DecidableEq, Repr

/-- Sequencing: no statement runs after an error or a stop (R11). -/
def Flow.bind (x : Flow) (next : State → Flow) : Flow :=
  match x with
  | .go s => next s
  | .ended s => .ended s
  | .stop f => .stop f

/-- `for i in first .. first + count - 1`, ascending (R54). -/
def forUp : (count first : Nat) → (Nat → State → Flow) → State → Flow
  | 0, _, _, s => .go s
  | count + 1, first, body, s => (body first s).bind (forUp count (first + 1) body)

/-- `STATUS.DONE <- 1`, the last action of every command that completes (R130). -/
def State.complete (s : State) : State := { s with done := true }

/-- The outcome of a command (R125, R130, R140). -/
def Flow.outcome : Flow → Host.Outcome State Fault Refusal
  | .go s => .next s.complete
  | .ended s => .next s
  | .stop f => .fault f

/-- What `raise Error(code, index)` records during the command word `w` (R125). -/
def State.raise (s : State) (code : ErrCode) (index : Nat) (w : Word) : State :=
  { s with err := code, errIndex := BitVec.ofNat 32 index, errCmd := w }

/-- `raise Error(code, index)` during the command `i`: the command ends (R11, R125). Its word is the only one that decodes to `i`. -/
def raiseError (code : ErrCode) (index : Nat) (i : Instr) (s : State) : Flow := .ended (s.raise code index (encode i))

/-- The return from an error: the effect of a STATUS write with ERRCLR set (R28, R128). -/
def State.clearError (s : State) : State := { s with err := .none, errIndex := 0, errCmd := 0 }

/-- `MemRead(S:j, 8)` (R11). An unwritten cell is UNINIT (R140). -/
def memReadS (j : Nat) (s : State) (use : Sample → Flow) : Flow :=
  match Memory.readSample s.sram j with
  | some v => use v
  | none => .stop (.uninitSample j)

/-- `MemRead(B:k, 1)` (R11). An unwritten cell is UNINIT (R140). -/
def memReadB (k : Nat) (s : State) (use : Byte → Flow) : Flow :=
  match Memory.read s.bram k with
  | some v => use v
  | none => .stop (.uninitByte k)

/-- The state with these contents of SRAM. -/
def State.withSram (s : State) (m : Memory) : State := { s with sram := m }

/-- The state with these contents of BRAM. -/
def State.withBram (s : State) (m : Memory) : State := { s with bram := m }

/-- `MemWrite(S:j, 8, v)` (R11). -/
def State.memWriteS (s : State) (j : Nat) (v : Sample) : State := s.withSram (Memory.writeSample s.sram j v)

/-- `MemWrite(B:k, 1, v)` (R11). -/
def State.memWriteB (s : State) (k : Nat) (v : Byte) : State := s.withBram (Memory.write s.bram k v)

/-- Gives the host a reply. -/
def State.reply (s : State) (r : Reply) : State := { s with replies := r :: s.replies }

/-- The host's moves still to come. -/
def State.withHost (s : State) (moves : List HostMove) : State := { s with host := moves }

/-- Takes `n` free values (log 3). -/
def State.drawn (s : State) (n : Nat) : State := { s with draws := s.draws + n }

/-- Every register at its reset value; the RAMs, their written marks and the host's side are kept (R141 to R143). -/
def State.resetRegisters (s : State) : State :=
  { State.atReset s.cfg with
    sram := s.sram, bram := s.bram, rst := s.rst, host := s.host, replies := s.replies, draws := s.draws }

/-- The host drives the reset input (R141; log 6). -/
def setResetLine (level : Bool) (s : State) : State :=
  if level then { s.resetRegisters with rst := true } else { s with rst := false }

end Sys2Proof.Machine
end

