-- ==== Sys2Proof/Machine/Operands.lean ====
section
/-! DEFINITION. Regions (R12), register numbers, and the registers as the host reads and writes them (R16 to R42). -/

namespace Sys2Proof.Machine

/-- The region of `len` cells from `base` fits a memory of `depth` cells, with no wrap-around (R12, D28). -/
def fits (base len depth : Nat) : Bool := decide (base + len ≤ depth)

/-- Two regions of one memory overlap: both are non-empty and share an index (R12). -/
def overlap (aBase aLen bBase bLen : Nat) : Bool :=
  decide (aLen ≠ 0 ∧ bLen ≠ 0 ∧ aBase < bBase + bLen ∧ bBase < aBase + aLen)

/-- QONE's operand `{x[QONE_HI], x[QONE_LO]}` (R34). -/
def State.qoneOperand (s : State) : Sample := s.qoneHi ++ s.qoneLo

/-- The byte offset of a register (R16). -/
def Csr.offset : Csr → Nat
  | .id => 0x00
  | .ctrl => 0x04
  | .status => 0x08
  | .cmd => 0x0C
  | .srcRate => 0x10
  | .dstRate => 0x14
  | .rsSrc => 0x18
  | .rsDst => 0x1C
  | .rsLen => 0x20
  | .rsOutLen => 0x24
  | .qSrc => 0x28
  | .qDst => 0x2C
  | .qLen => 0x30
  | .qoneLo => 0x34
  | .qoneHi => 0x38
  | .qoneRes => 0x3C
  | .dSrc => 0x40
  | .dLen => 0x44
  | .dWptr => 0x48
  | .dAcc => 0x4C
  | .dPack => 0x50
  | .dBits => 0x54
  | .errIndex => 0x58
  | .errCmd => 0x5C

/-- The registers in the order of R16's table. -/
def Csr.all : List Csr :=
  [.id, .ctrl, .status, .cmd, .srcRate, .dstRate, .rsSrc, .rsDst, .rsLen, .rsOutLen, .qSrc, .qDst, .qLen, .qoneLo, .qoneHi,
    .qoneRes, .dSrc, .dLen, .dWptr, .dAcc, .dPack, .dBits, .errIndex, .errCmd]

/-- The register at an offset, if one is there (R16). -/
def csrAt (offset : Nat) : Option Csr := Csr.all.find? fun c => c.offset = offset

end Sys2Proof.Machine
end

