-- ==== Sys2Proof/Machine/Flags.lean ====
section
/-! DEFINITION. The flags (R22): CTRL, STATUS and D_PACK as registers, the W1C and ERRCLR write, and IRQ. -/

namespace Sys2Proof.Machine

/-- The number in STATUS.ERR (R118). -/
def ErrCode.code : ErrCode → Nat
  | .none => 0
  | .illegal => 1
  | .rate => 2
  | .range => 3
  | .overlap => 4
  | .nan => 5

/-- CTRL as it reads (R23). -/
def State.ctrlWord (s : State) : Word := BitVec.ofNat 32 (s.ieDone.toNat + 2 * s.ieErr.toNat)

/-- A host write to CTRL: bits 1:0 are stored, the rest are reserved (R23). -/
def State.writeCtrl (s : State) (v : Word) : State := { s with ieDone := v.getLsbD 0, ieErr := v.getLsbD 1 }

/-- STATUS as it reads: DONE, WARN_DEGEN, ERR; every other bit reads 0 (R25 to R28). -/
def State.statusWord (s : State) : Word := BitVec.ofNat 32 (s.done.toNat + 2 * s.warnDegen.toNat + 256 * s.err.code)

/-- A host write to STATUS: bits 0 and 1 clear DONE and WARN_DEGEN, bit 31 clears the error record (R25, R26, R28). -/
def State.writeStatus (s : State) (v : Word) : State :=
  let t := { s with done := s.done && !v.getLsbD 0, warnDegen := s.warnDegen && !v.getLsbD 1 }
  if v.getLsbD 31 then t.clearError else t

/-- `STATUS.WARN_DEGEN <- 1` (R80). -/
def State.warn (s : State) : State := { s with warnDegen := true }

/-- D_PACK as it reads (R40). -/
def State.packWord (s : State) : Word :=
  BitVec.ofNat 32 (s.pend.toNat + 256 * s.cnt.toNat + 65536 * s.lastBit.toNat)

/-- The level of the interrupt output (R132). -/
def State.irq (s : State) : Bool := (s.done && s.ieDone) || (s.err != .none && s.ieErr)

end Sys2Proof.Machine
end

