-- ==== Sys2Proof/Machine/Control.lean ====
section
/-! DEFINITION. The control command NOP (R115). -/

namespace Sys2Proof.Machine

/-- NOP (R115): only DONE is set. -/
def execNop (s : State) : Host.Outcome State Fault Refusal := (Flow.go s).outcome

end Sys2Proof.Machine
end

