-- ==== Sys2Proof/Machine/Dpcm.lean ====
section
/-! DEFINITION. The DPCM encoder commands DINIT, DENC, DSTEP and DFLUSH (R100 to R108). -/

namespace Sys2Proof.Machine

/-- `write_byte(v)` (R103). -/
def State.writeByte (s : State) (v : Nat) : State :=
  { s.memWriteB s.dWptr.toNat (BitVec.ofNat 8 v) with dWptr := s.dWptr + 1, pend := 0, cnt := 0 }

/-- `emit(b)` (R102). The pending bits with the new one are up to 8 bits before a full byte is written. -/
def State.emit (s : State) (b : Bool) : State :=
  let pending := 2 * s.pend.toNat + b.toNat
  let t := { s with lastBit := b, dBits := s.dBits + 1 }
  if s.cnt.toNat + 1 = 8 then t.writeByte pending
  else { t with pend := BitVec.ofNat 7 pending, cnt := s.cnt + 1 }

/-- The bit a step emits: 1 when the accumulator is below the target (R101). -/
def stepBit (acc target : Byte) : Bool := decide (acc.toNat < target.toNat)

/-- The accumulator after a step, saturating (R101). -/
def stepAcc (acc target : Byte) : Byte :=
  if acc.toNat < target.toNat then BitVec.ofNat 8 (min (acc.toNat + 1) 255) else BitVec.ofNat 8 (acc.toNat - 1)

/-- `ACC <- a`. -/
def State.setAcc (s : State) (a : Byte) : State := { s with acc := a }

/-- `dstep(target)` (R101). -/
def State.dstep (s : State) (target : Byte) : State :=
  (s.setAcc (stepAcc s.acc target)).emit (stepBit s.acc target)

/-- The byte that a flush writes: the pending bits at the most significant end (R104). -/
def State.flushByte (s : State) : Nat := s.pend.toNat * 2 ^ (8 - s.cnt.toNat)

/-- `flush()` (R104). -/
def State.flush (s : State) : State := if 0 < s.cnt.toNat then s.writeByte s.flushByte else s

/-- The state a stream starts from (R105, R144). -/
def State.startStream (s : State) : State := { s with acc := 128, pend := 0, cnt := 0, lastBit := false, dBits := 0 }

/-- DINIT (R105). -/
def execDinit (s : State) : Host.Outcome State Fault Refusal := (Flow.go s.startStream).outcome

/-- `nb`, the whole bytes a DENC completes (R106). -/
def State.encBytes (s : State) : Nat := (s.cnt.toNat + s.dLen.toNat) / 8

/-- One turn of DENC's loop (R106). -/
def encElement (i : Nat) (s : State) : Flow := memReadB (s.dSrc.toNat + i) s fun t => .go (s.dstep t)

/-- DENC (R106). -/
def dencFlow (s : State) : Flow :=
  let n := s.dLen.toNat
  let nb := s.encBytes
  if !fits s.dSrc.toNat n s.cfg.byteWords || !fits s.dWptr.toNat nb s.cfg.byteWords then raiseError .range 0 .denc s
  else if overlap s.dSrc.toNat n s.dWptr.toNat nb then raiseError .overlap 0 .denc s
  else forUp n 0 encElement s

/-- DENC (R106). -/
def execDenc (s : State) : Host.Outcome State Fault Refusal := (dencFlow s).outcome

/-- DSTEP (R107). -/
def dstepFlow (target : Byte) (s : State) : Flow :=
  if s.cnt.toNat = 7 ∧ s.cfg.byteWords ≤ s.dWptr.toNat then raiseError .range 0 (.dstep target) s
  else .go (s.dstep target)

/-- DSTEP (R107). -/
def execDstep (target : Byte) (s : State) : Host.Outcome State Fault Refusal := (dstepFlow target s).outcome

/-- DFLUSH (R108). -/
def dflushFlow (s : State) : Flow :=
  if 0 < s.cnt.toNat ∧ s.cfg.byteWords ≤ s.dWptr.toNat then raiseError .range 0 .dflush s
  else .go s.flush

/-- DFLUSH (R108). -/
def execDflush (s : State) : Host.Outcome State Fault Refusal := (dflushFlow s).outcome

end Sys2Proof.Machine
end

