-- ==== Sys2Proof/Machine/Float.lean ====
section
/-! DEFINITION. IEEE 754 binary64 as rule R10 uses it: patterns, exact values, round to nearest with ties to even.

A finite binary64 value is an integer multiple of 2^-1074, the least subnormal. FVal holds the sign and that multiple, so every operation
computes an exact rational and rounds it once. The meaning of the operations is the standard's (G2; log 4). -/

namespace Sys2Proof.Machine

/-- The value of a binary64 pattern. A NaN's pattern is not part of its value (R10). -/
inductive FVal where
  | nan
  | inf (neg : Bool)
  /-- Plus or minus `units` times 2^-1074; the sign of zero is kept. -/
  | fin (neg : Bool) (units : Nat)
deriving DecidableEq, Repr

/-- 1.0 in units of 2^-1074. -/
def oneUnits : Nat := 1 <<< 1074

/-- 2^1024 in units of 2^-1074: a rounded magnitude this large overflows to infinity. -/
def infUnits : Nat := 1 <<< 2098

/-- Bit 63 of a pattern (R76). -/
def signBit (a : Sample) : Bool := a.getLsbD 63

/-- Bits 62:52 of a pattern (R76). -/
def expField (a : Sample) : Nat := (a.extractLsb' 52 11).toNat

/-- Bits 51:0 of a pattern (R76). -/
def fracField (a : Sample) : Nat := (a.extractLsb' 0 52).toNat

/-- `isNaN(a)` (R10). -/
def isNaN (a : Sample) : Bool := expField a == 2047 && fracField a != 0

/-- The value of a pattern: subnormals (exponent field 0) are kept (R10). -/
def unpack (a : Sample) : FVal :=
  if expField a = 2047 then (if fracField a = 0 then .inf (signBit a) else .nan)
  else if expField a = 0 then .fin (signBit a) (fracField a)
  else .fin (signBit a) ((fracField a + (1 <<< 52)) <<< (expField a - 1))

/-- `Nat.log2` by `fuel` halvings of the range, for numbers below 2^(2^fuel). -/
def topBitAux : (fuel : Nat) → Nat → Nat
  | 0, _ => 0
  | fuel + 1, n =>
    if n >>> (1 <<< fuel) = 0 then topBitAux fuel n
    else (1 <<< fuel) + topBitAux fuel (n >>> (1 <<< fuel))

/-- The position of the highest 1 bit; it is `Nat.log2` (topBit_eq_log2 in Laws/Float.lean), in few reductions. -/
def topBit (n : Nat) : Nat := if n < 1 <<< 4096 then topBitAux 12 n else Nat.log2 n

/-- How far a magnitude of `k` units must be shifted for its top 53 bits to be left. -/
def quantumShift (k : Nat) : Nat := topBit k - 52

/-- The integer nearest to `p / q`, a tie to the even one; `q` positive. -/
def roundHalfEven (p q : Nat) : Nat :=
  if 2 * (p % q) < q then p / q
  else if q < 2 * (p % q) then p / q + 1
  else p / q + (p / q) % 2

/-- The magnitude `p / q` units, rounded to 53 significant bits, or to a whole unit where it is subnormal. -/
def roundUnits (p q : Nat) : Nat :=
  let sh := quantumShift (p / q)
  roundHalfEven p (q <<< sh) <<< sh

/-- A rounded magnitude as a value: infinite from 2^1024 on. -/
def ofUnits (neg : Bool) (n : Nat) : FVal := if infUnits ≤ n then .inf neg else .fin neg n

/-- `fl` of plus or minus `p / q` units (R10). -/
def fl (neg : Bool) (p q : Nat) : FVal := ofUnits neg (roundUnits p q)

/-- A finite value as a signed number of units. -/
def signedUnits (neg : Bool) (u : Nat) : Int := if neg then -(u : Int) else u

/-- The value with the other sign. -/
def fneg : FVal → FVal
  | .nan => .nan
  | .inf s => .inf !s
  | .fin s u => .fin (!s) u

/-- `fadd(a, b)` (R10). An exact zero sum is +0 unless both operands are negative zeros. -/
def fadd : FVal → FVal → FVal
  | .nan, _ => .nan
  | .inf _, .nan => .nan
  | .inf s, .inf t => if s = t then .inf s else .nan
  | .inf s, .fin _ _ => .inf s
  | .fin _ _, .nan => .nan
  | .fin _ _, .inf t => .inf t
  | .fin s u, .fin t v =>
    let sum := signedUnits s u + signedUnits t v
    if sum = 0 then .fin (s && t) 0 else fl (decide (sum < 0)) sum.natAbs 1

/-- `fsub(a, b)` (R10). -/
def fsub (a b : FVal) : FVal := fadd a (fneg b)

/-- `fmul(a, b)` (R10). -/
def fmul : FVal → FVal → FVal
  | .nan, _ => .nan
  | .inf _, .nan => .nan
  | .inf s, .inf t => .inf (s != t)
  | .inf s, .fin t v => if v = 0 then .nan else .inf (s != t)
  | .fin _ _, .nan => .nan
  | .fin s u, .inf t => if u = 0 then .nan else .inf (s != t)
  | .fin s u, .fin t v => fl (s != t) (u * v) oneUnits

/-- `fdiv(a, b)` (R10). -/
def fdiv : FVal → FVal → FVal
  | .nan, _ => .nan
  | .inf _, .nan => .nan
  | .inf _, .inf _ => .nan
  | .inf s, .fin t _ => .inf (s != t)
  | .fin _ _, .nan => .nan
  | .fin s _, .inf t => .fin (s != t) 0
  | .fin s u, .fin t v =>
    if v = 0 then (if u = 0 then .nan else .inf (s != t)) else fl (s != t) (u * oneUnits) v

/-- `i2f(n)` (R10), exact for n below 2^53. -/
def i2f (n : Nat) : FVal := fl false (n * oneUnits) 1

/-- `flt(a, b)`: false when either operand is a NaN (R10). -/
def flt : FVal → FVal → Bool
  | .nan, _ => false
  | .inf _, .nan => false
  | .inf s, .inf t => s && !t
  | .inf s, .fin _ _ => s
  | .fin _ _, .nan => false
  | .fin _ _, .inf t => !t
  | .fin s u, .fin t v => decide (signedUnits s u < signedUnits t v)

/-- `roundTiesEven(a)` of the finite value with this sign and magnitude (R10), as an integer. -/
def roundTiesEven (neg : Bool) (units : Nat) : Int := signedUnits neg (roundHalfEven units oneUnits)

/-- The exponent and fraction fields of a finite magnitude of `u` units, as one number. -/
def magnitudeBits (u : Nat) : Nat := (quantumShift u <<< 52) + (u >>> quantumShift u)

/-- The pattern with this sign and these lower 63 bits (R76). -/
def patternOf (neg : Bool) (bits : Nat) : Sample := BitVec.ofNat 64 ((neg.toNat <<< 63) + bits)

/-- The pattern of a value. A NaN takes the pattern `nan`, which the caller supplies (U4). -/
def pack (nan : Sample) : FVal → Sample
  | .nan => nan
  | .inf s => patternOf s (2047 <<< 52)
  | .fin s u => patternOf s (magnitudeBits u)

/-- A quiet NaN whose sign and whose other fraction bits are free (R10, U4; log 11). -/
def freeNaN (k : Nat) : Sample := Config.freeNaNBits k ||| 0x7FF8000000000000

/-- The values -1.0, 1.0, 0.5 and 255.0 (R90, R91). -/
def negOne : FVal := unpack 0xBFF0000000000000

@[inherit_doc negOne]
def posOne : FVal := unpack 0x3FF0000000000000

@[inherit_doc negOne]
def half : FVal := unpack 0x3FE0000000000000

@[inherit_doc negOne]
def twoFiftyFive : FVal := unpack 0x406FE00000000000

end Sys2Proof.Machine
end

