-- ==== Sys2Proof/Machine/Quantizer.lean ====
section
/-! DEFINITION. The quantizer commands QUANT and QONE (R90 to R96). -/

namespace Sys2Proof.Machine

/-- The first clamp (R90). -/
def clampUnit (x : FVal) : FVal := if flt x negOne then negOne else if flt posOne x then posOne else x

/-- The affine map `(x*0.5 + 0.5) * 255`, three rounded operations (R91). -/
def affine (xc : FVal) : FVal := fmul (fadd (fmul xc half) half) twoFiftyFive

/-- The second clamp (R93). -/
def clampCode (k : Int) : Byte := BitVec.ofNat 8 (min (max k 0) 255).toNat

/-- `qcode(x)` (R90 to R93); a NaN has no code (R94). The value rounded is finite for every other pattern (R97;
qcode_eq_none_iff in Laws/Quantizer.lean). -/
def qcode (x : Sample) : Option Byte :=
  if isNaN x then none
  else
    match affine (clampUnit (unpack x)) with
    | .fin neg u => some (clampCode (roundTiesEven neg u))
    | .inf _ => none
    | .nan => none

/-- One turn of QUANT's loop (R95). -/
def quantElement (i : Nat) (s : State) : Flow :=
  memReadS (s.qSrc.toNat + i) s fun v =>
    match qcode v with
    | none => raiseError .nan i .quant s
    | some code => .go (s.memWriteB (s.qDst.toNat + i) code)

/-- QUANT (R95). -/
def quantFlow (s : State) : Flow :=
  let n := s.qLen.toNat
  if !fits s.qSrc.toNat n s.cfg.sampleWords || !fits s.qDst.toNat n s.cfg.byteWords then raiseError .range 0 .quant s
  else forUp n 0 quantElement s

/-- QUANT (R95). -/
def execQuant (s : State) : Host.Outcome State Fault Refusal := (quantFlow s).outcome

/-- QONE (R96). -/
def qoneFlow (s : State) : Flow :=
  match qcode s.qoneOperand with
  | none => raiseError .nan 0 .qone s
  | some code => .go { s with qoneRes := code }

/-- QONE (R96). -/
def execQone (s : State) : Host.Outcome State Fault Refusal := (qoneFlow s).outcome

end Sys2Proof.Machine
end

