-- ==== Sys2Proof/Machine/Resampler.lean ====
section
/-! DEFINITION. The resampler commands RESAMPLE and RSLEN (R77 to R85). -/

namespace Sys2Proof.Machine

/-- The mode of a resample (R78). -/
inductive RsMode where
  | copy
  | degen
  | interp
deriving DecidableEq, Repr

/-- `rsmode(n, src, dst)`: the mode and the output length, in exact integers (R78). -/
def rsmode (n src dst : Nat) : RsMode × Nat :=
  if n < 2 ∨ src = dst then (.copy, n)
  else if n * dst / src ≤ 1 then (.degen, 1)
  else (.interp, n * dst / src)

/-- `i0`, the whole part of the source position of output index `i` (R81). -/
def rsIndex (src dst i : Nat) : Nat := i * src / dst

/-- `r`, the remainder of that position (R81). -/
def rsRemainder (src dst i : Nat) : Nat := i * src % dst

/-- `i1 = min(i0 + 1, n - 1)` (R82). -/
def rsNext (n i0 : Nat) : Nat := min (i0 + 1) (n - 1)

/-- The interpolated value for `r ≠ 0` (R83). -/
def lerp (x0 x1 : Sample) (r dst : Nat) : FVal :=
  let f := fdiv (i2f r) (i2f dst)
  let d := fsub (unpack x1) (unpack x0)
  let p := fmul d f
  fadd (unpack x0) p

/-- The sample that output index `i` gets where it is interpolated (R83). If it is a NaN, its pattern is a free value (U4; log 3, log 11). -/
def lerpSample (draw : Nat) (x0 x1 : Sample) (r dst : Nat) : Sample := pack (freeNaN draw) (lerp x0 x1 r dst)

/-- The value of output index `i`, given to `use` (R79, R80, R81 to R83). -/
def resampleValue (mode : RsMode) (n src dst i : Nat) (s : State) (use : Sample → Flow) : Flow :=
  match mode with
  | .copy => memReadS (s.rsSrc.toNat + i) s use
  | .degen => memReadS s.rsSrc.toNat s use
  | .interp =>
    let i0 := rsIndex src dst i
    let r := rsRemainder src dst i
    memReadS (s.rsSrc.toNat + i0) s fun x0 =>
      if r = 0 then use x0
      else memReadS (s.rsSrc.toNat + rsNext n i0) s fun x1 => use (lerpSample (s.draws + i) x0 x1 r dst)

/-- One turn of RESAMPLE's loop (R84). -/
def resampleElement (mode : RsMode) (n src dst i : Nat) (s : State) : Flow :=
  resampleValue mode n src dst i s fun y => .go (s.memWriteS (s.rsDst.toNat + i) y)

/-- What RESAMPLE and RSLEN write when they complete: RS_OUTLEN, and WARN_DEGEN in DEGEN mode (R84, R85). -/
def State.lengthResult (s : State) (mode : RsMode) (len : Nat) : State :=
  let t := { s with rsOutLen := BitVec.ofNat 32 len }
  if mode = .degen then t.warn else t

/-- The free values an output of this mode and length takes (log 3). -/
def rsDraws (mode : RsMode) (len : Nat) : Nat := if mode = .interp then len else 0

/-- RESAMPLE (R84), in the order of its checks. -/
def resampleFlow (s : State) : Flow :=
  let n := s.rsLen.toNat
  let src := s.srcRate.toNat
  let dst := s.dstRate.toNat
  if src = 0 ∨ dst = 0 then raiseError .rate 0 .resample s
  else
    let mode := (rsmode n src dst).1
    let len := (rsmode n src dst).2
    if !fits s.rsSrc.toNat n s.cfg.sampleWords || !fits s.rsDst.toNat len s.cfg.sampleWords then
      raiseError .range 0 .resample s
    else if overlap s.rsSrc.toNat n s.rsDst.toNat len then raiseError .overlap 0 .resample s
    else
      (forUp len 0 (resampleElement mode n src dst) s).bind fun t =>
        .go ((t.drawn (rsDraws mode len)).lengthResult mode len)

/-- RESAMPLE (R84). -/
def execResample (s : State) : Host.Outcome State Fault Refusal := (resampleFlow s).outcome

/-- RSLEN (R85). -/
def rslenFlow (s : State) : Flow :=
  let n := s.rsLen.toNat
  let src := s.srcRate.toNat
  let dst := s.dstRate.toNat
  if src = 0 ∨ dst = 0 then raiseError .rate 0 .rslen s
  else
    let mode := (rsmode n src dst).1
    let len := (rsmode n src dst).2
    if 2 ^ 32 ≤ len then raiseError .range 0 .rslen s
    else .go (s.lengthResult mode len)

/-- RSLEN (R85). -/
def execRslen (s : State) : Host.Outcome State Fault Refusal := (rslenFlow s).outcome

end Sys2Proof.Machine
end

