-- ==== Sys2Proof/Machine/Dispatch.lean ====
section
/-! DEFINITION. One arm per command. -/

namespace Sys2Proof.Machine

/-- Runs a command that R127 lets run. -/
def exec (i : Instr) (s : State) : Host.Outcome State Fault Refusal :=
  match i with
  | .nop => Sys2Proof.Machine.execNop s
  | .resample => Sys2Proof.Machine.execResample s
  | .rslen => Sys2Proof.Machine.execRslen s
  | .quant => Sys2Proof.Machine.execQuant s
  | .qone => Sys2Proof.Machine.execQone s
  | .dinit => Sys2Proof.Machine.execDinit s
  | .denc => Sys2Proof.Machine.execDenc s
  | .dstep target => Sys2Proof.Machine.execDstep target s
  | .dflush => Sys2Proof.Machine.execDflush s

end Sys2Proof.Machine
end

