-- ==== Sys2Proof/Machine/Bus.lean ====
section
/-! DEFINITION. The host's moves: the address map, register and memory window accesses, bus errors, issuing a command, reset
(R16 to R19, R29, R44 to R50, R119, R127, R141, R154). -/

namespace Sys2Proof.Machine

/-- What stands at an aligned offset of the window (R19, R45, R49). -/
inductive Region where
  | csr (c : Csr)
  /-- CSR offsets 0x60 to 0xFC: read 0, writes ignored (R19). -/
  | reserved
  /-- One half of sample `j`; `high` is bits 63:32 (R45). -/
  | sram (j : Nat) (high : Bool)
  /-- Bytes `k` to `k + 3` (R45). -/
  | bram (k : Nat)
  | unmapped
deriving DecidableEq, Repr

/-- The size of the window: 4 MiB (R45). -/
def windowSize : Nat := 0x400000

/-- The address map (R45, R49). -/
def regionAt (cfg : Config) (offset : Nat) : Region :=
  if offset < 0x100000 then
    if offset < 0x100 then
      match csrAt offset with
      | some c => .csr c
      | none => .reserved
    else .unmapped
  else if offset < 0x200000 then
    if offset - 0x100000 < 8 * cfg.sampleWords then
      .sram ((offset - 0x100000) / 8) (decide (4 ≤ (offset - 0x100000) % 8))
    else .unmapped
  else if offset < 0x300000 then
    if offset - 0x200000 < cfg.byteWords then .bram (offset - 0x200000) else .unmapped
  else .unmapped

/-- The value a register reads as (R16 to R42). No read has a side effect (R17). -/
def State.readCsr (s : State) : Csr → Word
  | .id => 0x52570001
  | .ctrl => s.ctrlWord
  | .status => s.statusWord
  | .cmd => 0
  | .srcRate => s.srcRate
  | .dstRate => s.dstRate
  | .rsSrc => s.rsSrc
  | .rsDst => s.rsDst
  | .rsLen => s.rsLen
  | .rsOutLen => s.rsOutLen
  | .qSrc => s.qSrc
  | .qDst => s.qDst
  | .qLen => s.qLen
  | .qoneLo => s.qoneLo
  | .qoneHi => s.qoneHi
  | .qoneRes => s.qoneRes.zeroExtend 32
  | .dSrc => s.dSrc
  | .dLen => s.dLen
  | .dWptr => s.dWptr
  | .dAcc => s.acc.zeroExtend 32
  | .dPack => s.packWord
  | .dBits => s.dBits
  | .errIndex => s.errIndex
  | .errCmd => s.errCmd

/-- Issues a command word (R29): ignored while ERR is not 0 (R127), ILLEGAL if it does not decode (R119), run otherwise. -/
def issueCommand (w : Word) (s : State) : Host.Outcome State Fault Refusal :=
  if s.err ≠ .none then .next s
  else
    match decode w with
    | .ok i => exec i s
    | .error _ => .next (s.raise .illegal 0 w)

/-- A host write to a register (R16, R17): RW registers store the value, RO ones ignore it, STATUS clears, CMD runs a command. -/
def writeCsr (c : Csr) (v : Word) (s : State) : Host.Outcome State Fault Refusal :=
  match c with
  | .id => .next s
  | .ctrl => .next (s.writeCtrl v)
  | .status => .next (s.writeStatus v)
  | .cmd => issueCommand v s
  | .srcRate => .next { s with srcRate := v }
  | .dstRate => .next { s with dstRate := v }
  | .rsSrc => .next { s with rsSrc := v }
  | .rsDst => .next { s with rsDst := v }
  | .rsLen => .next { s with rsLen := v }
  | .rsOutLen => .next s
  | .qSrc => .next { s with qSrc := v }
  | .qDst => .next { s with qDst := v }
  | .qLen => .next { s with qLen := v }
  | .qoneLo => .next { s with qoneLo := v }
  | .qoneHi => .next { s with qoneHi := v }
  | .qoneRes => .next s
  | .dSrc => .next { s with dSrc := v }
  | .dLen => .next { s with dLen := v }
  | .dWptr => .next { s with dWptr := v }
  | .dAcc => .next s
  | .dPack => .next s
  | .dBits => .next s
  | .errIndex => .next s
  | .errCmd => .next s

/-- The half of a sample that an SRAM window word shows (R48). -/
def sampleHalf (v : Sample) (high : Bool) : Word := if high then v.extractLsb' 32 32 else v.extractLsb' 0 32

/-- The byte address of a half of sample `j` in `sram` (R48). -/
def halfAddr (j : Nat) (high : Bool) : Nat := 8 * j + if high then 4 else 0

/-- The host reads one half of a sample. An unwritten sample gives a free value (R48, R53; log 5). -/
def State.readSramHalf (s : State) (j : Nat) (high : Bool) : Word :=
  match Memory.readSample s.sram j with
  | some v => sampleHalf v high
  | none => Config.unwrittenHalf j high ((List.range 8).map fun b => Memory.read s.sram (8 * j + b))

/-- The host reads byte `k` of BRAM. An unwritten byte gives a free value (R48, R53; log 5). -/
def State.readBramByte (s : State) (k : Nat) : Byte := (Memory.read s.bram k).getD (Config.unwrittenByte k)

/-- The host reads bytes `k` to `k + 3`, byte `k` in bits 7:0 (R48). -/
def State.readBramWord (s : State) (k : Nat) : Word :=
  s.readBramByte (k + 3) ++ s.readBramByte (k + 2) ++ s.readBramByte (k + 1) ++ s.readBramByte k

/-- The host writes one half of a sample; the other half is unchanged (R48). -/
def State.writeSramHalf (s : State) (j : Nat) (high : Bool) (v : Word) : State :=
  s.withSram (Memory.writeLE s.sram (halfAddr j high) 4 v.toNat)

/-- The host writes bytes `k` to `k + 3` (R48). -/
def State.writeBramWord (s : State) (k : Nat) (v : Word) : State :=
  s.withBram (Memory.writeLE s.bram k 4 v.toNat)

/-- An accepted host read (R48, R50): its value is the reply, and it changes nothing else. -/
def busRead (r : Region) (s : State) : State :=
  match r with
  | .csr c => s.reply (.data (s.readCsr c))
  | .reserved => s.reply (.data 0)
  | .sram j high => s.reply (.data (s.readSramHalf j high))
  | .bram k => s.reply (.data (s.readBramWord k))
  | .unmapped => s.reply .busError

/-- An accepted host write (R48, R50). -/
def busWrite (r : Region) (v : Word) (s : State) : Host.Outcome State Fault Refusal :=
  match r with
  | .csr c => writeCsr c v (s.reply .done)
  | .reserved => .next (s.reply .done)
  | .sram j high => .next ((s.reply .done).writeSramHalf j high v)
  | .bram k => .next ((s.reply .done).writeBramWord k v)
  | .unmapped => .next (s.reply .busError)

/-- The address is in the block's window (R45). -/
def State.claims (s : State) (addr : Nat) : Bool := decide (s.cfg.blockBase ≤ addr ∧ addr < s.cfg.blockBase + windowSize)

/-- The region an access reaches; `unmapped` for every access R49 or R141 answers with a bus error. -/
def State.target (s : State) (a : BusAccess) : Region :=
  if s.rst || a.width != .w32 || (a.addr - s.cfg.blockBase) % 4 != 0 then .unmapped
  else regionAt s.cfg (a.addr - s.cfg.blockBase)

/-- A host access (R49, R154). -/
def busAccess (a : BusAccess) (s : State) : Host.Outcome State Fault Refusal :=
  if s.claims a.addr then
    match a.op with
    | .read => .next (busRead (s.target a) s)
    | .write v => busWrite (s.target a) v s
  else .next (s.reply .notClaimed)

/-- A move of the host (R154). -/
def perform (m : HostMove) (s : State) : Host.Outcome State Fault Refusal :=
  match m with
  | .access a => busAccess a s
  | .resetLine level => .next (setResetLine level s)

/-- The host write that issues a command word (R29). -/
def cmdWrite (cfg : Config) (w : Word) : HostMove :=
  .access { addr := cfg.blockBase + Csr.offset .cmd, width := .w32, op := .write w }

end Sys2Proof.Machine
end

