-- ==== Sys2Proof/Machine/Step.lean ====
section
/-! DEFINITION. One step: the host's next move. -/

namespace Sys2Proof.Machine

/-- One step (R21, R153): the first of the host's pending moves is performed. With none pending the block stays as it is: it starts
nothing on its own (R154; log 2). -/
def step (s : State) : Host.Outcome State Fault Refusal :=
  match s.host with
  | [] => .next s
  | m :: rest => perform m (s.withHost rest)

/-- `s` with the word of an opcode-table row as the data of the host's next move, a write to CMD, and the reset input released (R29,
R141; log 2). -/
def State.withFetchWord (s : State) (nbits w : Nat) : State :=
  { s with rst := false, host := cmdWrite s.cfg (BitVec.ofNat 32 (w % 2 ^ nbits)) :: s.host }

end Sys2Proof.Machine
end

