-- ==== Sys2Proof/Machine/HostProgram.lean ====
section
/-! DEFINITION. The host assembly and its pseudo-instructions (R71, R72), as lists of host moves. -/

namespace Sys2Proof.Machine

/-- A 32-bit write at an offset of the window. -/
def hostWrite (cfg : Config) (offset : Nat) (v : Word) : List HostMove :=
  [.access { addr := cfg.blockBase + offset, width := .w32, op := .write v }]

/-- A 32-bit read at an offset of the window. -/
def hostRead (cfg : Config) (offset : Nat) : List HostMove :=
  [.access { addr := cfg.blockBase + offset, width := .w32, op := .read }]

/-- `wr NAME, v` (R71). -/
def wr (cfg : Config) (c : Csr) (v : Word) : List HostMove := hostWrite cfg c.offset v

/-- `rd NAME` (R71). -/
def rd (cfg : Config) (c : Csr) : List HostMove := hostRead cfg c.offset

/-- `wsmp j, P`: the low half, then the high half (R72). -/
def wsmp (cfg : Config) (j : Nat) (p : Sample) : List HostMove :=
  hostWrite cfg (0x100000 + 8 * j) (sampleHalf p false) ++ hostWrite cfg (0x100000 + 8 * j + 4) (sampleHalf p true)

/-- `rsmp j` (R72). -/
def rsmp (cfg : Config) (j : Nat) : List HostMove :=
  hostRead cfg (0x100000 + 8 * j) ++ hostRead cfg (0x100000 + 8 * j + 4)

/-- `wbyte k, b0 b1 b2 b3`, k a multiple of 4 (R71). -/
def wbyte (cfg : Config) (k : Nat) (b0 b1 b2 b3 : Byte) : List HostMove := hostWrite cfg (0x200000 + k) (b3 ++ b2 ++ b1 ++ b0)

/-- `rbyte k` (R71). -/
def rbyte (cfg : Config) (k : Nat) : List HostMove := hostRead cfg (0x200000 + k)

/-- `cmd MNEMONIC` (R71). -/
def cmd (cfg : Config) (i : Instr) : List HostMove := wr cfg .cmd (encode i)

/-- `clrstat` (R72). -/
def clrstat (cfg : Config) : List HostMove := wr cfg .status 0x80000003

/-- `wait`: no bus operation (R72). -/
def wait : List HostMove := []

/-- `dpcm_stream` (R72). -/
def dpcmStream (cfg : Config) : List HostMove := cmd cfg .dinit ++ cmd cfg .denc ++ cmd cfg .dflush

/-- A reset pulse: the input asserted, then released (R141, R154; log 6). -/
def resetPulse : List HostMove := [.resetLine true, .resetLine false]

/-- A state whose host is about to run a program (R153; log 2). -/
def State.load (s : State) (program : List HostMove) : State := s.withHost program

end Sys2Proof.Machine
end

