-- ==== Sys2Proof/Safety.lean ====
section
/-! DEFINITION. What a reachable state looks like, and what a safe run is. -/

namespace Sys2Proof.Machine

/-- The commands that can raise an error code, by R118's table. -/
def ErrCode.raisedBy (code : ErrCode) (i : Instr) : Bool :=
  match code with
  | .rate => i == .resample || i == .rslen
  | .range => i != .nop && i != .qone && i != .dinit
  | .overlap => i == .resample || i == .denc
  | .nan => i == .quant || i == .qone
  | .none => false
  | .illegal => false

/-- The error record STATUS.ERR, ERR_INDEX, ERR_CMD is one that R118 allows: all zero with no error, the index zero except for a NAN
error of QUANT, and the recorded word one that raises the code. -/
def State.errorRecordOk (s : State) : Prop :=
  match s.err with
  | .none => s.errIndex = 0 ∧ s.errCmd = 0
  | .illegal => s.errIndex = 0 ∧ ∃ e, decode s.errCmd = .error e
  | code => (s.errIndex = 0 ∨ (code = .nan ∧ s.errCmd = encode .quant)) ∧ ∃ i, s.errCmd = encode i ∧ code.raisedBy i = true

/-- The invariant of the block. -/
structure State.Inv (s : State) : Prop where
  /-- The parameters are within R6's bounds. -/
  cfg : s.cfg.wellFormed = true
  /-- SRAM is in canonical form. -/
  sramWf : Memory.wf s.sram
  /-- BRAM is in canonical form. -/
  bramWf : Memory.wf s.bram
  /-- No cell beyond SAMPLE_WORDS is ever written (R46, R51). -/
  sramBound : ∀ x ∈ s.sram, x.1 < 8 * s.cfg.sampleWords
  /-- No cell beyond BYTE_WORDS is ever written (R47, R51). -/
  bramBound : ∀ x ∈ s.bram, x.1 < s.cfg.byteWords
  /-- The packer's invariant: PEND < 2^CNT (R40). -/
  packer : s.pend.toNat < 2 ^ s.cnt.toNat
  /-- The error record is one of R118's. -/
  record : s.errorRecordOk

/-- A run of `k` steps that does not reach UNINIT (R140, R153). -/
def State.safeFor (s : State) (k : Nat) : Prop := ∃ t, Sys2Proof.core.run k s = .next t

/-- A host program run from `s` reaches its end: every move has been performed and no step stopped (R153). -/
def State.safeRun (s : State) (program : List HostMove) : Prop := (s.load program).safeFor program.length

/-! ### The host's next move, as statements name it -/

/-- A host access at an offset of the block's window. -/
def accessAt (cfg : Config) (offset : Nat) (width : Width) (op : BusOp) : HostMove :=
  .access { addr := cfg.blockBase + offset, width := width, op := op }

/-- The host's next move is to write `w` to CMD of a block that is not held in reset, and `rest` comes after it (R29, R141). -/
def State.issues (s : State) (w : Word) (rest : List HostMove) : Prop := s.rst = false ∧ s.host = cmdWrite s.cfg w :: rest

/-- The host's next move is this access of a block that is not held in reset, and `rest` comes after it (R141, R154). -/
def State.accesses (s : State) (offset : Nat) (op : BusOp) (rest : List HostMove) : Prop :=
  s.rst = false ∧ s.host = accessAt s.cfg offset .w32 op :: rest

/-- The next move has been taken and answered; nothing else has changed. -/
def State.answered (s : State) (rest : List HostMove) (r : Reply) : State := (s.withHost rest).reply r

/-! ### The reference for the bit stream (R74, R101, R113) -/

/-- The bits a stream emits for targets taken in order, from an accumulator (R101). -/
def dpcmBits : Byte → List Byte → List Bool
  | _, [] => []
  | acc, t :: ts => stepBit acc t :: dpcmBits (stepAcc acc t) ts

/-- The accumulator after those targets (R101). -/
def dpcmAcc (acc : Byte) (ts : List Byte) : Byte := ts.foldl stepAcc acc

/-- The pending bits in emission order: the first emitted one is the most significant of PEND's CNT low bits (R40). -/
def State.pendBits (s : State) : List Bool := (List.range s.cnt.toNat).map fun j => s.pend.getLsbD (s.cnt.toNat - 1 - j)

/-- One step of a decoder: up on a 1, down on a 0, saturating (R113). -/
def reconstructStep (r : Nat) (b : Bool) : Nat := if b then min (r + 1) 255 else r - 1

end Sys2Proof.Machine
end

