-- ==== Sys2Proof/Certificates/Slice0/Obligations.lean ====
section
/-! DEFINITION. The statements about the block, for the provers. Each names the rules of spec/ it formalises or rests on.
`exec` is a command's own effect once it is issued; that a recorded error keeps a word from being issued is `issueCommand`'s (log 13), so a
statement about `exec` covers states with an error recorded too. `step` performs the host's first pending move (log 2), and what an access
gives back is a reply (log 9). -/

open Sys2Proof Sys2Proof.Machine

/-! ### Decoding and issuing commands -/

/-- Sanity: words written out from R64's table and from 95_test_vectors.md decode to their commands, and three reserved ones do not. -/
def Obligations.OpcodeMapWordsDecode : Prop :=
  decode 0x00000000 = .ok .nop ∧ decode 0x00000001 = .ok .resample ∧ decode 0x00000002 = .ok .rslen ∧
  decode 0x00000010 = .ok .quant ∧ decode 0x00000011 = .ok .qone ∧ decode 0x00000020 = .ok .dinit ∧
  decode 0x00000021 = .ok .denc ∧ decode 0x00008022 = .ok (.dstep 0x80) ∧ decode 0x00000023 = .ok .dflush ∧
  decode 0x00000003 = .error .reservedOp ∧ decode 0x00000100 = .error .immediateField ∧
  decode 0x0100FF22 = .error .reservedField

/-- R64, R65, R69: a word decodes to an instruction exactly when it is that instruction's word. -/
def Obligations.DecodeAndEncodeAreInverse : Prop := ∀ (w : Word) (i : Instr), decode w = .ok i ↔ w = encode i

/-- R65, R69: decoding is the rule's chain of tests, total on every word, and exactly 264 words decode to a command. -/
def Obligations.DecodingIsTotalWith264Commands : Prop :=
  (∀ w : Word, (decode w).toOption =
    if w.extractLsb' 16 16 ≠ 0 then none
    else if w.extractLsb' 0 8 = 0x22 then some (.dstep (w.extractLsb' 8 8))
    else if w.extractLsb' 8 8 ≠ 0 then none
    else if w.extractLsb' 0 8 = 0x00 then some .nop
    else if w.extractLsb' 0 8 = 0x01 then some .resample
    else if w.extractLsb' 0 8 = 0x02 then some .rslen
    else if w.extractLsb' 0 8 = 0x10 then some .quant
    else if w.extractLsb' 0 8 = 0x11 then some .qone
    else if w.extractLsb' 0 8 = 0x20 then some .dinit
    else if w.extractLsb' 0 8 = 0x21 then some .denc
    else if w.extractLsb' 0 8 = 0x23 then some .dflush
    else none) ∧
  ∃ ws : List Word, ws.Nodup ∧ ws.length = 264 ∧ ∀ w : Word, (∃ i, decode w = .ok i) ↔ w ∈ ws

/-- R29, R44: a step in which the host writes to CMD runs the decoded command on the state in which the move is taken and answered,
and `withFetchWord`, the model's own way to place one (log 2), places such a move. -/
def Obligations.StepRunsTheDecodedCommand : Prop :=
  (∀ (s : State) (w : Word) (i : Instr) (rest : List HostMove),
    s.issues w rest → s.err = .none → decode w = .ok i → step s = exec i (s.answered rest .done)) ∧
  (∀ (s : State) (w : Word) (i : Instr),
    s.err = .none → decode w = .ok i →
      step (s.withFetchWord 32 w.toNat) = exec i ({ s with rst := false }.answered s.host .done))

/-- R66, R67, R119: a word with a non-zero reserved field, or a non-zero immediate outside DSTEP, or a reserved OP, records ILLEGAL and
has no other effect. -/
def Obligations.IllegalWordsRaiseIllegalOnly : Prop :=
  ∀ (s : State) (w : Word) (rest : List HostMove), s.issues w rest → s.err = .none →
    (w.extractLsb' 16 16 ≠ 0 ∨ (w.extractLsb' 8 8 ≠ 0 ∧ w.extractLsb' 0 8 ≠ 0x22) ∨
      w.extractLsb' 0 8 ∉ ([0x00, 0x01, 0x02, 0x10, 0x11, 0x20, 0x21, 0x22, 0x23] : List Byte)) →
    step s = .next { s.answered rest .done with err := .illegal, errIndex := 0, errCmd := w }

/-- R127: while ERR is not 0 a write to CMD is ignored, whatever the word. -/
def Obligations.CommandWritesAreIgnoredWhileErrIsSet : Prop :=
  ∀ (s : State) (w : Word) (rest : List HostMove), s.issues w rest → s.err ≠ .none →
    step s = .next (s.answered rest .done)

/-- R154, in the model's form (log 2): with no host move pending the block stays as it is. -/
def Obligations.BlockStartsNothingOnItsOwn : Prop := ∀ s : State, s.host = [] → step s = .next s

/-! ### The host's accesses -/

/-- R49, R141: an access of another width, at an offset that is no multiple of 4, or at an unmapped offset, and any access while the reset
input is asserted, gets a bus error and changes no state of the block. -/
def Obligations.RefusedAccessesGetABusErrorAndChangeNothing : Prop :=
  ∀ (s : State) (offset : Nat) (width : Width) (op : BusOp) (rest : List HostMove),
    offset < 0x400000 → s.host = accessAt s.cfg offset width op :: rest →
    (s.rst = true ∨ width ≠ .w32 ∨ offset % 4 ≠ 0 ∨ (0x100 ≤ offset ∧ offset < 0x100000) ∨
      (0x100000 + 8 * s.cfg.sampleWords ≤ offset ∧ 0x100000 ≤ offset ∧ offset < 0x200000) ∨
      (0x200000 + s.cfg.byteWords ≤ offset ∧ 0x200000 ≤ offset ∧ offset < 0x300000) ∨ 0x300000 ≤ offset) →
    step s = .next (s.answered rest .busError)

/-- R16, R17, R19: a read of a register returns it and changes nothing; a reserved offset reads 0 and ignores writes; CSR offsets from 0x100
on get a bus error. -/
def Obligations.RegisterWindowReads : Prop :=
  (∀ (s : State) (c : Csr) (rest : List HostMove), s.accesses c.offset .read rest →
    step s = .next (s.answered rest (.data (s.readCsr c)))) ∧
  (∀ (s : State) (offset : Nat) (v : Word) (rest : List HostMove), 0x60 ≤ offset → offset < 0x100 → offset % 4 = 0 →
    (s.accesses offset .read rest → step s = .next (s.answered rest (.data 0))) ∧
    (s.accesses offset (.write v) rest → step s = .next (s.answered rest .done))) ∧
  (∀ (s : State) (offset : Nat) (op : BusOp) (rest : List HostMove), 0x100 ≤ offset → offset < 0x100000 →
    s.accesses offset op rest → step s = .next (s.answered rest .busError))

/-- R17, R23: a write to an RW register stores the value and leaves every other register and both memories alone; CTRL keeps bits 1:0; a
write to an RO register changes nothing. -/
def Obligations.RegisterWritesFollowTheAccessTypes : Prop :=
  (∀ (s : State) (c : Csr) (v : Word) (rest : List HostMove),
    c ∈ ([.srcRate, .dstRate, .rsSrc, .rsDst, .rsLen, .qSrc, .qDst, .qLen, .qoneLo, .qoneHi, .dSrc, .dLen, .dWptr, .ctrl] : List Csr) →
    s.accesses c.offset (.write v) rest →
    ∃ t, step s = .next t ∧ t.readCsr c = (if c = .ctrl then v &&& 3 else v) ∧
      (∀ d, d ≠ c → t.readCsr d = s.readCsr d) ∧
      t.sram = s.sram ∧ t.bram = s.bram ∧ t.cfg = s.cfg ∧ t.rst = s.rst ∧ t.draws = s.draws ∧ t.host = rest ∧
      t.replies = .done :: s.replies) ∧
  (∀ (s : State) (c : Csr) (v : Word) (rest : List HostMove),
    c ∈ ([.id, .rsOutLen, .qoneRes, .dAcc, .dPack, .dBits, .errIndex, .errCmd] : List Csr) →
    s.accesses c.offset (.write v) rest → step s = .next (s.answered rest .done))

/-- R28: a write to STATUS clears DONE by bit 0, WARN_DEGEN by bit 1, and the error record by bit 31, and nothing else; bit 31 reads 0. -/
def Obligations.StatusWriteClearsByBits : Prop :=
  (∀ s : State, s.statusWord.getLsbD 31 = false) ∧
  ∀ (s : State) (v : Word) (rest : List HostMove), s.accesses 0x08 (.write v) rest →
    step s = .next { s.answered rest .done with
      done := s.done && !v.getLsbD 0
      warnDegen := s.warnDegen && !v.getLsbD 1
      err := if v.getLsbD 31 then .none else s.err
      errIndex := if v.getLsbD 31 then 0 else s.errIndex
      errCmd := if v.getLsbD 31 then 0 else s.errCmd }

/-- R25, R26, R27, R129: what is set stays set: a step clears DONE, WARN_DEGEN or the error record only by a reset or by the host's STATUS
write with that bit. -/
def Obligations.StatusIsSticky : Prop :=
  ∀ s t : State, step s = .next t →
    (∃ rest, s.host = .resetLine true :: rest) ∨
    ((s.done = true → t.done = false → ∃ v rest, s.accesses 0x08 (.write v) rest ∧ v.getLsbD 0 = true) ∧
      (s.warnDegen = true → t.warnDegen = false → ∃ v rest, s.accesses 0x08 (.write v) rest ∧ v.getLsbD 1 = true) ∧
      (s.err ≠ .none → ¬(t.err = s.err ∧ t.errIndex = s.errIndex ∧ t.errCmd = s.errCmd) →
        ∃ v rest, s.accesses 0x08 (.write v) rest ∧ v.getLsbD 31 = true))

/-- R23 to R27, R35, R38, R40: the fields of the registers that are not plain 32-bit values, each at its bits, every reserved bit 0. -/
def Obligations.RegisterFieldsReadAtTheirBits : Prop :=
  ∀ s : State,
    s.readCsr .id = 0x52570001 ∧ s.readCsr .cmd = 0 ∧
    (s.readCsr .ctrl).getLsbD 0 = s.ieDone ∧ (s.readCsr .ctrl).getLsbD 1 = s.ieErr ∧ (s.readCsr .ctrl).extractLsb' 2 30 = 0 ∧
    (s.readCsr .status).getLsbD 0 = s.done ∧ (s.readCsr .status).getLsbD 1 = s.warnDegen ∧
    ((s.readCsr .status).extractLsb' 8 4).toNat = s.err.code ∧
    (s.readCsr .status).extractLsb' 2 6 = 0 ∧ (s.readCsr .status).extractLsb' 12 20 = 0 ∧
    (s.readCsr .qoneRes).extractLsb' 0 8 = s.qoneRes ∧ (s.readCsr .qoneRes).extractLsb' 8 24 = 0 ∧
    (s.readCsr .dAcc).extractLsb' 0 8 = s.acc ∧ (s.readCsr .dAcc).extractLsb' 8 24 = 0 ∧
    (s.readCsr .dPack).extractLsb' 0 7 = s.pend ∧ (s.readCsr .dPack).getLsbD 7 = false ∧
    (s.readCsr .dPack).extractLsb' 8 3 = s.cnt ∧ (s.readCsr .dPack).extractLsb' 11 5 = 0 ∧
    (s.readCsr .dPack).getLsbD 16 = s.lastBit ∧ (s.readCsr .dPack).extractLsb' 17 15 = 0

/-- R132: the interrupt line, from CTRL and STATUS as they read. -/
def Obligations.IrqFollowsItsEquation : Prop :=
  ∀ s : State, s.irq = true ↔
    (s.statusWord.getLsbD 0 = true ∧ s.ctrlWord.getLsbD 0 = true) ∨
    (s.statusWord.extractLsb' 8 4 ≠ 0 ∧ s.ctrlWord.getLsbD 1 = true)

/-- R48, R50: the SRAM window shows a written sample's halves, low half first, and a write changes one half and leaves the other. -/
def Obligations.SampleHalvesReadAndWriteAlone : Prop :=
  ∀ (s : State) (j : Nat) (x : Sample) (rest : List HostMove), s.cfg.wellFormed = true → j < s.cfg.sampleWords →
    Memory.readSample s.sram j = some x →
    (s.accesses (0x100000 + 8 * j) .read rest → step s = .next (s.answered rest (.data (x.extractLsb' 0 32)))) ∧
    (s.accesses (0x100000 + 8 * j + 4) .read rest → step s = .next (s.answered rest (.data (x.extractLsb' 32 32)))) ∧
    (∀ v, s.accesses (0x100000 + 8 * j) (.write v) rest →
      ∃ t, step s = .next t ∧ Memory.readSample t.sram j = some (x.extractLsb' 32 32 ++ v) ∧
        (∀ k, k ≠ j → Memory.readSample t.sram k = Memory.readSample s.sram k) ∧
        t = { s.answered rest .done with sram := t.sram }) ∧
    (∀ v, s.accesses (0x100000 + 8 * j + 4) (.write v) rest →
      ∃ t, step s = .next t ∧ Memory.readSample t.sram j = some (v ++ x.extractLsb' 0 32) ∧
        (∀ k, k ≠ j → Memory.readSample t.sram k = Memory.readSample s.sram k) ∧
        t = { s.answered rest .done with sram := t.sram })

/-- R53, R72: `wsmp` on a sample no byte of which is written: after its first write the sample still counts as unwritten, after its second it is
the sample given; no other byte changes. The byte addresses 8 j + b are the model's (log 8). -/
def Obligations.SampleIsWrittenOnlyByBothHalves : Prop :=
  ∀ (s : State) (j : Nat) (p : Sample) (rest : List HostMove), s.cfg.wellFormed = true → j < s.cfg.sampleWords → s.rst = false →
    (∀ b < 8, Memory.read s.sram (8 * j + b) = none) → s.host = wsmp s.cfg j p ++ rest →
    ∃ t u, step s = .next t ∧ Memory.readSample t.sram j = none ∧ step t = .next u ∧ Memory.readSample u.sram j = some p ∧
      (∀ a, a < 8 * j ∨ 8 * j + 8 ≤ a → Memory.read u.sram a = Memory.read s.sram a) ∧
      u = { s with sram := u.sram, host := rest, replies := .done :: .done :: s.replies }

/-- R48: a BRAM word carries byte k in bits 7:0 up to byte k + 3 in bits 31:24; a write changes all four and nothing else. -/
def Obligations.BramWordsAreLittleEndian : Prop :=
  ∀ (s : State) (k : Nat) (rest : List HostMove), s.cfg.wellFormed = true → k % 4 = 0 → k < s.cfg.byteWords →
    (∀ b0 b1 b2 b3 : Byte, Memory.read s.bram k = some b0 → Memory.read s.bram (k + 1) = some b1 →
      Memory.read s.bram (k + 2) = some b2 → Memory.read s.bram (k + 3) = some b3 →
      s.accesses (0x200000 + k) .read rest → step s = .next (s.answered rest (.data (b3 ++ b2 ++ b1 ++ b0)))) ∧
    (∀ v : Word, s.accesses (0x200000 + k) (.write v) rest →
      ∃ t, step s = .next t ∧ (∀ i < 4, Memory.read t.bram (k + i) = some (v.extractLsb' (8 * i) 8)) ∧
        (∀ a, a < k ∨ k + 4 ≤ a → Memory.read t.bram a = Memory.read s.bram a) ∧
        t = { s.answered rest .done with bram := t.bram })

/-- R50, R53, U5, as log 5 reads them: a host read of the memory windows always completes, whatever is written; it returns some value and
changes nothing. -/
def Obligations.HostReadsOfUnwrittenCellsComplete : Prop :=
  ∀ (s : State) (offset : Nat) (rest : List HostMove), offset % 4 = 0 →
    ((0x100000 ≤ offset ∧ offset < 0x200000 ∧ offset < 0x100000 + 8 * s.cfg.sampleWords) ∨
      (0x200000 ≤ offset ∧ offset < 0x300000 ∧ offset < 0x200000 + s.cfg.byteWords)) →
    s.accesses offset .read rest →
    ∃ v, step s = .next (s.answered rest (.data v))

/-- R141, R142, R143: a reset pulse, which is two moves in this model (log 6), from any state: every register reads its reset value, IRQ is low, the RAM contents and their written marks
are kept. At power-up the registers read the same and no cell is written. -/
def Obligations.ResetPulseRestoresRegistersAndKeepsMemories : Prop :=
  (∀ (s : State) (rest : List HostMove), s.host = resetPulse ++ rest →
    ∃ t u, step s = .next t ∧ t.rst = true ∧ step t = .next u ∧
      (∀ c, u.readCsr c = if c = .id then 0x52570001 else if c = .dAcc then 0x80 else 0) ∧
      u.irq = false ∧ u.sram = s.sram ∧ u.bram = s.bram ∧ u.rst = false ∧ u.cfg = s.cfg ∧ u.host = rest ∧ u.replies = s.replies) ∧
  (∀ c, State.reset.readCsr c = if c = .id then 0x52570001 else if c = .dAcc then 0x80 else 0) ∧
  State.reset.irq = false ∧
  (∀ j, Memory.readSample State.reset.sram j = none) ∧ (∀ k, Memory.read State.reset.bram k = none)

/-! ### Control and whole-machine rules -/

/-- R115: NOP sets DONE and nothing else; its word is never ILLEGAL; while ERR is not 0 it is ignored. -/
def Obligations.NopSetsDoneOnly : Prop :=
  (∀ s : State, exec .nop s = .next { s with done := true }) ∧ decode 0 = .ok .nop ∧
  (∀ (s : State) (rest : List HostMove), s.issues 0 rest → s.err ≠ .none → step s = .next (s.answered rest .done))

/-- R125, R126: a command that ends in an error other than NAN leaves every cell and register as it was, except the error record, which holds the
code, index 0 and the command's word (log 12). -/
def Obligations.CheckedErrorsChangeOnlyTheErrorRecord : Prop :=
  ∀ (i : Instr) (s t : State), s.err = .none → exec i s = .next t → t.err ≠ .none → t.err ≠ .nan →
    t = { s with err := t.err, errIndex := 0, errCmd := encode i }

/-- R25, R130: a command that completes without an error sets DONE; one that ends in an error leaves DONE and WARN_DEGEN unchanged. -/
def Obligations.CompletionSetsDoneAndErrorsLeaveIt : Prop :=
  ∀ (i : Instr) (s t : State), s.err = .none → exec i s = .next t →
    (t.err = .none → t.done = true) ∧ (t.err ≠ .none → t.done = s.done ∧ t.warnDegen = s.warnDegen)

/-- R26, R80, R131: only RESAMPLE and RSLEN in DEGEN mode set WARN_DEGEN; the warning is no error and the command sets DONE. -/
def Obligations.WarnDegenIsSetOnlyInDegenMode : Prop :=
  ∀ (i : Instr) (s t : State), exec i s = .next t → s.warnDegen = false → t.warnDegen = true →
    (i = .resample ∨ i = .rslen) ∧ 2 ≤ s.rsLen.toNat ∧ s.srcRate ≠ s.dstRate ∧
    s.rsLen.toNat * s.dstRate.toNat / s.srcRate.toNat ≤ 1 ∧ t.err = s.err ∧ t.done = true

/-- R128: a STATUS write with ERRCLR set is the return from an error: the record is cleared, nothing is undone, and the next command runs. -/
def Obligations.ErrorReturnLetsTheNextCommandRun : Prop :=
  ∀ (s : State) (v w : Word) (i : Instr) (rest : List HostMove), v.getLsbD 31 = true → decode w = .ok i →
    s.accesses 0x08 (.write v) (cmdWrite s.cfg w :: rest) →
    ∃ t, step s = .next t ∧ t.err = .none ∧ t.errIndex = 0 ∧ t.errCmd = 0 ∧ t.sram = s.sram ∧ t.bram = s.bram ∧
      t.ieDone = s.ieDone ∧ t.ieErr = s.ieErr ∧ step t = exec i (t.answered rest .done)

/-- R153, R154, in the model's form (logs 2, 9): a step performs exactly the host's first move: the others stay, and an access gets exactly one reply. -/
def Obligations.EachStepPerformsOneMove : Prop :=
  ∀ (s t : State) (m : HostMove) (rest : List HostMove), s.host = m :: rest → step s = .next t →
    t.host = rest ∧ t.cfg = s.cfg ∧
    ((∃ level, m = .resetLine level ∧ t.replies = s.replies ∧ t.rst = level) ∨
      (∃ a r, m = .access a ∧ t.replies = r :: s.replies ∧ t.rst = s.rst))

/-- R23, R30, R31, R33, R34, R36: no command writes an operand register or CTRL; only the three commands that can write a packed byte move
D_WPTR (R37). -/
def Obligations.CommandsLeaveOperandRegistersAlone : Prop :=
  ∀ (i : Instr) (s t : State), exec i s = .next t →
    t.cfg = s.cfg ∧ t.ieDone = s.ieDone ∧ t.ieErr = s.ieErr ∧ t.srcRate = s.srcRate ∧ t.dstRate = s.dstRate ∧ t.rsSrc = s.rsSrc ∧
    t.rsDst = s.rsDst ∧ t.rsLen = s.rsLen ∧ t.qSrc = s.qSrc ∧ t.qDst = s.qDst ∧ t.qLen = s.qLen ∧ t.qoneLo = s.qoneLo ∧
    t.qoneHi = s.qoneHi ∧ t.dSrc = s.dSrc ∧ t.dLen = s.dLen ∧ t.rst = s.rst ∧ t.host = s.host ∧ t.replies = s.replies ∧
    (i ≠ .denc → (∀ x, i ≠ .dstep x) → i ≠ .dflush → t.dWptr = s.dWptr)

/-- R46, R47: only RESAMPLE writes SRAM; only QUANT, DENC, DSTEP and DFLUSH write BRAM. -/
def Obligations.OnlyMemoryCommandsWriteMemory : Prop :=
  ∀ (i : Instr) (s t : State), exec i s = .next t →
    (i ≠ .resample → t.sram = s.sram) ∧
    (i ≠ .quant → i ≠ .denc → (∀ x, i ≠ .dstep x) → i ≠ .dflush → t.bram = s.bram)

/-- R38: the accumulator changes only by a reset or by an issued DINIT, DENC or DSTEP; no host write reaches it. -/
def Obligations.AccumulatorChangesOnlyByDpcmCommands : Prop :=
  ∀ s t : State, step s = .next t → t.acc ≠ s.acc →
    (∃ rest, s.host = .resetLine true :: rest) ∨
    (∃ w rest i, s.issues w rest ∧ decode w = .ok i ∧ (i = .dinit ∨ i = .denc ∨ ∃ x, i = .dstep x))

/-- R60: RESAMPLE leaves its source region as it was, and so does DENC. -/
def Obligations.CommandsKeepTheirSourceRegions : Prop :=
  (∀ s t : State, exec .resample s = .next t →
    ∀ j, s.rsSrc.toNat ≤ j → j < s.rsSrc.toNat + s.rsLen.toNat → Memory.readSample t.sram j = Memory.readSample s.sram j) ∧
  (∀ s t : State, s.cfg.wellFormed = true → exec .denc s = .next t →
    ∀ k, s.dSrc.toNat ≤ k → k < s.dSrc.toNat + s.dLen.toNat → Memory.read t.bram k = Memory.read s.bram k)

/-- R140: a step stops only with UNINIT, in an issued RESAMPLE, QUANT or DENC, and no step is refused. -/
def Obligations.StepsStopOnlyWithUninit : Prop :=
  ∀ s : State, (∀ r, step s ≠ .refused r) ∧
    ∀ f, step s = .fault f → ∃ w rest i, s.issues w rest ∧ decode w = .ok i ∧ (i = .resample ∨ i = .quant ∨ i = .denc)

/-- R140: RESAMPLE, QUANT and DENC stop with UNINIT exactly when their checks pass and one of the cells they read is unwritten. -/
def Obligations.UninitExactlyOnUnwrittenReads : Prop :=
  (∀ s : State, (∃ f, exec .resample s = .fault f) ↔
    s.srcRate.toNat ≠ 0 ∧ s.dstRate.toNat ≠ 0 ∧
    s.rsSrc.toNat + s.rsLen.toNat ≤ s.cfg.sampleWords ∧
    s.rsDst.toNat + (rsmode s.rsLen.toNat s.srcRate.toNat s.dstRate.toNat).2 ≤ s.cfg.sampleWords ∧
    overlap s.rsSrc.toNat s.rsLen.toNat s.rsDst.toNat (rsmode s.rsLen.toNat s.srcRate.toNat s.dstRate.toNat).2 = false ∧
    ∃ j, Memory.readSample s.sram (s.rsSrc.toNat + j) = none ∧
      match rsmode s.rsLen.toNat s.srcRate.toNat s.dstRate.toNat with
      | (.copy, len) => j < len
      | (.degen, _) => j = 0
      | (.interp, len) => ∃ i < len, j = i * s.srcRate.toNat / s.dstRate.toNat ∨
          (i * s.srcRate.toNat % s.dstRate.toNat ≠ 0 ∧
            j = min (i * s.srcRate.toNat / s.dstRate.toNat + 1) (s.rsLen.toNat - 1))) ∧
  (∀ s : State, (∃ f, exec .quant s = .fault f) ↔
    s.qSrc.toNat + s.qLen.toNat ≤ s.cfg.sampleWords ∧ s.qDst.toNat + s.qLen.toNat ≤ s.cfg.byteWords ∧
    ∃ j < s.qLen.toNat, Memory.readSample s.sram (s.qSrc.toNat + j) = none ∧
      ∀ i < j, ∃ v, Memory.readSample s.sram (s.qSrc.toNat + i) = some v ∧ isNaN v = false) ∧
  (∀ s : State, s.cfg.wellFormed = true → ((∃ f, exec .denc s = .fault f) ↔
    s.dSrc.toNat + s.dLen.toNat ≤ s.cfg.byteWords ∧
    s.dWptr.toNat + (s.cnt.toNat + s.dLen.toNat) / 8 ≤ s.cfg.byteWords ∧
    overlap s.dSrc.toNat s.dLen.toNat s.dWptr.toNat ((s.cnt.toNat + s.dLen.toNat) / 8) = false ∧
    ∃ j < s.dLen.toNat, Memory.read s.bram (s.dSrc.toNat + j) = none))

/-- Every step keeps the invariant: the parameters' bounds, the memories' canonical form and bounds (R46, R47, R51), the packer's PEND < 2^CNT
(R40), and an error record that R118 allows. The canonical form is the model's (log 8). -/
def Obligations.EveryStepKeepsTheInvariant : Prop := ∀ s t : State, s.Inv → step s = .next t → t.Inv

/-- The state after reset, with the depths of log 1, meets the invariant. -/
def Obligations.ResetMeetsTheInvariant : Prop := State.reset.Inv

/-! ### The resampler -/

/-- R77, R78, R85: RSLEN, for every length and rate. -/
def Obligations.RslenWritesTheOutputLength : Prop :=
  ∀ s : State,
    let n := s.rsLen.toNat
    let src := s.srcRate.toNat
    let dst := s.dstRate.toNat
    let len := if n < 2 ∨ src = dst then n else if n * dst / src ≤ 1 then 1 else n * dst / src
    (src = 0 ∨ dst = 0 → exec .rslen s = .next { s with err := .rate, errIndex := 0, errCmd := 2 }) ∧
    (src ≠ 0 → dst ≠ 0 → 2 ^ 32 ≤ len → exec .rslen s = .next { s with err := .range, errIndex := 0, errCmd := 2 }) ∧
    (src ≠ 0 → dst ≠ 0 → len < 2 ^ 32 → exec .rslen s = .next { s with
      rsOutLen := BitVec.ofNat 32 len
      warnDegen := s.warnDegen || decide (2 ≤ n ∧ src ≠ dst ∧ n * dst / src ≤ 1)
      done := true })

/-- R84, R120, R121, R122, R124: RESAMPLE's checks, in their order, each with its whole effect. -/
def Obligations.ResampleChecksInOrder : Prop :=
  ∀ s : State,
    let len := (rsmode s.rsLen.toNat s.srcRate.toNat s.dstRate.toNat).2
    (s.srcRate = 0 ∨ s.dstRate = 0 → exec .resample s = .next { s with err := .rate, errIndex := 0, errCmd := 1 }) ∧
    (s.srcRate ≠ 0 → s.dstRate ≠ 0 →
      s.cfg.sampleWords < s.rsSrc.toNat + s.rsLen.toNat ∨ s.cfg.sampleWords < s.rsDst.toNat + len →
      exec .resample s = .next { s with err := .range, errIndex := 0, errCmd := 1 }) ∧
    (s.srcRate ≠ 0 → s.dstRate ≠ 0 →
      s.rsSrc.toNat + s.rsLen.toNat ≤ s.cfg.sampleWords → s.rsDst.toNat + len ≤ s.cfg.sampleWords →
      0 < s.rsLen.toNat → 0 < len → s.rsSrc.toNat < s.rsDst.toNat + len → s.rsDst.toNat < s.rsSrc.toNat + s.rsLen.toNat →
      exec .resample s = .next { s with err := .overlap, errIndex := 0, errCmd := 1 })

/-- R79, R84: RESAMPLE in COPY mode. -/
def Obligations.ResampleCopiesWhenRatesAreEqualOrInputIsShort : Prop :=
  ∀ s : State,
    let n := s.rsLen.toNat
    s.srcRate ≠ 0 → s.dstRate ≠ 0 → (n < 2 ∨ s.srcRate = s.dstRate) →
    s.rsSrc.toNat + n ≤ s.cfg.sampleWords → s.rsDst.toNat + n ≤ s.cfg.sampleWords →
    (n = 0 ∨ s.rsSrc.toNat + n ≤ s.rsDst.toNat ∨ s.rsDst.toNat + n ≤ s.rsSrc.toNat) →
    (∀ i < n, ∃ x, Memory.readSample s.sram (s.rsSrc.toNat + i) = some x) →
    ∃ t, exec .resample s = .next t ∧
      (∀ i < n, Memory.readSample t.sram (s.rsDst.toNat + i) = Memory.readSample s.sram (s.rsSrc.toNat + i)) ∧
      (∀ a, a < 8 * s.rsDst.toNat ∨ 8 * (s.rsDst.toNat + n) ≤ a → Memory.read t.sram a = Memory.read s.sram a) ∧
      t = { s with sram := t.sram, rsOutLen := s.rsLen, done := true }

/-- R80, R84: RESAMPLE in DEGEN mode. -/
def Obligations.ResampleDegenWritesTheFirstSampleAndWarns : Prop :=
  ∀ s : State,
    let n := s.rsLen.toNat
    s.srcRate ≠ 0 → s.dstRate ≠ 0 → 2 ≤ n → s.srcRate ≠ s.dstRate → n * s.dstRate.toNat / s.srcRate.toNat ≤ 1 →
    s.rsSrc.toNat + n ≤ s.cfg.sampleWords → s.rsDst.toNat + 1 ≤ s.cfg.sampleWords →
    (s.rsDst.toNat < s.rsSrc.toNat ∨ s.rsSrc.toNat + n ≤ s.rsDst.toNat) →
    ∀ x, Memory.readSample s.sram s.rsSrc.toNat = some x →
    ∃ t, exec .resample s = .next t ∧ Memory.readSample t.sram s.rsDst.toNat = some x ∧
      (∀ a, a < 8 * s.rsDst.toNat ∨ 8 * s.rsDst.toNat + 8 ≤ a → Memory.read t.sram a = Memory.read s.sram a) ∧
      t = { s with sram := t.sram, rsOutLen := 1, warnDegen := true, done := true }

/-- R81, R82, R83, R84: RESAMPLE in INTERP mode: each output is the exact copy at an integer position, and otherwise the interpolated value. A
NaN's pattern is free (log 11), so the value is stated through `unpack`; `fadd`, `fsub`, `fmul` and `fdiv` are R10's (log 4). -/
def Obligations.ResampleInterpolates : Prop :=
  ∀ s : State,
    let n := s.rsLen.toNat
    let src := s.srcRate.toNat
    let dst := s.dstRate.toNat
    let len := n * dst / src
    src ≠ 0 → dst ≠ 0 → 2 ≤ n → src ≠ dst → 1 < len →
    s.rsSrc.toNat + n ≤ s.cfg.sampleWords → s.rsDst.toNat + len ≤ s.cfg.sampleWords →
    (s.rsSrc.toNat + n ≤ s.rsDst.toNat ∨ s.rsDst.toNat + len ≤ s.rsSrc.toNat) →
    (∀ i < len, (∃ x, Memory.readSample s.sram (s.rsSrc.toNat + i * src / dst) = some x) ∧
      (i * src % dst ≠ 0 → ∃ x, Memory.readSample s.sram (s.rsSrc.toNat + min (i * src / dst + 1) (n - 1)) = some x)) →
    ∃ t, exec .resample s = .next t ∧
      (∀ i < len, ∃ x0 y, Memory.readSample s.sram (s.rsSrc.toNat + i * src / dst) = some x0 ∧
        Memory.readSample t.sram (s.rsDst.toNat + i) = some y ∧
        (i * src % dst = 0 → y = x0) ∧
        (i * src % dst ≠ 0 → ∃ x1, Memory.readSample s.sram (s.rsSrc.toNat + min (i * src / dst + 1) (n - 1)) = some x1 ∧
          unpack y = fadd (unpack x0)
            (fmul (fsub (unpack x1) (unpack x0)) (fdiv (i2f (i * src % dst)) (i2f dst))))) ∧
      (∀ a, a < 8 * s.rsDst.toNat ∨ 8 * (s.rsDst.toNat + len) ≤ a → Memory.read t.sram a = Memory.read s.sram a) ∧
      t = { s with sram := t.sram, rsOutLen := BitVec.ofNat 32 len, done := true, draws := t.draws }

/-- R88: the source's laws: the identity at equal rates, the length law, and output element 0. -/
def Obligations.ResampleKeepsTheSourceLaws : Prop :=
  ∀ s t : State, s.cfg.wellFormed = true → s.err = .none → exec .resample s = .next t → t.err = .none →
    (s.srcRate = s.dstRate → t.rsOutLen = s.rsLen ∧ ∀ i < s.rsLen.toNat,
      Memory.readSample t.sram (s.rsDst.toNat + i) = Memory.readSample s.sram (s.rsSrc.toNat + i)) ∧
    (s.srcRate ≠ s.dstRate → 2 ≤ s.rsLen.toNat →
      t.rsOutLen.toNat = max 1 (s.rsLen.toNat * s.dstRate.toNat / s.srcRate.toNat)) ∧
    (1 ≤ s.rsLen.toNat → Memory.readSample t.sram s.rsDst.toNat = Memory.readSample s.sram s.rsSrc.toNat)

/-- R86: in INTERP mode every source position is inside the input. -/
def Obligations.SourcePositionsStayInsideTheInput : Prop :=
  ∀ n src dst i : Nat, 0 < src → 0 < dst → (rsmode n src dst).1 = .interp → i < (rsmode n src dst).2 →
    rsIndex src dst i ≤ n - 1 ∧ rsNext n (rsIndex src dst i) ≤ n - 1 ∧
    (rsNext n (rsIndex src dst i) = rsIndex src dst i → rsIndex src dst i = n - 1)

/-- R87: the interpolation fraction is strictly between 0 and 1. -/
def Obligations.InterpolationFractionIsBetweenZeroAndOne : Prop :=
  ∀ r dst : Nat, 0 < r → r < dst → dst < 2 ^ 32 →
    flt (i2f 0) (fdiv (i2f r) (i2f dst)) = true ∧ flt (fdiv (i2f r) (i2f dst)) (i2f 1) = true

/-! ### The quantizer -/

/-- R95: QUANT on a region with no NaN. -/
def Obligations.QuantWritesOneCodePerSample : Prop :=
  ∀ s : State,
    let n := s.qLen.toNat
    s.qSrc.toNat + n ≤ s.cfg.sampleWords → s.qDst.toNat + n ≤ s.cfg.byteWords →
    (∀ i < n, ∃ x, Memory.readSample s.sram (s.qSrc.toNat + i) = some x ∧ isNaN x = false) →
    ∃ t, exec .quant s = .next t ∧
      (∀ i < n, ∃ x c, Memory.readSample s.sram (s.qSrc.toNat + i) = some x ∧ qcode x = some c ∧
        Memory.read t.bram (s.qDst.toNat + i) = some c) ∧
      (∀ a, a < s.qDst.toNat ∨ s.qDst.toNat + n ≤ a → Memory.read t.bram a = Memory.read s.bram a) ∧
      t = { s with bram := t.bram, done := true }

/-- R95, R121, R123, R126: QUANT's errors: RANGE before any write; NAN at the first NaN element, with exactly the codes before it written. -/
def Obligations.QuantStopsAtTheFirstNaN : Prop :=
  ∀ s : State,
    let n := s.qLen.toNat
    (s.cfg.sampleWords < s.qSrc.toNat + n ∨ s.cfg.byteWords < s.qDst.toNat + n →
      exec .quant s = .next { s with err := .range, errIndex := 0, errCmd := 0x10 }) ∧
    (s.qSrc.toNat + n ≤ s.cfg.sampleWords → s.qDst.toNat + n ≤ s.cfg.byteWords →
      ∀ k < n, (∀ i < k, ∃ x, Memory.readSample s.sram (s.qSrc.toNat + i) = some x ∧ isNaN x = false) →
      (∃ x, Memory.readSample s.sram (s.qSrc.toNat + k) = some x ∧ isNaN x = true) →
      ∃ t, exec .quant s = .next t ∧
        (∀ i < k, ∃ x c, Memory.readSample s.sram (s.qSrc.toNat + i) = some x ∧ qcode x = some c ∧
          Memory.read t.bram (s.qDst.toNat + i) = some c) ∧
        (∀ a, a < s.qDst.toNat ∨ s.qDst.toNat + k ≤ a → Memory.read t.bram a = Memory.read s.bram a) ∧
        t = { s with bram := t.bram, err := .nan, errIndex := BitVec.ofNat 32 k, errCmd := 0x10 })

/-- R34, R35, R96: QONE, for every operand. -/
def Obligations.QoneQuantizesItsOperand : Prop :=
  ∀ s : State,
    (isNaN (s.qoneHi ++ s.qoneLo) = false →
      ∃ c, qcode (s.qoneHi ++ s.qoneLo) = some c ∧ exec .qone s = .next { s with qoneRes := c, done := true }) ∧
    (isNaN (s.qoneHi ++ s.qoneLo) = true → exec .qone s = .next { s with err := .nan, errIndex := 0, errCmd := 0x11 })

/-- R93, R94, R97, R99: a pattern has a code exactly when it is no NaN; the second clamp never changes a value; -1.0, 1.0 and 0.0 have the
codes 0, 255 and 128. -/
def Obligations.EveryNonNaNHasACode : Prop :=
  (∀ x : Sample, isNaN x = true → qcode x = none) ∧
  (∀ x : Sample, isNaN x = false → ∃ neg u c, affine (clampUnit (unpack x)) = .fin neg u ∧
    0 ≤ roundTiesEven neg u ∧ roundTiesEven neg u ≤ 255 ∧ qcode x = some c ∧ (c.toNat : Int) = roundTiesEven neg u) ∧
  qcode 0xBFF0000000000000 = some 0 ∧ qcode 0x3FF0000000000000 = some 255 ∧ qcode 0 = some 128

/-- R98: qcode is monotone. -/
def Obligations.QcodeIsMonotone : Prop :=
  ∀ (x y : Sample) (a b : Byte), isNaN x = false → isNaN y = false → flt (unpack y) (unpack x) = false →
    qcode x = some a → qcode y = some b → a.toNat ≤ b.toNat

/-- R92: the halfway cases the rule lists, and the two ties of R96 and V-Q-T2. -/
def Obligations.TiesGoToTheEvenCode : Prop :=
  roundTiesEven false (oneUnits / 2) = 0 ∧ roundTiesEven false (5 * oneUnits / 2) = 2 ∧
  roundTiesEven false (255 * oneUnits / 2) = 128 ∧ roundTiesEven false (509 * oneUnits / 2) = 254 ∧
  qcode 0x3FEFDFDFDFDFDFDF = some 254 ∧ qcode 0x3FE5555555555556 = some 212

/-! ### The DPCM encoder -/

/-- R105, R144: DINIT, and that reset leaves the encoder as DINIT does. -/
def Obligations.DinitStartsAStream : Prop :=
  (∀ s : State, exec .dinit s = .next { s with acc := 128, pend := 0, cnt := 0, lastBit := false, dBits := 0, done := true }) ∧
  exec .dinit State.reset = .next { State.reset with done := true }

/-- R101, R102, R103, R107: DSTEP in each of its three cases. -/
def Obligations.DstepEmitsOneBit : Prop :=
  ∀ (x : Byte) (s : State),
    let up := decide (s.acc.toNat < x.toNat)
    let acc' : Byte := BitVec.ofNat 8 (if up then min (s.acc.toNat + 1) 255 else s.acc.toNat - 1)
    let pending := 2 * s.pend.toNat + up.toNat
    (s.cnt = 7 → s.cfg.byteWords ≤ s.dWptr.toNat →
      exec (.dstep x) s = .next { s with err := .range, errIndex := 0, errCmd := BitVec.ofNat 32 (256 * x.toNat + 0x22) }) ∧
    (s.cnt ≠ 7 → exec (.dstep x) s = .next { s with
      acc := acc', pend := BitVec.ofNat 7 pending, cnt := s.cnt + 1, lastBit := up, dBits := s.dBits + 1, done := true }) ∧
    (s.cnt = 7 → s.dWptr.toNat < s.cfg.byteWords → ∃ t, exec (.dstep x) s = .next t ∧
      Memory.read t.bram s.dWptr.toNat = some (BitVec.ofNat 8 pending) ∧
      (∀ a, a ≠ s.dWptr.toNat → Memory.read t.bram a = Memory.read s.bram a) ∧
      t = { s with
        acc := acc', bram := t.bram, pend := 0, cnt := 0, lastBit := up, dBits := s.dBits + 1, dWptr := s.dWptr + 1
        done := true })

/-- R104, R108: DFLUSH in each of its three cases. -/
def Obligations.DflushWritesTheLastByte : Prop :=
  ∀ s : State,
    (s.cnt = 0 → exec .dflush s = .next { s with done := true }) ∧
    (s.cnt ≠ 0 → s.cfg.byteWords ≤ s.dWptr.toNat →
      exec .dflush s = .next { s with err := .range, errIndex := 0, errCmd := 0x23 }) ∧
    (s.cnt ≠ 0 → s.dWptr.toNat < s.cfg.byteWords → ∃ t, exec .dflush s = .next t ∧
      Memory.read t.bram s.dWptr.toNat = some (BitVec.ofNat 8 (s.pend.toNat * 2 ^ (8 - s.cnt.toNat))) ∧
      (∀ a, a ≠ s.dWptr.toNat → Memory.read t.bram a = Memory.read s.bram a) ∧
      t = { s with bram := t.bram, pend := 0, cnt := 0, dWptr := s.dWptr + 1, done := true })

/-- R106, R121, R122: DENC's checks, in their order, each with its whole effect. -/
def Obligations.DencChecksInOrder : Prop :=
  ∀ s : State,
    let n := s.dLen.toNat
    let nb := (s.cnt.toNat + n) / 8
    (s.cfg.byteWords < s.dSrc.toNat + n ∨ s.cfg.byteWords < s.dWptr.toNat + nb →
      exec .denc s = .next { s with err := .range, errIndex := 0, errCmd := 0x21 }) ∧
    (s.dSrc.toNat + n ≤ s.cfg.byteWords → s.dWptr.toNat + nb ≤ s.cfg.byteWords → 0 < n → 0 < nb →
      s.dSrc.toNat < s.dWptr.toNat + nb → s.dWptr.toNat < s.dSrc.toNat + n →
      exec .denc s = .next { s with err := .overlap, errIndex := 0, errCmd := 0x21 })

/-- R74, R101, R102, R103, R106: DENC refines the bit stream. The pending bits followed by the bits of the targets stand MSB-first in the bytes
written and, what is left of them, in the packer. -/
def Obligations.DencWritesTheBitStream : Prop :=
  ∀ (s : State) (targets : List Byte),
    let n := s.dLen.toNat
    let nb := (s.cnt.toNat + n) / 8
    let bits := s.pendBits ++ dpcmBits s.acc targets
    s.cfg.wellFormed = true → s.pend.toNat < 2 ^ s.cnt.toNat → targets.length = n →
    (∀ i < n, Memory.read s.bram (s.dSrc.toNat + i) = targets[i]?) →
    s.dSrc.toNat + n ≤ s.cfg.byteWords → s.dWptr.toNat + nb ≤ s.cfg.byteWords →
    (n = 0 ∨ nb = 0 ∨ s.dSrc.toNat + n ≤ s.dWptr.toNat ∨ s.dWptr.toNat + nb ≤ s.dSrc.toNat) →
    ∃ t, exec .denc s = .next t ∧
      (∀ m < 8 * nb, ∃ b, Memory.read t.bram (s.dWptr.toNat + m / 8) = some b ∧ bits[m]? = some (b.getLsbD (7 - m % 8))) ∧
      t.pendBits = bits.drop (8 * nb) ∧ t.pend.toNat < 2 ^ t.cnt.toNat ∧
      (∀ a, a < s.dWptr.toNat ∨ s.dWptr.toNat + nb ≤ a → Memory.read t.bram a = Memory.read s.bram a) ∧
      t = { s with
        acc := dpcmAcc s.acc targets, bram := t.bram, pend := t.pend, cnt := t.cnt
        lastBit := (dpcmBits s.acc targets).getLast?.getD s.lastBit
        dBits := s.dBits + s.dLen, dWptr := s.dWptr + BitVec.ofNat 32 nb, done := true }

/-- R111: encoding in chunks gives what one pass gives, and a DENC of one target is a DSTEP of it. -/
def Obligations.ChunkedEncodingEqualsOnePass : Prop :=
  (∀ (s t : State) (m n : Nat), s.cfg.wellFormed = true → s.err = .none → m + n < 2 ^ 32 →
    exec .denc { s with dLen := BitVec.ofNat 32 (m + n) } = .next t → t.err = .none →
    ∃ u v, exec .denc { s with dLen := BitVec.ofNat 32 m } = .next u ∧ u.err = .none ∧
      exec .denc { u with dSrc := s.dSrc + BitVec.ofNat 32 m, dLen := BitVec.ofNat 32 n } = .next v ∧
      t = { v with dSrc := s.dSrc, dLen := BitVec.ofNat 32 (m + n) }) ∧
  (∀ (s t : State) (x : Byte), s.err = .none → s.dLen = 1 → Memory.read s.bram s.dSrc.toNat = some x →
    exec .denc s = .next t → t.err = .none → exec (.dstep x) s = .next t)

/-- R75, R112: a complete stream DINIT, DENC, DFLUSH of N targets writes exactly ceil(N/8) bytes from the D_WPTR of its start; they hold the N
bits MSB-first, and the rest of the last byte is 0. -/
def Obligations.CompleteStreamWritesCeilBytes : Prop :=
  ∀ (s : State) (targets : List Byte),
    let n := s.dLen.toNat
    let bytes := (n + 7) / 8
    s.cfg.wellFormed = true → targets.length = n →
    (∀ i < n, Memory.read s.bram (s.dSrc.toNat + i) = targets[i]?) →
    s.dSrc.toNat + n ≤ s.cfg.byteWords → s.dWptr.toNat + bytes ≤ s.cfg.byteWords →
    (n / 8 = 0 ∨ s.dSrc.toNat + n ≤ s.dWptr.toNat ∨ s.dWptr.toNat + n / 8 ≤ s.dSrc.toNat) →
    ∃ t u v, exec .dinit s = .next t ∧ exec .denc t = .next u ∧ exec .dflush u = .next v ∧
      v.dWptr.toNat = s.dWptr.toNat + bytes ∧ v.cnt = 0 ∧
      (∀ m < 8 * bytes, ∃ b, Memory.read v.bram (s.dWptr.toNat + m / 8) = some b ∧
        b.getLsbD (7 - m % 8) = ((dpcmBits 128 targets)[m]?).getD false) ∧
      (∀ a, a < s.dWptr.toNat ∨ s.dWptr.toNat + bytes ≤ a → Memory.read v.bram a = Memory.read s.bram a)

/-- R113: a decoder that starts at the encoder's accumulator follows it bit by bit. -/
def Obligations.ReconstructionFollowsTheAccumulator : Prop :=
  ∀ (acc : Byte) (targets : List Byte) (k : Nat),
    ((dpcmBits acc targets).take k).foldl reconstructStep acc.toNat = (dpcmAcc acc (targets.take k)).toNat

/-- R109, R110: a step moves the accumulator by exactly one, except at 0 with target 0. -/
def Obligations.AccumulatorMovesByOne : Prop :=
  ∀ (s : State) (x : Byte),
    ((s.acc = 0 ∧ x = 0) → (s.dstep x).acc = 0) ∧
    (¬(s.acc = 0 ∧ x = 0) →
      (s.dstep x).acc.toNat = s.acc.toNat + 1 ∨ (s.dstep x).acc.toNat + 1 = s.acc.toNat)
end

