-- ==== Sys2Proof/Laws/Encoding.lean ====
section
/-! SUPPORT. A word is its three fields, and every instruction is well formed. -/

namespace Sys2Proof

theorem joinWord_toNat (f : CmdFields) : (joinWord f).toNat = f.rsv.toNat * 65536 + f.imm8.toNat * 256 + f.op.toNat := by
  have h1 := f.op.isLt
  have h2 := f.imm8.isLt
  have e : (f.rsv ++ f.imm8 ++ f.op).toNat = ((f.rsv.toNat <<< 8 ||| f.imm8.toNat) <<< 8) ||| f.op.toNat := by
    rw [BitVec.toNat_append, BitVec.toNat_append]
  rw [joinWord, e, ← Nat.shiftLeft_add_eq_or_of_lt h1, ← Nat.shiftLeft_add_eq_or_of_lt h2]
  simp only [Nat.shiftLeft_eq]
  omega

@[simp] theorem splitWord_joinWord (f : CmdFields) : splitWord (joinWord f) = f := by
  have h := joinWord_toNat f
  have h1 := f.op.isLt
  have h2 := f.imm8.isLt
  obtain ⟨op, imm8, rsv⟩ := f
  simp only [splitWord, CmdFields.mk.injEq]
  dsimp only at h h1 h2
  refine ⟨?_, ?_, ?_⟩ <;> apply BitVec.eq_of_toNat_eq <;>
    rw [BitVec.extractLsb'_toNat, h, Nat.shiftRight_eq_div_pow] <;> omega

@[simp] theorem joinWord_splitWord (w : Word) : joinWord (splitWord w) = w := by
  apply BitVec.eq_of_toNat_eq
  have := w.isLt
  rw [joinWord_toNat]
  simp only [splitWord, BitVec.extractLsb'_toNat, Nat.shiftRight_eq_div_pow]
  omega

theorem splitWord_injective {v w : Word} (h : splitWord v = splitWord w) : v = w := by
  rw [← joinWord_splitWord v, h, joinWord_splitWord]

/-- The type of instructions admits no ill-formed one. -/
theorem Instr.wellFormed_all (i : Instr) : i.wellFormed = true := by cases i <;> rfl

end Sys2Proof
end

