-- ==== Sys2Proof/Laws/Flow.lean ====
section
/-! SUPPORT. What a command's flow and the element loop can do. -/

namespace Sys2Proof.Machine

@[simp] theorem Flow.bind_go (s : State) (k : State → Flow) : (Flow.go s).bind k = k s := rfl
@[simp] theorem Flow.bind_ended (s : State) (k : State → Flow) : (Flow.ended s).bind k = .ended s := rfl
@[simp] theorem Flow.bind_stop (f : Fault) (k : State → Flow) : (Flow.stop f).bind k = .stop f := rfl
@[simp] theorem Flow.outcome_go (s : State) : (Flow.go s).outcome = .next s.complete := rfl
@[simp] theorem Flow.outcome_ended (s : State) : (Flow.ended s).outcome = .next s := rfl
@[simp] theorem Flow.outcome_stop (f : Fault) : (Flow.stop f).outcome = .fault f := rfl

@[simp] theorem Flow.outcome_raiseError (c : ErrCode) (n : Nat) (i : Instr) (s : State) :
    (raiseError c n i s).outcome = .next (s.raise c n (encode i)) := rfl

/-- A flow's outcome is a next state exactly when the command completed or ended in an error. -/
theorem Flow.outcome_eq_next {x : Flow} {t : State} (h : x.outcome = .next t) :
    (∃ s, x = .go s ∧ t = s.complete) ∨ x = .ended t := by
  cases x with
  | go s => exact .inl ⟨s, rfl, by simpa using h.symm⟩
  | ended s => exact .inr (by simpa using h)
  | stop f => simp at h

theorem Flow.outcome_eq_fault {x : Flow} {f : Fault} : x.outcome = .fault f ↔ x = .stop f := by
  cases x <;> simp

theorem Flow.outcome_ne_refused (x : Flow) (r : Refusal) : x.outcome ≠ .refused r := by
  cases x <;> simp [Flow.outcome]

/-- What sequencing can come to. -/
theorem Flow.bind_eq_go {x : Flow} {k : State → Flow} {t : State} (h : x.bind k = .go t) : ∃ s, x = .go s ∧ k s = .go t := by
  cases x with
  | go s => exact ⟨s, rfl, h⟩
  | ended s => simp at h
  | stop f => simp at h

@[simp] theorem forUp_zero (first : Nat) (body : Nat → State → Flow) (s : State) : forUp 0 first body s = .go s := rfl

theorem forUp_succ (count first : Nat) (body : Nat → State → Flow) (s : State) :
    forUp (count + 1) first body s = (body first s).bind (forUp count (first + 1) body) := rfl

/-- Running a loop is running its first part and then the rest. -/
theorem forUp_add (m n first : Nat) (body : Nat → State → Flow) (s : State) :
    forUp (m + n) first body s = (forUp m first body s).bind (forUp n (first + m) body) := by
  induction m generalizing first s with
  | zero => simp
  | succ m ih =>
    rw [show m + 1 + n = (m + n) + 1 by omega, forUp_succ, forUp_succ]
    cases hb : body first s with
    | go t => simp only [Flow.bind_go]; rw [ih, show first + 1 + m = first + (m + 1) by omega]
    | ended t => rfl
    | stop f => rfl

/-- A loop that starts where `P first` holds, and whose turns take `P i` to `P (i + 1)`, comes to one of three ends. -/
theorem forUp_rule {P : Nat → State → Prop} {Ended : Nat → State → Prop} {Stopped : Nat → Fault → Prop}
    {body : Nat → State → Flow} (count first : Nat) (s : State) (start : P first s)
    (turn : ∀ i u, first ≤ i → i < first + count → P i u →
      (∃ v, body i u = .go v ∧ P (i + 1) v) ∨ (∃ v, body i u = .ended v ∧ Ended i v) ∨ (∃ f, body i u = .stop f ∧ Stopped i f)) :
    (∃ t, forUp count first body s = .go t ∧ P (first + count) t) ∨
    (∃ i t, first ≤ i ∧ i < first + count ∧ forUp count first body s = .ended t ∧ Ended i t) ∨
    (∃ i f, first ≤ i ∧ i < first + count ∧ forUp count first body s = .stop f ∧ Stopped i f) := by
  induction count generalizing first s with
  | zero => exact .inl ⟨s, rfl, by simpa using start⟩
  | succ count ih =>
    rw [forUp_succ]
    rcases turn first s (by omega) (by omega) start with ⟨v, hb, hv⟩ | ⟨v, hb, hv⟩ | ⟨f, hb, hf⟩
    · rw [hb, Flow.bind_go]
      rcases ih (first + 1) v hv fun i u h1 h2 => turn i u (by omega) (by omega) with
        ⟨t, h, hP⟩ | ⟨i, t, h1, h2, h, hE⟩ | ⟨i, f, h1, h2, h, hS⟩
      · exact .inl ⟨t, h, by rwa [show first + (count + 1) = first + 1 + count by omega]⟩
      · exact .inr (.inl ⟨i, t, by omega, by omega, h, hE⟩)
      · exact .inr (.inr ⟨i, f, by omega, by omega, h, hS⟩)
    · exact .inr (.inl ⟨first, v, by omega, by omega, by rw [hb, Flow.bind_ended], hv⟩)
    · exact .inr (.inr ⟨first, f, by omega, by omega, by rw [hb, Flow.bind_stop], hf⟩)

/-- A loop whose turns all go on, in the form the completion statements use. -/
theorem forUp_go {P : Nat → State → Prop} {body : Nat → State → Flow} (count : Nat) (s : State) (start : P 0 s)
    (turn : ∀ i u, i < count → P i u → ∃ v, body i u = .go v ∧ P (i + 1) v) :
    ∃ t, forUp count 0 body s = .go t ∧ P count t := by
  rcases forUp_rule (P := P) (Ended := fun _ _ => False) (Stopped := fun _ _ => False) count 0 s start
    (fun i u _ h2 hP => .inl (turn i u (by omega) hP)) with ⟨t, h, hP⟩ | ⟨_, _, _, _, _, h⟩ | ⟨_, _, _, _, _, h⟩
  · exact ⟨t, h, by simpa using hP⟩
  · exact h.elim
  · exact h.elim

/-! ### Reads of cells -/

theorem memReadS_some {j : Nat} {s : State} {v : Sample} (h : Memory.readSample s.sram j = some v) (use : Sample → Flow) :
    memReadS j s use = use v := by simp [memReadS, h]

theorem memReadS_none {j : Nat} {s : State} (h : Memory.readSample s.sram j = none) (use : Sample → Flow) :
    memReadS j s use = .stop (.uninitSample j) := by simp [memReadS, h]

theorem memReadB_some {k : Nat} {s : State} {v : Byte} (h : Memory.read s.bram k = some v) (use : Byte → Flow) :
    memReadB k s use = use v := by simp [memReadB, h]

theorem memReadB_none {k : Nat} {s : State} (h : Memory.read s.bram k = none) (use : Byte → Flow) :
    memReadB k s use = .stop (.uninitByte k) := by simp [memReadB, h]

end Sys2Proof.Machine
end

