-- ==== Sys2Proof/Laws/State.lean ====
section
/-! SUPPORT. One lemma per field per update of State, so that no proof unfolds a record update. -/

namespace Sys2Proof.Machine

/-! ### complete -/

@[simp] theorem State.complete_cfg (s : State) : (s.complete).cfg = s.cfg := rfl
@[simp] theorem State.complete_ieDone (s : State) : (s.complete).ieDone = s.ieDone := rfl
@[simp] theorem State.complete_ieErr (s : State) : (s.complete).ieErr = s.ieErr := rfl
@[simp] theorem State.complete_done (s : State) : (s.complete).done = true := rfl
@[simp] theorem State.complete_warnDegen (s : State) : (s.complete).warnDegen = s.warnDegen := rfl
@[simp] theorem State.complete_err (s : State) : (s.complete).err = s.err := rfl
@[simp] theorem State.complete_errIndex (s : State) : (s.complete).errIndex = s.errIndex := rfl
@[simp] theorem State.complete_errCmd (s : State) : (s.complete).errCmd = s.errCmd := rfl
@[simp] theorem State.complete_srcRate (s : State) : (s.complete).srcRate = s.srcRate := rfl
@[simp] theorem State.complete_dstRate (s : State) : (s.complete).dstRate = s.dstRate := rfl
@[simp] theorem State.complete_rsSrc (s : State) : (s.complete).rsSrc = s.rsSrc := rfl
@[simp] theorem State.complete_rsDst (s : State) : (s.complete).rsDst = s.rsDst := rfl
@[simp] theorem State.complete_rsLen (s : State) : (s.complete).rsLen = s.rsLen := rfl
@[simp] theorem State.complete_rsOutLen (s : State) : (s.complete).rsOutLen = s.rsOutLen := rfl
@[simp] theorem State.complete_qSrc (s : State) : (s.complete).qSrc = s.qSrc := rfl
@[simp] theorem State.complete_qDst (s : State) : (s.complete).qDst = s.qDst := rfl
@[simp] theorem State.complete_qLen (s : State) : (s.complete).qLen = s.qLen := rfl
@[simp] theorem State.complete_qoneLo (s : State) : (s.complete).qoneLo = s.qoneLo := rfl
@[simp] theorem State.complete_qoneHi (s : State) : (s.complete).qoneHi = s.qoneHi := rfl
@[simp] theorem State.complete_qoneRes (s : State) : (s.complete).qoneRes = s.qoneRes := rfl
@[simp] theorem State.complete_dSrc (s : State) : (s.complete).dSrc = s.dSrc := rfl
@[simp] theorem State.complete_dLen (s : State) : (s.complete).dLen = s.dLen := rfl
@[simp] theorem State.complete_dWptr (s : State) : (s.complete).dWptr = s.dWptr := rfl
@[simp] theorem State.complete_acc (s : State) : (s.complete).acc = s.acc := rfl
@[simp] theorem State.complete_pend (s : State) : (s.complete).pend = s.pend := rfl
@[simp] theorem State.complete_cnt (s : State) : (s.complete).cnt = s.cnt := rfl
@[simp] theorem State.complete_lastBit (s : State) : (s.complete).lastBit = s.lastBit := rfl
@[simp] theorem State.complete_dBits (s : State) : (s.complete).dBits = s.dBits := rfl
@[simp] theorem State.complete_sram (s : State) : (s.complete).sram = s.sram := rfl
@[simp] theorem State.complete_bram (s : State) : (s.complete).bram = s.bram := rfl
@[simp] theorem State.complete_rst (s : State) : (s.complete).rst = s.rst := rfl
@[simp] theorem State.complete_host (s : State) : (s.complete).host = s.host := rfl
@[simp] theorem State.complete_replies (s : State) : (s.complete).replies = s.replies := rfl
@[simp] theorem State.complete_draws (s : State) : (s.complete).draws = s.draws := rfl

/-! ### raise -/

@[simp] theorem State.raise_cfg (s : State) (c : ErrCode) (n : Nat) (w : Word) : (s.raise c n w).cfg = s.cfg := rfl
@[simp] theorem State.raise_ieDone (s : State) (c : ErrCode) (n : Nat) (w : Word) : (s.raise c n w).ieDone = s.ieDone := rfl
@[simp] theorem State.raise_ieErr (s : State) (c : ErrCode) (n : Nat) (w : Word) : (s.raise c n w).ieErr = s.ieErr := rfl
@[simp] theorem State.raise_done (s : State) (c : ErrCode) (n : Nat) (w : Word) : (s.raise c n w).done = s.done := rfl
@[simp] theorem State.raise_warnDegen (s : State) (c : ErrCode) (n : Nat) (w : Word) : (s.raise c n w).warnDegen = s.warnDegen := rfl
@[simp] theorem State.raise_err (s : State) (c : ErrCode) (n : Nat) (w : Word) : (s.raise c n w).err = c := rfl
@[simp] theorem State.raise_errIndex (s : State) (c : ErrCode) (n : Nat) (w : Word) : (s.raise c n w).errIndex = BitVec.ofNat 32 n := rfl
@[simp] theorem State.raise_errCmd (s : State) (c : ErrCode) (n : Nat) (w : Word) : (s.raise c n w).errCmd = w := rfl
@[simp] theorem State.raise_srcRate (s : State) (c : ErrCode) (n : Nat) (w : Word) : (s.raise c n w).srcRate = s.srcRate := rfl
@[simp] theorem State.raise_dstRate (s : State) (c : ErrCode) (n : Nat) (w : Word) : (s.raise c n w).dstRate = s.dstRate := rfl
@[simp] theorem State.raise_rsSrc (s : State) (c : ErrCode) (n : Nat) (w : Word) : (s.raise c n w).rsSrc = s.rsSrc := rfl
@[simp] theorem State.raise_rsDst (s : State) (c : ErrCode) (n : Nat) (w : Word) : (s.raise c n w).rsDst = s.rsDst := rfl
@[simp] theorem State.raise_rsLen (s : State) (c : ErrCode) (n : Nat) (w : Word) : (s.raise c n w).rsLen = s.rsLen := rfl
@[simp] theorem State.raise_rsOutLen (s : State) (c : ErrCode) (n : Nat) (w : Word) : (s.raise c n w).rsOutLen = s.rsOutLen := rfl
@[simp] theorem State.raise_qSrc (s : State) (c : ErrCode) (n : Nat) (w : Word) : (s.raise c n w).qSrc = s.qSrc := rfl
@[simp] theorem State.raise_qDst (s : State) (c : ErrCode) (n : Nat) (w : Word) : (s.raise c n w).qDst = s.qDst := rfl
@[simp] theorem State.raise_qLen (s : State) (c : ErrCode) (n : Nat) (w : Word) : (s.raise c n w).qLen = s.qLen := rfl
@[simp] theorem State.raise_qoneLo (s : State) (c : ErrCode) (n : Nat) (w : Word) : (s.raise c n w).qoneLo = s.qoneLo := rfl
@[simp] theorem State.raise_qoneHi (s : State) (c : ErrCode) (n : Nat) (w : Word) : (s.raise c n w).qoneHi = s.qoneHi := rfl
@[simp] theorem State.raise_qoneRes (s : State) (c : ErrCode) (n : Nat) (w : Word) : (s.raise c n w).qoneRes = s.qoneRes := rfl
@[simp] theorem State.raise_dSrc (s : State) (c : ErrCode) (n : Nat) (w : Word) : (s.raise c n w).dSrc = s.dSrc := rfl
@[simp] theorem State.raise_dLen (s : State) (c : ErrCode) (n : Nat) (w : Word) : (s.raise c n w).dLen = s.dLen := rfl
@[simp] theorem State.raise_dWptr (s : State) (c : ErrCode) (n : Nat) (w : Word) : (s.raise c n w).dWptr = s.dWptr := rfl
@[simp] theorem State.raise_acc (s : State) (c : ErrCode) (n : Nat) (w : Word) : (s.raise c n w).acc = s.acc := rfl
@[simp] theorem State.raise_pend (s : State) (c : ErrCode) (n : Nat) (w : Word) : (s.raise c n w).pend = s.pend := rfl
@[simp] theorem State.raise_cnt (s : State) (c : ErrCode) (n : Nat) (w : Word) : (s.raise c n w).cnt = s.cnt := rfl
@[simp] theorem State.raise_lastBit (s : State) (c : ErrCode) (n : Nat) (w : Word) : (s.raise c n w).lastBit = s.lastBit := rfl
@[simp] theorem State.raise_dBits (s : State) (c : ErrCode) (n : Nat) (w : Word) : (s.raise c n w).dBits = s.dBits := rfl
@[simp] theorem State.raise_sram (s : State) (c : ErrCode) (n : Nat) (w : Word) : (s.raise c n w).sram = s.sram := rfl
@[simp] theorem State.raise_bram (s : State) (c : ErrCode) (n : Nat) (w : Word) : (s.raise c n w).bram = s.bram := rfl
@[simp] theorem State.raise_rst (s : State) (c : ErrCode) (n : Nat) (w : Word) : (s.raise c n w).rst = s.rst := rfl
@[simp] theorem State.raise_host (s : State) (c : ErrCode) (n : Nat) (w : Word) : (s.raise c n w).host = s.host := rfl
@[simp] theorem State.raise_replies (s : State) (c : ErrCode) (n : Nat) (w : Word) : (s.raise c n w).replies = s.replies := rfl
@[simp] theorem State.raise_draws (s : State) (c : ErrCode) (n : Nat) (w : Word) : (s.raise c n w).draws = s.draws := rfl

/-! ### clearError -/

@[simp] theorem State.clearError_cfg (s : State) : (s.clearError).cfg = s.cfg := rfl
@[simp] theorem State.clearError_ieDone (s : State) : (s.clearError).ieDone = s.ieDone := rfl
@[simp] theorem State.clearError_ieErr (s : State) : (s.clearError).ieErr = s.ieErr := rfl
@[simp] theorem State.clearError_done (s : State) : (s.clearError).done = s.done := rfl
@[simp] theorem State.clearError_warnDegen (s : State) : (s.clearError).warnDegen = s.warnDegen := rfl
@[simp] theorem State.clearError_err (s : State) : (s.clearError).err = .none := rfl
@[simp] theorem State.clearError_errIndex (s : State) : (s.clearError).errIndex = 0 := rfl
@[simp] theorem State.clearError_errCmd (s : State) : (s.clearError).errCmd = 0 := rfl
@[simp] theorem State.clearError_srcRate (s : State) : (s.clearError).srcRate = s.srcRate := rfl
@[simp] theorem State.clearError_dstRate (s : State) : (s.clearError).dstRate = s.dstRate := rfl
@[simp] theorem State.clearError_rsSrc (s : State) : (s.clearError).rsSrc = s.rsSrc := rfl
@[simp] theorem State.clearError_rsDst (s : State) : (s.clearError).rsDst = s.rsDst := rfl
@[simp] theorem State.clearError_rsLen (s : State) : (s.clearError).rsLen = s.rsLen := rfl
@[simp] theorem State.clearError_rsOutLen (s : State) : (s.clearError).rsOutLen = s.rsOutLen := rfl
@[simp] theorem State.clearError_qSrc (s : State) : (s.clearError).qSrc = s.qSrc := rfl
@[simp] theorem State.clearError_qDst (s : State) : (s.clearError).qDst = s.qDst := rfl
@[simp] theorem State.clearError_qLen (s : State) : (s.clearError).qLen = s.qLen := rfl
@[simp] theorem State.clearError_qoneLo (s : State) : (s.clearError).qoneLo = s.qoneLo := rfl
@[simp] theorem State.clearError_qoneHi (s : State) : (s.clearError).qoneHi = s.qoneHi := rfl
@[simp] theorem State.clearError_qoneRes (s : State) : (s.clearError).qoneRes = s.qoneRes := rfl
@[simp] theorem State.clearError_dSrc (s : State) : (s.clearError).dSrc = s.dSrc := rfl
@[simp] theorem State.clearError_dLen (s : State) : (s.clearError).dLen = s.dLen := rfl
@[simp] theorem State.clearError_dWptr (s : State) : (s.clearError).dWptr = s.dWptr := rfl
@[simp] theorem State.clearError_acc (s : State) : (s.clearError).acc = s.acc := rfl
@[simp] theorem State.clearError_pend (s : State) : (s.clearError).pend = s.pend := rfl
@[simp] theorem State.clearError_cnt (s : State) : (s.clearError).cnt = s.cnt := rfl
@[simp] theorem State.clearError_lastBit (s : State) : (s.clearError).lastBit = s.lastBit := rfl
@[simp] theorem State.clearError_dBits (s : State) : (s.clearError).dBits = s.dBits := rfl
@[simp] theorem State.clearError_sram (s : State) : (s.clearError).sram = s.sram := rfl
@[simp] theorem State.clearError_bram (s : State) : (s.clearError).bram = s.bram := rfl
@[simp] theorem State.clearError_rst (s : State) : (s.clearError).rst = s.rst := rfl
@[simp] theorem State.clearError_host (s : State) : (s.clearError).host = s.host := rfl
@[simp] theorem State.clearError_replies (s : State) : (s.clearError).replies = s.replies := rfl
@[simp] theorem State.clearError_draws (s : State) : (s.clearError).draws = s.draws := rfl

/-! ### memWriteS -/

@[simp] theorem State.memWriteS_cfg (s : State) (j : Nat) (v : Sample) : (s.memWriteS j v).cfg = s.cfg := rfl
@[simp] theorem State.memWriteS_ieDone (s : State) (j : Nat) (v : Sample) : (s.memWriteS j v).ieDone = s.ieDone := rfl
@[simp] theorem State.memWriteS_ieErr (s : State) (j : Nat) (v : Sample) : (s.memWriteS j v).ieErr = s.ieErr := rfl
@[simp] theorem State.memWriteS_done (s : State) (j : Nat) (v : Sample) : (s.memWriteS j v).done = s.done := rfl
@[simp] theorem State.memWriteS_warnDegen (s : State) (j : Nat) (v : Sample) : (s.memWriteS j v).warnDegen = s.warnDegen := rfl
@[simp] theorem State.memWriteS_err (s : State) (j : Nat) (v : Sample) : (s.memWriteS j v).err = s.err := rfl
@[simp] theorem State.memWriteS_errIndex (s : State) (j : Nat) (v : Sample) : (s.memWriteS j v).errIndex = s.errIndex := rfl
@[simp] theorem State.memWriteS_errCmd (s : State) (j : Nat) (v : Sample) : (s.memWriteS j v).errCmd = s.errCmd := rfl
@[simp] theorem State.memWriteS_srcRate (s : State) (j : Nat) (v : Sample) : (s.memWriteS j v).srcRate = s.srcRate := rfl
@[simp] theorem State.memWriteS_dstRate (s : State) (j : Nat) (v : Sample) : (s.memWriteS j v).dstRate = s.dstRate := rfl
@[simp] theorem State.memWriteS_rsSrc (s : State) (j : Nat) (v : Sample) : (s.memWriteS j v).rsSrc = s.rsSrc := rfl
@[simp] theorem State.memWriteS_rsDst (s : State) (j : Nat) (v : Sample) : (s.memWriteS j v).rsDst = s.rsDst := rfl
@[simp] theorem State.memWriteS_rsLen (s : State) (j : Nat) (v : Sample) : (s.memWriteS j v).rsLen = s.rsLen := rfl
@[simp] theorem State.memWriteS_rsOutLen (s : State) (j : Nat) (v : Sample) : (s.memWriteS j v).rsOutLen = s.rsOutLen := rfl
@[simp] theorem State.memWriteS_qSrc (s : State) (j : Nat) (v : Sample) : (s.memWriteS j v).qSrc = s.qSrc := rfl
@[simp] theorem State.memWriteS_qDst (s : State) (j : Nat) (v : Sample) : (s.memWriteS j v).qDst = s.qDst := rfl
@[simp] theorem State.memWriteS_qLen (s : State) (j : Nat) (v : Sample) : (s.memWriteS j v).qLen = s.qLen := rfl
@[simp] theorem State.memWriteS_qoneLo (s : State) (j : Nat) (v : Sample) : (s.memWriteS j v).qoneLo = s.qoneLo := rfl
@[simp] theorem State.memWriteS_qoneHi (s : State) (j : Nat) (v : Sample) : (s.memWriteS j v).qoneHi = s.qoneHi := rfl
@[simp] theorem State.memWriteS_qoneRes (s : State) (j : Nat) (v : Sample) : (s.memWriteS j v).qoneRes = s.qoneRes := rfl
@[simp] theorem State.memWriteS_dSrc (s : State) (j : Nat) (v : Sample) : (s.memWriteS j v).dSrc = s.dSrc := rfl
@[simp] theorem State.memWriteS_dLen (s : State) (j : Nat) (v : Sample) : (s.memWriteS j v).dLen = s.dLen := rfl
@[simp] theorem State.memWriteS_dWptr (s : State) (j : Nat) (v : Sample) : (s.memWriteS j v).dWptr = s.dWptr := rfl
@[simp] theorem State.memWriteS_acc (s : State) (j : Nat) (v : Sample) : (s.memWriteS j v).acc = s.acc := rfl
@[simp] theorem State.memWriteS_pend (s : State) (j : Nat) (v : Sample) : (s.memWriteS j v).pend = s.pend := rfl
@[simp] theorem State.memWriteS_cnt (s : State) (j : Nat) (v : Sample) : (s.memWriteS j v).cnt = s.cnt := rfl
@[simp] theorem State.memWriteS_lastBit (s : State) (j : Nat) (v : Sample) : (s.memWriteS j v).lastBit = s.lastBit := rfl
@[simp] theorem State.memWriteS_dBits (s : State) (j : Nat) (v : Sample) : (s.memWriteS j v).dBits = s.dBits := rfl
@[simp] theorem State.memWriteS_sram (s : State) (j : Nat) (v : Sample) : (s.memWriteS j v).sram = Memory.writeSample s.sram j v := rfl
@[simp] theorem State.memWriteS_bram (s : State) (j : Nat) (v : Sample) : (s.memWriteS j v).bram = s.bram := rfl
@[simp] theorem State.memWriteS_rst (s : State) (j : Nat) (v : Sample) : (s.memWriteS j v).rst = s.rst := rfl
@[simp] theorem State.memWriteS_host (s : State) (j : Nat) (v : Sample) : (s.memWriteS j v).host = s.host := rfl
@[simp] theorem State.memWriteS_replies (s : State) (j : Nat) (v : Sample) : (s.memWriteS j v).replies = s.replies := rfl
@[simp] theorem State.memWriteS_draws (s : State) (j : Nat) (v : Sample) : (s.memWriteS j v).draws = s.draws := rfl

/-! ### memWriteB -/

@[simp] theorem State.memWriteB_cfg (s : State) (k : Nat) (v : Byte) : (s.memWriteB k v).cfg = s.cfg := rfl
@[simp] theorem State.memWriteB_ieDone (s : State) (k : Nat) (v : Byte) : (s.memWriteB k v).ieDone = s.ieDone := rfl
@[simp] theorem State.memWriteB_ieErr (s : State) (k : Nat) (v : Byte) : (s.memWriteB k v).ieErr = s.ieErr := rfl
@[simp] theorem State.memWriteB_done (s : State) (k : Nat) (v : Byte) : (s.memWriteB k v).done = s.done := rfl
@[simp] theorem State.memWriteB_warnDegen (s : State) (k : Nat) (v : Byte) : (s.memWriteB k v).warnDegen = s.warnDegen := rfl
@[simp] theorem State.memWriteB_err (s : State) (k : Nat) (v : Byte) : (s.memWriteB k v).err = s.err := rfl
@[simp] theorem State.memWriteB_errIndex (s : State) (k : Nat) (v : Byte) : (s.memWriteB k v).errIndex = s.errIndex := rfl
@[simp] theorem State.memWriteB_errCmd (s : State) (k : Nat) (v : Byte) : (s.memWriteB k v).errCmd = s.errCmd := rfl
@[simp] theorem State.memWriteB_srcRate (s : State) (k : Nat) (v : Byte) : (s.memWriteB k v).srcRate = s.srcRate := rfl
@[simp] theorem State.memWriteB_dstRate (s : State) (k : Nat) (v : Byte) : (s.memWriteB k v).dstRate = s.dstRate := rfl
@[simp] theorem State.memWriteB_rsSrc (s : State) (k : Nat) (v : Byte) : (s.memWriteB k v).rsSrc = s.rsSrc := rfl
@[simp] theorem State.memWriteB_rsDst (s : State) (k : Nat) (v : Byte) : (s.memWriteB k v).rsDst = s.rsDst := rfl
@[simp] theorem State.memWriteB_rsLen (s : State) (k : Nat) (v : Byte) : (s.memWriteB k v).rsLen = s.rsLen := rfl
@[simp] theorem State.memWriteB_rsOutLen (s : State) (k : Nat) (v : Byte) : (s.memWriteB k v).rsOutLen = s.rsOutLen := rfl
@[simp] theorem State.memWriteB_qSrc (s : State) (k : Nat) (v : Byte) : (s.memWriteB k v).qSrc = s.qSrc := rfl
@[simp] theorem State.memWriteB_qDst (s : State) (k : Nat) (v : Byte) : (s.memWriteB k v).qDst = s.qDst := rfl
@[simp] theorem State.memWriteB_qLen (s : State) (k : Nat) (v : Byte) : (s.memWriteB k v).qLen = s.qLen := rfl
@[simp] theorem State.memWriteB_qoneLo (s : State) (k : Nat) (v : Byte) : (s.memWriteB k v).qoneLo = s.qoneLo := rfl
@[simp] theorem State.memWriteB_qoneHi (s : State) (k : Nat) (v : Byte) : (s.memWriteB k v).qoneHi = s.qoneHi := rfl
@[simp] theorem State.memWriteB_qoneRes (s : State) (k : Nat) (v : Byte) : (s.memWriteB k v).qoneRes = s.qoneRes := rfl
@[simp] theorem State.memWriteB_dSrc (s : State) (k : Nat) (v : Byte) : (s.memWriteB k v).dSrc = s.dSrc := rfl
@[simp] theorem State.memWriteB_dLen (s : State) (k : Nat) (v : Byte) : (s.memWriteB k v).dLen = s.dLen := rfl
@[simp] theorem State.memWriteB_dWptr (s : State) (k : Nat) (v : Byte) : (s.memWriteB k v).dWptr = s.dWptr := rfl
@[simp] theorem State.memWriteB_acc (s : State) (k : Nat) (v : Byte) : (s.memWriteB k v).acc = s.acc := rfl
@[simp] theorem State.memWriteB_pend (s : State) (k : Nat) (v : Byte) : (s.memWriteB k v).pend = s.pend := rfl
@[simp] theorem State.memWriteB_cnt (s : State) (k : Nat) (v : Byte) : (s.memWriteB k v).cnt = s.cnt := rfl
@[simp] theorem State.memWriteB_lastBit (s : State) (k : Nat) (v : Byte) : (s.memWriteB k v).lastBit = s.lastBit := rfl
@[simp] theorem State.memWriteB_dBits (s : State) (k : Nat) (v : Byte) : (s.memWriteB k v).dBits = s.dBits := rfl
@[simp] theorem State.memWriteB_sram (s : State) (k : Nat) (v : Byte) : (s.memWriteB k v).sram = s.sram := rfl
@[simp] theorem State.memWriteB_bram (s : State) (k : Nat) (v : Byte) : (s.memWriteB k v).bram = Memory.write s.bram k v := rfl
@[simp] theorem State.memWriteB_rst (s : State) (k : Nat) (v : Byte) : (s.memWriteB k v).rst = s.rst := rfl
@[simp] theorem State.memWriteB_host (s : State) (k : Nat) (v : Byte) : (s.memWriteB k v).host = s.host := rfl
@[simp] theorem State.memWriteB_replies (s : State) (k : Nat) (v : Byte) : (s.memWriteB k v).replies = s.replies := rfl
@[simp] theorem State.memWriteB_draws (s : State) (k : Nat) (v : Byte) : (s.memWriteB k v).draws = s.draws := rfl

/-! ### reply -/

@[simp] theorem State.reply_cfg (s : State) (r : Reply) : (s.reply r).cfg = s.cfg := rfl
@[simp] theorem State.reply_ieDone (s : State) (r : Reply) : (s.reply r).ieDone = s.ieDone := rfl
@[simp] theorem State.reply_ieErr (s : State) (r : Reply) : (s.reply r).ieErr = s.ieErr := rfl
@[simp] theorem State.reply_done (s : State) (r : Reply) : (s.reply r).done = s.done := rfl
@[simp] theorem State.reply_warnDegen (s : State) (r : Reply) : (s.reply r).warnDegen = s.warnDegen := rfl
@[simp] theorem State.reply_err (s : State) (r : Reply) : (s.reply r).err = s.err := rfl
@[simp] theorem State.reply_errIndex (s : State) (r : Reply) : (s.reply r).errIndex = s.errIndex := rfl
@[simp] theorem State.reply_errCmd (s : State) (r : Reply) : (s.reply r).errCmd = s.errCmd := rfl
@[simp] theorem State.reply_srcRate (s : State) (r : Reply) : (s.reply r).srcRate = s.srcRate := rfl
@[simp] theorem State.reply_dstRate (s : State) (r : Reply) : (s.reply r).dstRate = s.dstRate := rfl
@[simp] theorem State.reply_rsSrc (s : State) (r : Reply) : (s.reply r).rsSrc = s.rsSrc := rfl
@[simp] theorem State.reply_rsDst (s : State) (r : Reply) : (s.reply r).rsDst = s.rsDst := rfl
@[simp] theorem State.reply_rsLen (s : State) (r : Reply) : (s.reply r).rsLen = s.rsLen := rfl
@[simp] theorem State.reply_rsOutLen (s : State) (r : Reply) : (s.reply r).rsOutLen = s.rsOutLen := rfl
@[simp] theorem State.reply_qSrc (s : State) (r : Reply) : (s.reply r).qSrc = s.qSrc := rfl
@[simp] theorem State.reply_qDst (s : State) (r : Reply) : (s.reply r).qDst = s.qDst := rfl
@[simp] theorem State.reply_qLen (s : State) (r : Reply) : (s.reply r).qLen = s.qLen := rfl
@[simp] theorem State.reply_qoneLo (s : State) (r : Reply) : (s.reply r).qoneLo = s.qoneLo := rfl
@[simp] theorem State.reply_qoneHi (s : State) (r : Reply) : (s.reply r).qoneHi = s.qoneHi := rfl
@[simp] theorem State.reply_qoneRes (s : State) (r : Reply) : (s.reply r).qoneRes = s.qoneRes := rfl
@[simp] theorem State.reply_dSrc (s : State) (r : Reply) : (s.reply r).dSrc = s.dSrc := rfl
@[simp] theorem State.reply_dLen (s : State) (r : Reply) : (s.reply r).dLen = s.dLen := rfl
@[simp] theorem State.reply_dWptr (s : State) (r : Reply) : (s.reply r).dWptr = s.dWptr := rfl
@[simp] theorem State.reply_acc (s : State) (r : Reply) : (s.reply r).acc = s.acc := rfl
@[simp] theorem State.reply_pend (s : State) (r : Reply) : (s.reply r).pend = s.pend := rfl
@[simp] theorem State.reply_cnt (s : State) (r : Reply) : (s.reply r).cnt = s.cnt := rfl
@[simp] theorem State.reply_lastBit (s : State) (r : Reply) : (s.reply r).lastBit = s.lastBit := rfl
@[simp] theorem State.reply_dBits (s : State) (r : Reply) : (s.reply r).dBits = s.dBits := rfl
@[simp] theorem State.reply_sram (s : State) (r : Reply) : (s.reply r).sram = s.sram := rfl
@[simp] theorem State.reply_bram (s : State) (r : Reply) : (s.reply r).bram = s.bram := rfl
@[simp] theorem State.reply_rst (s : State) (r : Reply) : (s.reply r).rst = s.rst := rfl
@[simp] theorem State.reply_host (s : State) (r : Reply) : (s.reply r).host = s.host := rfl
@[simp] theorem State.reply_replies (s : State) (r : Reply) : (s.reply r).replies = r :: s.replies := rfl
@[simp] theorem State.reply_draws (s : State) (r : Reply) : (s.reply r).draws = s.draws := rfl

/-! ### withHost -/

@[simp] theorem State.withHost_cfg (s : State) (m : List HostMove) : (s.withHost m).cfg = s.cfg := rfl
@[simp] theorem State.withHost_ieDone (s : State) (m : List HostMove) : (s.withHost m).ieDone = s.ieDone := rfl
@[simp] theorem State.withHost_ieErr (s : State) (m : List HostMove) : (s.withHost m).ieErr = s.ieErr := rfl
@[simp] theorem State.withHost_done (s : State) (m : List HostMove) : (s.withHost m).done = s.done := rfl
@[simp] theorem State.withHost_warnDegen (s : State) (m : List HostMove) : (s.withHost m).warnDegen = s.warnDegen := rfl
@[simp] theorem State.withHost_err (s : State) (m : List HostMove) : (s.withHost m).err = s.err := rfl
@[simp] theorem State.withHost_errIndex (s : State) (m : List HostMove) : (s.withHost m).errIndex = s.errIndex := rfl
@[simp] theorem State.withHost_errCmd (s : State) (m : List HostMove) : (s.withHost m).errCmd = s.errCmd := rfl
@[simp] theorem State.withHost_srcRate (s : State) (m : List HostMove) : (s.withHost m).srcRate = s.srcRate := rfl
@[simp] theorem State.withHost_dstRate (s : State) (m : List HostMove) : (s.withHost m).dstRate = s.dstRate := rfl
@[simp] theorem State.withHost_rsSrc (s : State) (m : List HostMove) : (s.withHost m).rsSrc = s.rsSrc := rfl
@[simp] theorem State.withHost_rsDst (s : State) (m : List HostMove) : (s.withHost m).rsDst = s.rsDst := rfl
@[simp] theorem State.withHost_rsLen (s : State) (m : List HostMove) : (s.withHost m).rsLen = s.rsLen := rfl
@[simp] theorem State.withHost_rsOutLen (s : State) (m : List HostMove) : (s.withHost m).rsOutLen = s.rsOutLen := rfl
@[simp] theorem State.withHost_qSrc (s : State) (m : List HostMove) : (s.withHost m).qSrc = s.qSrc := rfl
@[simp] theorem State.withHost_qDst (s : State) (m : List HostMove) : (s.withHost m).qDst = s.qDst := rfl
@[simp] theorem State.withHost_qLen (s : State) (m : List HostMove) : (s.withHost m).qLen = s.qLen := rfl
@[simp] theorem State.withHost_qoneLo (s : State) (m : List HostMove) : (s.withHost m).qoneLo = s.qoneLo := rfl
@[simp] theorem State.withHost_qoneHi (s : State) (m : List HostMove) : (s.withHost m).qoneHi = s.qoneHi := rfl
@[simp] theorem State.withHost_qoneRes (s : State) (m : List HostMove) : (s.withHost m).qoneRes = s.qoneRes := rfl
@[simp] theorem State.withHost_dSrc (s : State) (m : List HostMove) : (s.withHost m).dSrc = s.dSrc := rfl
@[simp] theorem State.withHost_dLen (s : State) (m : List HostMove) : (s.withHost m).dLen = s.dLen := rfl
@[simp] theorem State.withHost_dWptr (s : State) (m : List HostMove) : (s.withHost m).dWptr = s.dWptr := rfl
@[simp] theorem State.withHost_acc (s : State) (m : List HostMove) : (s.withHost m).acc = s.acc := rfl
@[simp] theorem State.withHost_pend (s : State) (m : List HostMove) : (s.withHost m).pend = s.pend := rfl
@[simp] theorem State.withHost_cnt (s : State) (m : List HostMove) : (s.withHost m).cnt = s.cnt := rfl
@[simp] theorem State.withHost_lastBit (s : State) (m : List HostMove) : (s.withHost m).lastBit = s.lastBit := rfl
@[simp] theorem State.withHost_dBits (s : State) (m : List HostMove) : (s.withHost m).dBits = s.dBits := rfl
@[simp] theorem State.withHost_sram (s : State) (m : List HostMove) : (s.withHost m).sram = s.sram := rfl
@[simp] theorem State.withHost_bram (s : State) (m : List HostMove) : (s.withHost m).bram = s.bram := rfl
@[simp] theorem State.withHost_rst (s : State) (m : List HostMove) : (s.withHost m).rst = s.rst := rfl
@[simp] theorem State.withHost_host (s : State) (m : List HostMove) : (s.withHost m).host = m := rfl
@[simp] theorem State.withHost_replies (s : State) (m : List HostMove) : (s.withHost m).replies = s.replies := rfl
@[simp] theorem State.withHost_draws (s : State) (m : List HostMove) : (s.withHost m).draws = s.draws := rfl

/-! ### setAcc -/

@[simp] theorem State.setAcc_cfg (s : State) (a : Byte) : (s.setAcc a).cfg = s.cfg := rfl
@[simp] theorem State.setAcc_ieDone (s : State) (a : Byte) : (s.setAcc a).ieDone = s.ieDone := rfl
@[simp] theorem State.setAcc_ieErr (s : State) (a : Byte) : (s.setAcc a).ieErr = s.ieErr := rfl
@[simp] theorem State.setAcc_done (s : State) (a : Byte) : (s.setAcc a).done = s.done := rfl
@[simp] theorem State.setAcc_warnDegen (s : State) (a : Byte) : (s.setAcc a).warnDegen = s.warnDegen := rfl
@[simp] theorem State.setAcc_err (s : State) (a : Byte) : (s.setAcc a).err = s.err := rfl
@[simp] theorem State.setAcc_errIndex (s : State) (a : Byte) : (s.setAcc a).errIndex = s.errIndex := rfl
@[simp] theorem State.setAcc_errCmd (s : State) (a : Byte) : (s.setAcc a).errCmd = s.errCmd := rfl
@[simp] theorem State.setAcc_srcRate (s : State) (a : Byte) : (s.setAcc a).srcRate = s.srcRate := rfl
@[simp] theorem State.setAcc_dstRate (s : State) (a : Byte) : (s.setAcc a).dstRate = s.dstRate := rfl
@[simp] theorem State.setAcc_rsSrc (s : State) (a : Byte) : (s.setAcc a).rsSrc = s.rsSrc := rfl
@[simp] theorem State.setAcc_rsDst (s : State) (a : Byte) : (s.setAcc a).rsDst = s.rsDst := rfl
@[simp] theorem State.setAcc_rsLen (s : State) (a : Byte) : (s.setAcc a).rsLen = s.rsLen := rfl
@[simp] theorem State.setAcc_rsOutLen (s : State) (a : Byte) : (s.setAcc a).rsOutLen = s.rsOutLen := rfl
@[simp] theorem State.setAcc_qSrc (s : State) (a : Byte) : (s.setAcc a).qSrc = s.qSrc := rfl
@[simp] theorem State.setAcc_qDst (s : State) (a : Byte) : (s.setAcc a).qDst = s.qDst := rfl
@[simp] theorem State.setAcc_qLen (s : State) (a : Byte) : (s.setAcc a).qLen = s.qLen := rfl
@[simp] theorem State.setAcc_qoneLo (s : State) (a : Byte) : (s.setAcc a).qoneLo = s.qoneLo := rfl
@[simp] theorem State.setAcc_qoneHi (s : State) (a : Byte) : (s.setAcc a).qoneHi = s.qoneHi := rfl
@[simp] theorem State.setAcc_qoneRes (s : State) (a : Byte) : (s.setAcc a).qoneRes = s.qoneRes := rfl
@[simp] theorem State.setAcc_dSrc (s : State) (a : Byte) : (s.setAcc a).dSrc = s.dSrc := rfl
@[simp] theorem State.setAcc_dLen (s : State) (a : Byte) : (s.setAcc a).dLen = s.dLen := rfl
@[simp] theorem State.setAcc_dWptr (s : State) (a : Byte) : (s.setAcc a).dWptr = s.dWptr := rfl
@[simp] theorem State.setAcc_acc (s : State) (a : Byte) : (s.setAcc a).acc = a := rfl
@[simp] theorem State.setAcc_pend (s : State) (a : Byte) : (s.setAcc a).pend = s.pend := rfl
@[simp] theorem State.setAcc_cnt (s : State) (a : Byte) : (s.setAcc a).cnt = s.cnt := rfl
@[simp] theorem State.setAcc_lastBit (s : State) (a : Byte) : (s.setAcc a).lastBit = s.lastBit := rfl
@[simp] theorem State.setAcc_dBits (s : State) (a : Byte) : (s.setAcc a).dBits = s.dBits := rfl
@[simp] theorem State.setAcc_sram (s : State) (a : Byte) : (s.setAcc a).sram = s.sram := rfl
@[simp] theorem State.setAcc_bram (s : State) (a : Byte) : (s.setAcc a).bram = s.bram := rfl
@[simp] theorem State.setAcc_rst (s : State) (a : Byte) : (s.setAcc a).rst = s.rst := rfl
@[simp] theorem State.setAcc_host (s : State) (a : Byte) : (s.setAcc a).host = s.host := rfl
@[simp] theorem State.setAcc_replies (s : State) (a : Byte) : (s.setAcc a).replies = s.replies := rfl
@[simp] theorem State.setAcc_draws (s : State) (a : Byte) : (s.setAcc a).draws = s.draws := rfl

/-! ### withSram -/

@[simp] theorem State.withSram_cfg (s : State) (m : Memory) : (s.withSram m).cfg = s.cfg := rfl
@[simp] theorem State.withSram_ieDone (s : State) (m : Memory) : (s.withSram m).ieDone = s.ieDone := rfl
@[simp] theorem State.withSram_ieErr (s : State) (m : Memory) : (s.withSram m).ieErr = s.ieErr := rfl
@[simp] theorem State.withSram_done (s : State) (m : Memory) : (s.withSram m).done = s.done := rfl
@[simp] theorem State.withSram_warnDegen (s : State) (m : Memory) : (s.withSram m).warnDegen = s.warnDegen := rfl
@[simp] theorem State.withSram_err (s : State) (m : Memory) : (s.withSram m).err = s.err := rfl
@[simp] theorem State.withSram_errIndex (s : State) (m : Memory) : (s.withSram m).errIndex = s.errIndex := rfl
@[simp] theorem State.withSram_errCmd (s : State) (m : Memory) : (s.withSram m).errCmd = s.errCmd := rfl
@[simp] theorem State.withSram_srcRate (s : State) (m : Memory) : (s.withSram m).srcRate = s.srcRate := rfl
@[simp] theorem State.withSram_dstRate (s : State) (m : Memory) : (s.withSram m).dstRate = s.dstRate := rfl
@[simp] theorem State.withSram_rsSrc (s : State) (m : Memory) : (s.withSram m).rsSrc = s.rsSrc := rfl
@[simp] theorem State.withSram_rsDst (s : State) (m : Memory) : (s.withSram m).rsDst = s.rsDst := rfl
@[simp] theorem State.withSram_rsLen (s : State) (m : Memory) : (s.withSram m).rsLen = s.rsLen := rfl
@[simp] theorem State.withSram_rsOutLen (s : State) (m : Memory) : (s.withSram m).rsOutLen = s.rsOutLen := rfl
@[simp] theorem State.withSram_qSrc (s : State) (m : Memory) : (s.withSram m).qSrc = s.qSrc := rfl
@[simp] theorem State.withSram_qDst (s : State) (m : Memory) : (s.withSram m).qDst = s.qDst := rfl
@[simp] theorem State.withSram_qLen (s : State) (m : Memory) : (s.withSram m).qLen = s.qLen := rfl
@[simp] theorem State.withSram_qoneLo (s : State) (m : Memory) : (s.withSram m).qoneLo = s.qoneLo := rfl
@[simp] theorem State.withSram_qoneHi (s : State) (m : Memory) : (s.withSram m).qoneHi = s.qoneHi := rfl
@[simp] theorem State.withSram_qoneRes (s : State) (m : Memory) : (s.withSram m).qoneRes = s.qoneRes := rfl
@[simp] theorem State.withSram_dSrc (s : State) (m : Memory) : (s.withSram m).dSrc = s.dSrc := rfl
@[simp] theorem State.withSram_dLen (s : State) (m : Memory) : (s.withSram m).dLen = s.dLen := rfl
@[simp] theorem State.withSram_dWptr (s : State) (m : Memory) : (s.withSram m).dWptr = s.dWptr := rfl
@[simp] theorem State.withSram_acc (s : State) (m : Memory) : (s.withSram m).acc = s.acc := rfl
@[simp] theorem State.withSram_pend (s : State) (m : Memory) : (s.withSram m).pend = s.pend := rfl
@[simp] theorem State.withSram_cnt (s : State) (m : Memory) : (s.withSram m).cnt = s.cnt := rfl
@[simp] theorem State.withSram_lastBit (s : State) (m : Memory) : (s.withSram m).lastBit = s.lastBit := rfl
@[simp] theorem State.withSram_dBits (s : State) (m : Memory) : (s.withSram m).dBits = s.dBits := rfl
@[simp] theorem State.withSram_sram (s : State) (m : Memory) : (s.withSram m).sram = m := rfl
@[simp] theorem State.withSram_bram (s : State) (m : Memory) : (s.withSram m).bram = s.bram := rfl
@[simp] theorem State.withSram_rst (s : State) (m : Memory) : (s.withSram m).rst = s.rst := rfl
@[simp] theorem State.withSram_host (s : State) (m : Memory) : (s.withSram m).host = s.host := rfl
@[simp] theorem State.withSram_replies (s : State) (m : Memory) : (s.withSram m).replies = s.replies := rfl
@[simp] theorem State.withSram_draws (s : State) (m : Memory) : (s.withSram m).draws = s.draws := rfl

/-! ### withBram -/

@[simp] theorem State.withBram_cfg (s : State) (m : Memory) : (s.withBram m).cfg = s.cfg := rfl
@[simp] theorem State.withBram_ieDone (s : State) (m : Memory) : (s.withBram m).ieDone = s.ieDone := rfl
@[simp] theorem State.withBram_ieErr (s : State) (m : Memory) : (s.withBram m).ieErr = s.ieErr := rfl
@[simp] theorem State.withBram_done (s : State) (m : Memory) : (s.withBram m).done = s.done := rfl
@[simp] theorem State.withBram_warnDegen (s : State) (m : Memory) : (s.withBram m).warnDegen = s.warnDegen := rfl
@[simp] theorem State.withBram_err (s : State) (m : Memory) : (s.withBram m).err = s.err := rfl
@[simp] theorem State.withBram_errIndex (s : State) (m : Memory) : (s.withBram m).errIndex = s.errIndex := rfl
@[simp] theorem State.withBram_errCmd (s : State) (m : Memory) : (s.withBram m).errCmd = s.errCmd := rfl
@[simp] theorem State.withBram_srcRate (s : State) (m : Memory) : (s.withBram m).srcRate = s.srcRate := rfl
@[simp] theorem State.withBram_dstRate (s : State) (m : Memory) : (s.withBram m).dstRate = s.dstRate := rfl
@[simp] theorem State.withBram_rsSrc (s : State) (m : Memory) : (s.withBram m).rsSrc = s.rsSrc := rfl
@[simp] theorem State.withBram_rsDst (s : State) (m : Memory) : (s.withBram m).rsDst = s.rsDst := rfl
@[simp] theorem State.withBram_rsLen (s : State) (m : Memory) : (s.withBram m).rsLen = s.rsLen := rfl
@[simp] theorem State.withBram_rsOutLen (s : State) (m : Memory) : (s.withBram m).rsOutLen = s.rsOutLen := rfl
@[simp] theorem State.withBram_qSrc (s : State) (m : Memory) : (s.withBram m).qSrc = s.qSrc := rfl
@[simp] theorem State.withBram_qDst (s : State) (m : Memory) : (s.withBram m).qDst = s.qDst := rfl
@[simp] theorem State.withBram_qLen (s : State) (m : Memory) : (s.withBram m).qLen = s.qLen := rfl
@[simp] theorem State.withBram_qoneLo (s : State) (m : Memory) : (s.withBram m).qoneLo = s.qoneLo := rfl
@[simp] theorem State.withBram_qoneHi (s : State) (m : Memory) : (s.withBram m).qoneHi = s.qoneHi := rfl
@[simp] theorem State.withBram_qoneRes (s : State) (m : Memory) : (s.withBram m).qoneRes = s.qoneRes := rfl
@[simp] theorem State.withBram_dSrc (s : State) (m : Memory) : (s.withBram m).dSrc = s.dSrc := rfl
@[simp] theorem State.withBram_dLen (s : State) (m : Memory) : (s.withBram m).dLen = s.dLen := rfl
@[simp] theorem State.withBram_dWptr (s : State) (m : Memory) : (s.withBram m).dWptr = s.dWptr := rfl
@[simp] theorem State.withBram_acc (s : State) (m : Memory) : (s.withBram m).acc = s.acc := rfl
@[simp] theorem State.withBram_pend (s : State) (m : Memory) : (s.withBram m).pend = s.pend := rfl
@[simp] theorem State.withBram_cnt (s : State) (m : Memory) : (s.withBram m).cnt = s.cnt := rfl
@[simp] theorem State.withBram_lastBit (s : State) (m : Memory) : (s.withBram m).lastBit = s.lastBit := rfl
@[simp] theorem State.withBram_dBits (s : State) (m : Memory) : (s.withBram m).dBits = s.dBits := rfl
@[simp] theorem State.withBram_sram (s : State) (m : Memory) : (s.withBram m).sram = s.sram := rfl
@[simp] theorem State.withBram_bram (s : State) (m : Memory) : (s.withBram m).bram = m := rfl
@[simp] theorem State.withBram_rst (s : State) (m : Memory) : (s.withBram m).rst = s.rst := rfl
@[simp] theorem State.withBram_host (s : State) (m : Memory) : (s.withBram m).host = s.host := rfl
@[simp] theorem State.withBram_replies (s : State) (m : Memory) : (s.withBram m).replies = s.replies := rfl
@[simp] theorem State.withBram_draws (s : State) (m : Memory) : (s.withBram m).draws = s.draws := rfl

/-! ### drawn -/

@[simp] theorem State.drawn_cfg (s : State) (n : Nat) : (s.drawn n).cfg = s.cfg := rfl
@[simp] theorem State.drawn_ieDone (s : State) (n : Nat) : (s.drawn n).ieDone = s.ieDone := rfl
@[simp] theorem State.drawn_ieErr (s : State) (n : Nat) : (s.drawn n).ieErr = s.ieErr := rfl
@[simp] theorem State.drawn_done (s : State) (n : Nat) : (s.drawn n).done = s.done := rfl
@[simp] theorem State.drawn_warnDegen (s : State) (n : Nat) : (s.drawn n).warnDegen = s.warnDegen := rfl
@[simp] theorem State.drawn_err (s : State) (n : Nat) : (s.drawn n).err = s.err := rfl
@[simp] theorem State.drawn_errIndex (s : State) (n : Nat) : (s.drawn n).errIndex = s.errIndex := rfl
@[simp] theorem State.drawn_errCmd (s : State) (n : Nat) : (s.drawn n).errCmd = s.errCmd := rfl
@[simp] theorem State.drawn_srcRate (s : State) (n : Nat) : (s.drawn n).srcRate = s.srcRate := rfl
@[simp] theorem State.drawn_dstRate (s : State) (n : Nat) : (s.drawn n).dstRate = s.dstRate := rfl
@[simp] theorem State.drawn_rsSrc (s : State) (n : Nat) : (s.drawn n).rsSrc = s.rsSrc := rfl
@[simp] theorem State.drawn_rsDst (s : State) (n : Nat) : (s.drawn n).rsDst = s.rsDst := rfl
@[simp] theorem State.drawn_rsLen (s : State) (n : Nat) : (s.drawn n).rsLen = s.rsLen := rfl
@[simp] theorem State.drawn_rsOutLen (s : State) (n : Nat) : (s.drawn n).rsOutLen = s.rsOutLen := rfl
@[simp] theorem State.drawn_qSrc (s : State) (n : Nat) : (s.drawn n).qSrc = s.qSrc := rfl
@[simp] theorem State.drawn_qDst (s : State) (n : Nat) : (s.drawn n).qDst = s.qDst := rfl
@[simp] theorem State.drawn_qLen (s : State) (n : Nat) : (s.drawn n).qLen = s.qLen := rfl
@[simp] theorem State.drawn_qoneLo (s : State) (n : Nat) : (s.drawn n).qoneLo = s.qoneLo := rfl
@[simp] theorem State.drawn_qoneHi (s : State) (n : Nat) : (s.drawn n).qoneHi = s.qoneHi := rfl
@[simp] theorem State.drawn_qoneRes (s : State) (n : Nat) : (s.drawn n).qoneRes = s.qoneRes := rfl
@[simp] theorem State.drawn_dSrc (s : State) (n : Nat) : (s.drawn n).dSrc = s.dSrc := rfl
@[simp] theorem State.drawn_dLen (s : State) (n : Nat) : (s.drawn n).dLen = s.dLen := rfl
@[simp] theorem State.drawn_dWptr (s : State) (n : Nat) : (s.drawn n).dWptr = s.dWptr := rfl
@[simp] theorem State.drawn_acc (s : State) (n : Nat) : (s.drawn n).acc = s.acc := rfl
@[simp] theorem State.drawn_pend (s : State) (n : Nat) : (s.drawn n).pend = s.pend := rfl
@[simp] theorem State.drawn_cnt (s : State) (n : Nat) : (s.drawn n).cnt = s.cnt := rfl
@[simp] theorem State.drawn_lastBit (s : State) (n : Nat) : (s.drawn n).lastBit = s.lastBit := rfl
@[simp] theorem State.drawn_dBits (s : State) (n : Nat) : (s.drawn n).dBits = s.dBits := rfl
@[simp] theorem State.drawn_sram (s : State) (n : Nat) : (s.drawn n).sram = s.sram := rfl
@[simp] theorem State.drawn_bram (s : State) (n : Nat) : (s.drawn n).bram = s.bram := rfl
@[simp] theorem State.drawn_rst (s : State) (n : Nat) : (s.drawn n).rst = s.rst := rfl
@[simp] theorem State.drawn_host (s : State) (n : Nat) : (s.drawn n).host = s.host := rfl
@[simp] theorem State.drawn_replies (s : State) (n : Nat) : (s.drawn n).replies = s.replies := rfl
@[simp] theorem State.drawn_draws (s : State) (n : Nat) : (s.drawn n).draws = s.draws + n := rfl

/-! ### warn -/

@[simp] theorem State.warn_cfg (s : State) : (s.warn).cfg = s.cfg := rfl
@[simp] theorem State.warn_ieDone (s : State) : (s.warn).ieDone = s.ieDone := rfl
@[simp] theorem State.warn_ieErr (s : State) : (s.warn).ieErr = s.ieErr := rfl
@[simp] theorem State.warn_done (s : State) : (s.warn).done = s.done := rfl
@[simp] theorem State.warn_warnDegen (s : State) : (s.warn).warnDegen = true := rfl
@[simp] theorem State.warn_err (s : State) : (s.warn).err = s.err := rfl
@[simp] theorem State.warn_errIndex (s : State) : (s.warn).errIndex = s.errIndex := rfl
@[simp] theorem State.warn_errCmd (s : State) : (s.warn).errCmd = s.errCmd := rfl
@[simp] theorem State.warn_srcRate (s : State) : (s.warn).srcRate = s.srcRate := rfl
@[simp] theorem State.warn_dstRate (s : State) : (s.warn).dstRate = s.dstRate := rfl
@[simp] theorem State.warn_rsSrc (s : State) : (s.warn).rsSrc = s.rsSrc := rfl
@[simp] theorem State.warn_rsDst (s : State) : (s.warn).rsDst = s.rsDst := rfl
@[simp] theorem State.warn_rsLen (s : State) : (s.warn).rsLen = s.rsLen := rfl
@[simp] theorem State.warn_rsOutLen (s : State) : (s.warn).rsOutLen = s.rsOutLen := rfl
@[simp] theorem State.warn_qSrc (s : State) : (s.warn).qSrc = s.qSrc := rfl
@[simp] theorem State.warn_qDst (s : State) : (s.warn).qDst = s.qDst := rfl
@[simp] theorem State.warn_qLen (s : State) : (s.warn).qLen = s.qLen := rfl
@[simp] theorem State.warn_qoneLo (s : State) : (s.warn).qoneLo = s.qoneLo := rfl
@[simp] theorem State.warn_qoneHi (s : State) : (s.warn).qoneHi = s.qoneHi := rfl
@[simp] theorem State.warn_qoneRes (s : State) : (s.warn).qoneRes = s.qoneRes := rfl
@[simp] theorem State.warn_dSrc (s : State) : (s.warn).dSrc = s.dSrc := rfl
@[simp] theorem State.warn_dLen (s : State) : (s.warn).dLen = s.dLen := rfl
@[simp] theorem State.warn_dWptr (s : State) : (s.warn).dWptr = s.dWptr := rfl
@[simp] theorem State.warn_acc (s : State) : (s.warn).acc = s.acc := rfl
@[simp] theorem State.warn_pend (s : State) : (s.warn).pend = s.pend := rfl
@[simp] theorem State.warn_cnt (s : State) : (s.warn).cnt = s.cnt := rfl
@[simp] theorem State.warn_lastBit (s : State) : (s.warn).lastBit = s.lastBit := rfl
@[simp] theorem State.warn_dBits (s : State) : (s.warn).dBits = s.dBits := rfl
@[simp] theorem State.warn_sram (s : State) : (s.warn).sram = s.sram := rfl
@[simp] theorem State.warn_bram (s : State) : (s.warn).bram = s.bram := rfl
@[simp] theorem State.warn_rst (s : State) : (s.warn).rst = s.rst := rfl
@[simp] theorem State.warn_host (s : State) : (s.warn).host = s.host := rfl
@[simp] theorem State.warn_replies (s : State) : (s.warn).replies = s.replies := rfl
@[simp] theorem State.warn_draws (s : State) : (s.warn).draws = s.draws := rfl

/-! ### writeCtrl -/

@[simp] theorem State.writeCtrl_cfg (s : State) (v : Word) : (s.writeCtrl v).cfg = s.cfg := rfl
@[simp] theorem State.writeCtrl_ieDone (s : State) (v : Word) : (s.writeCtrl v).ieDone = v.getLsbD 0 := rfl
@[simp] theorem State.writeCtrl_ieErr (s : State) (v : Word) : (s.writeCtrl v).ieErr = v.getLsbD 1 := rfl
@[simp] theorem State.writeCtrl_done (s : State) (v : Word) : (s.writeCtrl v).done = s.done := rfl
@[simp] theorem State.writeCtrl_warnDegen (s : State) (v : Word) : (s.writeCtrl v).warnDegen = s.warnDegen := rfl
@[simp] theorem State.writeCtrl_err (s : State) (v : Word) : (s.writeCtrl v).err = s.err := rfl
@[simp] theorem State.writeCtrl_errIndex (s : State) (v : Word) : (s.writeCtrl v).errIndex = s.errIndex := rfl
@[simp] theorem State.writeCtrl_errCmd (s : State) (v : Word) : (s.writeCtrl v).errCmd = s.errCmd := rfl
@[simp] theorem State.writeCtrl_srcRate (s : State) (v : Word) : (s.writeCtrl v).srcRate = s.srcRate := rfl
@[simp] theorem State.writeCtrl_dstRate (s : State) (v : Word) : (s.writeCtrl v).dstRate = s.dstRate := rfl
@[simp] theorem State.writeCtrl_rsSrc (s : State) (v : Word) : (s.writeCtrl v).rsSrc = s.rsSrc := rfl
@[simp] theorem State.writeCtrl_rsDst (s : State) (v : Word) : (s.writeCtrl v).rsDst = s.rsDst := rfl
@[simp] theorem State.writeCtrl_rsLen (s : State) (v : Word) : (s.writeCtrl v).rsLen = s.rsLen := rfl
@[simp] theorem State.writeCtrl_rsOutLen (s : State) (v : Word) : (s.writeCtrl v).rsOutLen = s.rsOutLen := rfl
@[simp] theorem State.writeCtrl_qSrc (s : State) (v : Word) : (s.writeCtrl v).qSrc = s.qSrc := rfl
@[simp] theorem State.writeCtrl_qDst (s : State) (v : Word) : (s.writeCtrl v).qDst = s.qDst := rfl
@[simp] theorem State.writeCtrl_qLen (s : State) (v : Word) : (s.writeCtrl v).qLen = s.qLen := rfl
@[simp] theorem State.writeCtrl_qoneLo (s : State) (v : Word) : (s.writeCtrl v).qoneLo = s.qoneLo := rfl
@[simp] theorem State.writeCtrl_qoneHi (s : State) (v : Word) : (s.writeCtrl v).qoneHi = s.qoneHi := rfl
@[simp] theorem State.writeCtrl_qoneRes (s : State) (v : Word) : (s.writeCtrl v).qoneRes = s.qoneRes := rfl
@[simp] theorem State.writeCtrl_dSrc (s : State) (v : Word) : (s.writeCtrl v).dSrc = s.dSrc := rfl
@[simp] theorem State.writeCtrl_dLen (s : State) (v : Word) : (s.writeCtrl v).dLen = s.dLen := rfl
@[simp] theorem State.writeCtrl_dWptr (s : State) (v : Word) : (s.writeCtrl v).dWptr = s.dWptr := rfl
@[simp] theorem State.writeCtrl_acc (s : State) (v : Word) : (s.writeCtrl v).acc = s.acc := rfl
@[simp] theorem State.writeCtrl_pend (s : State) (v : Word) : (s.writeCtrl v).pend = s.pend := rfl
@[simp] theorem State.writeCtrl_cnt (s : State) (v : Word) : (s.writeCtrl v).cnt = s.cnt := rfl
@[simp] theorem State.writeCtrl_lastBit (s : State) (v : Word) : (s.writeCtrl v).lastBit = s.lastBit := rfl
@[simp] theorem State.writeCtrl_dBits (s : State) (v : Word) : (s.writeCtrl v).dBits = s.dBits := rfl
@[simp] theorem State.writeCtrl_sram (s : State) (v : Word) : (s.writeCtrl v).sram = s.sram := rfl
@[simp] theorem State.writeCtrl_bram (s : State) (v : Word) : (s.writeCtrl v).bram = s.bram := rfl
@[simp] theorem State.writeCtrl_rst (s : State) (v : Word) : (s.writeCtrl v).rst = s.rst := rfl
@[simp] theorem State.writeCtrl_host (s : State) (v : Word) : (s.writeCtrl v).host = s.host := rfl
@[simp] theorem State.writeCtrl_replies (s : State) (v : Word) : (s.writeCtrl v).replies = s.replies := rfl
@[simp] theorem State.writeCtrl_draws (s : State) (v : Word) : (s.writeCtrl v).draws = s.draws := rfl

/-! ### startStream -/

@[simp] theorem State.startStream_cfg (s : State) : (s.startStream).cfg = s.cfg := rfl
@[simp] theorem State.startStream_ieDone (s : State) : (s.startStream).ieDone = s.ieDone := rfl
@[simp] theorem State.startStream_ieErr (s : State) : (s.startStream).ieErr = s.ieErr := rfl
@[simp] theorem State.startStream_done (s : State) : (s.startStream).done = s.done := rfl
@[simp] theorem State.startStream_warnDegen (s : State) : (s.startStream).warnDegen = s.warnDegen := rfl
@[simp] theorem State.startStream_err (s : State) : (s.startStream).err = s.err := rfl
@[simp] theorem State.startStream_errIndex (s : State) : (s.startStream).errIndex = s.errIndex := rfl
@[simp] theorem State.startStream_errCmd (s : State) : (s.startStream).errCmd = s.errCmd := rfl
@[simp] theorem State.startStream_srcRate (s : State) : (s.startStream).srcRate = s.srcRate := rfl
@[simp] theorem State.startStream_dstRate (s : State) : (s.startStream).dstRate = s.dstRate := rfl
@[simp] theorem State.startStream_rsSrc (s : State) : (s.startStream).rsSrc = s.rsSrc := rfl
@[simp] theorem State.startStream_rsDst (s : State) : (s.startStream).rsDst = s.rsDst := rfl
@[simp] theorem State.startStream_rsLen (s : State) : (s.startStream).rsLen = s.rsLen := rfl
@[simp] theorem State.startStream_rsOutLen (s : State) : (s.startStream).rsOutLen = s.rsOutLen := rfl
@[simp] theorem State.startStream_qSrc (s : State) : (s.startStream).qSrc = s.qSrc := rfl
@[simp] theorem State.startStream_qDst (s : State) : (s.startStream).qDst = s.qDst := rfl
@[simp] theorem State.startStream_qLen (s : State) : (s.startStream).qLen = s.qLen := rfl
@[simp] theorem State.startStream_qoneLo (s : State) : (s.startStream).qoneLo = s.qoneLo := rfl
@[simp] theorem State.startStream_qoneHi (s : State) : (s.startStream).qoneHi = s.qoneHi := rfl
@[simp] theorem State.startStream_qoneRes (s : State) : (s.startStream).qoneRes = s.qoneRes := rfl
@[simp] theorem State.startStream_dSrc (s : State) : (s.startStream).dSrc = s.dSrc := rfl
@[simp] theorem State.startStream_dLen (s : State) : (s.startStream).dLen = s.dLen := rfl
@[simp] theorem State.startStream_dWptr (s : State) : (s.startStream).dWptr = s.dWptr := rfl
@[simp] theorem State.startStream_acc (s : State) : (s.startStream).acc = 128 := rfl
@[simp] theorem State.startStream_pend (s : State) : (s.startStream).pend = 0 := rfl
@[simp] theorem State.startStream_cnt (s : State) : (s.startStream).cnt = 0 := rfl
@[simp] theorem State.startStream_lastBit (s : State) : (s.startStream).lastBit = false := rfl
@[simp] theorem State.startStream_dBits (s : State) : (s.startStream).dBits = 0 := rfl
@[simp] theorem State.startStream_sram (s : State) : (s.startStream).sram = s.sram := rfl
@[simp] theorem State.startStream_bram (s : State) : (s.startStream).bram = s.bram := rfl
@[simp] theorem State.startStream_rst (s : State) : (s.startStream).rst = s.rst := rfl
@[simp] theorem State.startStream_host (s : State) : (s.startStream).host = s.host := rfl
@[simp] theorem State.startStream_replies (s : State) : (s.startStream).replies = s.replies := rfl
@[simp] theorem State.startStream_draws (s : State) : (s.startStream).draws = s.draws := rfl

/-! ### writeByte -/

@[simp] theorem State.writeByte_cfg (s : State) (v : Nat) : (s.writeByte v).cfg = s.cfg := rfl
@[simp] theorem State.writeByte_ieDone (s : State) (v : Nat) : (s.writeByte v).ieDone = s.ieDone := rfl
@[simp] theorem State.writeByte_ieErr (s : State) (v : Nat) : (s.writeByte v).ieErr = s.ieErr := rfl
@[simp] theorem State.writeByte_done (s : State) (v : Nat) : (s.writeByte v).done = s.done := rfl
@[simp] theorem State.writeByte_warnDegen (s : State) (v : Nat) : (s.writeByte v).warnDegen = s.warnDegen := rfl
@[simp] theorem State.writeByte_err (s : State) (v : Nat) : (s.writeByte v).err = s.err := rfl
@[simp] theorem State.writeByte_errIndex (s : State) (v : Nat) : (s.writeByte v).errIndex = s.errIndex := rfl
@[simp] theorem State.writeByte_errCmd (s : State) (v : Nat) : (s.writeByte v).errCmd = s.errCmd := rfl
@[simp] theorem State.writeByte_srcRate (s : State) (v : Nat) : (s.writeByte v).srcRate = s.srcRate := rfl
@[simp] theorem State.writeByte_dstRate (s : State) (v : Nat) : (s.writeByte v).dstRate = s.dstRate := rfl
@[simp] theorem State.writeByte_rsSrc (s : State) (v : Nat) : (s.writeByte v).rsSrc = s.rsSrc := rfl
@[simp] theorem State.writeByte_rsDst (s : State) (v : Nat) : (s.writeByte v).rsDst = s.rsDst := rfl
@[simp] theorem State.writeByte_rsLen (s : State) (v : Nat) : (s.writeByte v).rsLen = s.rsLen := rfl
@[simp] theorem State.writeByte_rsOutLen (s : State) (v : Nat) : (s.writeByte v).rsOutLen = s.rsOutLen := rfl
@[simp] theorem State.writeByte_qSrc (s : State) (v : Nat) : (s.writeByte v).qSrc = s.qSrc := rfl
@[simp] theorem State.writeByte_qDst (s : State) (v : Nat) : (s.writeByte v).qDst = s.qDst := rfl
@[simp] theorem State.writeByte_qLen (s : State) (v : Nat) : (s.writeByte v).qLen = s.qLen := rfl
@[simp] theorem State.writeByte_qoneLo (s : State) (v : Nat) : (s.writeByte v).qoneLo = s.qoneLo := rfl
@[simp] theorem State.writeByte_qoneHi (s : State) (v : Nat) : (s.writeByte v).qoneHi = s.qoneHi := rfl
@[simp] theorem State.writeByte_qoneRes (s : State) (v : Nat) : (s.writeByte v).qoneRes = s.qoneRes := rfl
@[simp] theorem State.writeByte_dSrc (s : State) (v : Nat) : (s.writeByte v).dSrc = s.dSrc := rfl
@[simp] theorem State.writeByte_dLen (s : State) (v : Nat) : (s.writeByte v).dLen = s.dLen := rfl
@[simp] theorem State.writeByte_dWptr (s : State) (v : Nat) : (s.writeByte v).dWptr = s.dWptr + 1 := rfl
@[simp] theorem State.writeByte_acc (s : State) (v : Nat) : (s.writeByte v).acc = s.acc := rfl
@[simp] theorem State.writeByte_pend (s : State) (v : Nat) : (s.writeByte v).pend = 0 := rfl
@[simp] theorem State.writeByte_cnt (s : State) (v : Nat) : (s.writeByte v).cnt = 0 := rfl
@[simp] theorem State.writeByte_lastBit (s : State) (v : Nat) : (s.writeByte v).lastBit = s.lastBit := rfl
@[simp] theorem State.writeByte_dBits (s : State) (v : Nat) : (s.writeByte v).dBits = s.dBits := rfl
@[simp] theorem State.writeByte_sram (s : State) (v : Nat) : (s.writeByte v).sram = s.sram := rfl
@[simp] theorem State.writeByte_bram (s : State) (v : Nat) : (s.writeByte v).bram = Memory.write s.bram s.dWptr.toNat (BitVec.ofNat 8 v) := rfl
@[simp] theorem State.writeByte_rst (s : State) (v : Nat) : (s.writeByte v).rst = s.rst := rfl
@[simp] theorem State.writeByte_host (s : State) (v : Nat) : (s.writeByte v).host = s.host := rfl
@[simp] theorem State.writeByte_replies (s : State) (v : Nat) : (s.writeByte v).replies = s.replies := rfl
@[simp] theorem State.writeByte_draws (s : State) (v : Nat) : (s.writeByte v).draws = s.draws := rfl

/-! ### writeSramHalf -/

@[simp] theorem State.writeSramHalf_cfg (s : State) (j : Nat) (h : Bool) (v : Word) : (s.writeSramHalf j h v).cfg = s.cfg := rfl
@[simp] theorem State.writeSramHalf_ieDone (s : State) (j : Nat) (h : Bool) (v : Word) : (s.writeSramHalf j h v).ieDone = s.ieDone := rfl
@[simp] theorem State.writeSramHalf_ieErr (s : State) (j : Nat) (h : Bool) (v : Word) : (s.writeSramHalf j h v).ieErr = s.ieErr := rfl
@[simp] theorem State.writeSramHalf_done (s : State) (j : Nat) (h : Bool) (v : Word) : (s.writeSramHalf j h v).done = s.done := rfl
@[simp] theorem State.writeSramHalf_warnDegen (s : State) (j : Nat) (h : Bool) (v : Word) : (s.writeSramHalf j h v).warnDegen = s.warnDegen := rfl
@[simp] theorem State.writeSramHalf_err (s : State) (j : Nat) (h : Bool) (v : Word) : (s.writeSramHalf j h v).err = s.err := rfl
@[simp] theorem State.writeSramHalf_errIndex (s : State) (j : Nat) (h : Bool) (v : Word) : (s.writeSramHalf j h v).errIndex = s.errIndex := rfl
@[simp] theorem State.writeSramHalf_errCmd (s : State) (j : Nat) (h : Bool) (v : Word) : (s.writeSramHalf j h v).errCmd = s.errCmd := rfl
@[simp] theorem State.writeSramHalf_srcRate (s : State) (j : Nat) (h : Bool) (v : Word) : (s.writeSramHalf j h v).srcRate = s.srcRate := rfl
@[simp] theorem State.writeSramHalf_dstRate (s : State) (j : Nat) (h : Bool) (v : Word) : (s.writeSramHalf j h v).dstRate = s.dstRate := rfl
@[simp] theorem State.writeSramHalf_rsSrc (s : State) (j : Nat) (h : Bool) (v : Word) : (s.writeSramHalf j h v).rsSrc = s.rsSrc := rfl
@[simp] theorem State.writeSramHalf_rsDst (s : State) (j : Nat) (h : Bool) (v : Word) : (s.writeSramHalf j h v).rsDst = s.rsDst := rfl
@[simp] theorem State.writeSramHalf_rsLen (s : State) (j : Nat) (h : Bool) (v : Word) : (s.writeSramHalf j h v).rsLen = s.rsLen := rfl
@[simp] theorem State.writeSramHalf_rsOutLen (s : State) (j : Nat) (h : Bool) (v : Word) : (s.writeSramHalf j h v).rsOutLen = s.rsOutLen := rfl
@[simp] theorem State.writeSramHalf_qSrc (s : State) (j : Nat) (h : Bool) (v : Word) : (s.writeSramHalf j h v).qSrc = s.qSrc := rfl
@[simp] theorem State.writeSramHalf_qDst (s : State) (j : Nat) (h : Bool) (v : Word) : (s.writeSramHalf j h v).qDst = s.qDst := rfl
@[simp] theorem State.writeSramHalf_qLen (s : State) (j : Nat) (h : Bool) (v : Word) : (s.writeSramHalf j h v).qLen = s.qLen := rfl
@[simp] theorem State.writeSramHalf_qoneLo (s : State) (j : Nat) (h : Bool) (v : Word) : (s.writeSramHalf j h v).qoneLo = s.qoneLo := rfl
@[simp] theorem State.writeSramHalf_qoneHi (s : State) (j : Nat) (h : Bool) (v : Word) : (s.writeSramHalf j h v).qoneHi = s.qoneHi := rfl
@[simp] theorem State.writeSramHalf_qoneRes (s : State) (j : Nat) (h : Bool) (v : Word) : (s.writeSramHalf j h v).qoneRes = s.qoneRes := rfl
@[simp] theorem State.writeSramHalf_dSrc (s : State) (j : Nat) (h : Bool) (v : Word) : (s.writeSramHalf j h v).dSrc = s.dSrc := rfl
@[simp] theorem State.writeSramHalf_dLen (s : State) (j : Nat) (h : Bool) (v : Word) : (s.writeSramHalf j h v).dLen = s.dLen := rfl
@[simp] theorem State.writeSramHalf_dWptr (s : State) (j : Nat) (h : Bool) (v : Word) : (s.writeSramHalf j h v).dWptr = s.dWptr := rfl
@[simp] theorem State.writeSramHalf_acc (s : State) (j : Nat) (h : Bool) (v : Word) : (s.writeSramHalf j h v).acc = s.acc := rfl
@[simp] theorem State.writeSramHalf_pend (s : State) (j : Nat) (h : Bool) (v : Word) : (s.writeSramHalf j h v).pend = s.pend := rfl
@[simp] theorem State.writeSramHalf_cnt (s : State) (j : Nat) (h : Bool) (v : Word) : (s.writeSramHalf j h v).cnt = s.cnt := rfl
@[simp] theorem State.writeSramHalf_lastBit (s : State) (j : Nat) (h : Bool) (v : Word) : (s.writeSramHalf j h v).lastBit = s.lastBit := rfl
@[simp] theorem State.writeSramHalf_dBits (s : State) (j : Nat) (h : Bool) (v : Word) : (s.writeSramHalf j h v).dBits = s.dBits := rfl
@[simp] theorem State.writeSramHalf_sram (s : State) (j : Nat) (h : Bool) (v : Word) : (s.writeSramHalf j h v).sram = Memory.writeLE s.sram (halfAddr j h) 4 v.toNat := rfl
@[simp] theorem State.writeSramHalf_bram (s : State) (j : Nat) (h : Bool) (v : Word) : (s.writeSramHalf j h v).bram = s.bram := rfl
@[simp] theorem State.writeSramHalf_rst (s : State) (j : Nat) (h : Bool) (v : Word) : (s.writeSramHalf j h v).rst = s.rst := rfl
@[simp] theorem State.writeSramHalf_host (s : State) (j : Nat) (h : Bool) (v : Word) : (s.writeSramHalf j h v).host = s.host := rfl
@[simp] theorem State.writeSramHalf_replies (s : State) (j : Nat) (h : Bool) (v : Word) : (s.writeSramHalf j h v).replies = s.replies := rfl
@[simp] theorem State.writeSramHalf_draws (s : State) (j : Nat) (h : Bool) (v : Word) : (s.writeSramHalf j h v).draws = s.draws := rfl

/-! ### writeBramWord -/

@[simp] theorem State.writeBramWord_cfg (s : State) (k : Nat) (v : Word) : (s.writeBramWord k v).cfg = s.cfg := rfl
@[simp] theorem State.writeBramWord_ieDone (s : State) (k : Nat) (v : Word) : (s.writeBramWord k v).ieDone = s.ieDone := rfl
@[simp] theorem State.writeBramWord_ieErr (s : State) (k : Nat) (v : Word) : (s.writeBramWord k v).ieErr = s.ieErr := rfl
@[simp] theorem State.writeBramWord_done (s : State) (k : Nat) (v : Word) : (s.writeBramWord k v).done = s.done := rfl
@[simp] theorem State.writeBramWord_warnDegen (s : State) (k : Nat) (v : Word) : (s.writeBramWord k v).warnDegen = s.warnDegen := rfl
@[simp] theorem State.writeBramWord_err (s : State) (k : Nat) (v : Word) : (s.writeBramWord k v).err = s.err := rfl
@[simp] theorem State.writeBramWord_errIndex (s : State) (k : Nat) (v : Word) : (s.writeBramWord k v).errIndex = s.errIndex := rfl
@[simp] theorem State.writeBramWord_errCmd (s : State) (k : Nat) (v : Word) : (s.writeBramWord k v).errCmd = s.errCmd := rfl
@[simp] theorem State.writeBramWord_srcRate (s : State) (k : Nat) (v : Word) : (s.writeBramWord k v).srcRate = s.srcRate := rfl
@[simp] theorem State.writeBramWord_dstRate (s : State) (k : Nat) (v : Word) : (s.writeBramWord k v).dstRate = s.dstRate := rfl
@[simp] theorem State.writeBramWord_rsSrc (s : State) (k : Nat) (v : Word) : (s.writeBramWord k v).rsSrc = s.rsSrc := rfl
@[simp] theorem State.writeBramWord_rsDst (s : State) (k : Nat) (v : Word) : (s.writeBramWord k v).rsDst = s.rsDst := rfl
@[simp] theorem State.writeBramWord_rsLen (s : State) (k : Nat) (v : Word) : (s.writeBramWord k v).rsLen = s.rsLen := rfl
@[simp] theorem State.writeBramWord_rsOutLen (s : State) (k : Nat) (v : Word) : (s.writeBramWord k v).rsOutLen = s.rsOutLen := rfl
@[simp] theorem State.writeBramWord_qSrc (s : State) (k : Nat) (v : Word) : (s.writeBramWord k v).qSrc = s.qSrc := rfl
@[simp] theorem State.writeBramWord_qDst (s : State) (k : Nat) (v : Word) : (s.writeBramWord k v).qDst = s.qDst := rfl
@[simp] theorem State.writeBramWord_qLen (s : State) (k : Nat) (v : Word) : (s.writeBramWord k v).qLen = s.qLen := rfl
@[simp] theorem State.writeBramWord_qoneLo (s : State) (k : Nat) (v : Word) : (s.writeBramWord k v).qoneLo = s.qoneLo := rfl
@[simp] theorem State.writeBramWord_qoneHi (s : State) (k : Nat) (v : Word) : (s.writeBramWord k v).qoneHi = s.qoneHi := rfl
@[simp] theorem State.writeBramWord_qoneRes (s : State) (k : Nat) (v : Word) : (s.writeBramWord k v).qoneRes = s.qoneRes := rfl
@[simp] theorem State.writeBramWord_dSrc (s : State) (k : Nat) (v : Word) : (s.writeBramWord k v).dSrc = s.dSrc := rfl
@[simp] theorem State.writeBramWord_dLen (s : State) (k : Nat) (v : Word) : (s.writeBramWord k v).dLen = s.dLen := rfl
@[simp] theorem State.writeBramWord_dWptr (s : State) (k : Nat) (v : Word) : (s.writeBramWord k v).dWptr = s.dWptr := rfl
@[simp] theorem State.writeBramWord_acc (s : State) (k : Nat) (v : Word) : (s.writeBramWord k v).acc = s.acc := rfl
@[simp] theorem State.writeBramWord_pend (s : State) (k : Nat) (v : Word) : (s.writeBramWord k v).pend = s.pend := rfl
@[simp] theorem State.writeBramWord_cnt (s : State) (k : Nat) (v : Word) : (s.writeBramWord k v).cnt = s.cnt := rfl
@[simp] theorem State.writeBramWord_lastBit (s : State) (k : Nat) (v : Word) : (s.writeBramWord k v).lastBit = s.lastBit := rfl
@[simp] theorem State.writeBramWord_dBits (s : State) (k : Nat) (v : Word) : (s.writeBramWord k v).dBits = s.dBits := rfl
@[simp] theorem State.writeBramWord_sram (s : State) (k : Nat) (v : Word) : (s.writeBramWord k v).sram = s.sram := rfl
@[simp] theorem State.writeBramWord_bram (s : State) (k : Nat) (v : Word) : (s.writeBramWord k v).bram = Memory.writeLE s.bram k 4 v.toNat := rfl
@[simp] theorem State.writeBramWord_rst (s : State) (k : Nat) (v : Word) : (s.writeBramWord k v).rst = s.rst := rfl
@[simp] theorem State.writeBramWord_host (s : State) (k : Nat) (v : Word) : (s.writeBramWord k v).host = s.host := rfl
@[simp] theorem State.writeBramWord_replies (s : State) (k : Nat) (v : Word) : (s.writeBramWord k v).replies = s.replies := rfl
@[simp] theorem State.writeBramWord_draws (s : State) (k : Nat) (v : Word) : (s.writeBramWord k v).draws = s.draws := rfl

/-! ### writeStatus -/

@[simp] theorem State.writeStatus_cfg (s : State) (v : Word) : (s.writeStatus v).cfg = s.cfg := by
  unfold State.writeStatus; dsimp only; split <;> rfl
@[simp] theorem State.writeStatus_ieDone (s : State) (v : Word) : (s.writeStatus v).ieDone = s.ieDone := by
  unfold State.writeStatus; dsimp only; split <;> rfl
@[simp] theorem State.writeStatus_ieErr (s : State) (v : Word) : (s.writeStatus v).ieErr = s.ieErr := by
  unfold State.writeStatus; dsimp only; split <;> rfl
@[simp] theorem State.writeStatus_done (s : State) (v : Word) : (s.writeStatus v).done = (s.done && !v.getLsbD 0) := by
  unfold State.writeStatus; dsimp only; split <;> rfl
@[simp] theorem State.writeStatus_warnDegen (s : State) (v : Word) : (s.writeStatus v).warnDegen = (s.warnDegen && !v.getLsbD 1) := by
  unfold State.writeStatus; dsimp only; split <;> rfl
@[simp] theorem State.writeStatus_srcRate (s : State) (v : Word) : (s.writeStatus v).srcRate = s.srcRate := by
  unfold State.writeStatus; dsimp only; split <;> rfl
@[simp] theorem State.writeStatus_dstRate (s : State) (v : Word) : (s.writeStatus v).dstRate = s.dstRate := by
  unfold State.writeStatus; dsimp only; split <;> rfl
@[simp] theorem State.writeStatus_rsSrc (s : State) (v : Word) : (s.writeStatus v).rsSrc = s.rsSrc := by
  unfold State.writeStatus; dsimp only; split <;> rfl
@[simp] theorem State.writeStatus_rsDst (s : State) (v : Word) : (s.writeStatus v).rsDst = s.rsDst := by
  unfold State.writeStatus; dsimp only; split <;> rfl
@[simp] theorem State.writeStatus_rsLen (s : State) (v : Word) : (s.writeStatus v).rsLen = s.rsLen := by
  unfold State.writeStatus; dsimp only; split <;> rfl
@[simp] theorem State.writeStatus_rsOutLen (s : State) (v : Word) : (s.writeStatus v).rsOutLen = s.rsOutLen := by
  unfold State.writeStatus; dsimp only; split <;> rfl
@[simp] theorem State.writeStatus_qSrc (s : State) (v : Word) : (s.writeStatus v).qSrc = s.qSrc := by
  unfold State.writeStatus; dsimp only; split <;> rfl
@[simp] theorem State.writeStatus_qDst (s : State) (v : Word) : (s.writeStatus v).qDst = s.qDst := by
  unfold State.writeStatus; dsimp only; split <;> rfl
@[simp] theorem State.writeStatus_qLen (s : State) (v : Word) : (s.writeStatus v).qLen = s.qLen := by
  unfold State.writeStatus; dsimp only; split <;> rfl
@[simp] theorem State.writeStatus_qoneLo (s : State) (v : Word) : (s.writeStatus v).qoneLo = s.qoneLo := by
  unfold State.writeStatus; dsimp only; split <;> rfl
@[simp] theorem State.writeStatus_qoneHi (s : State) (v : Word) : (s.writeStatus v).qoneHi = s.qoneHi := by
  unfold State.writeStatus; dsimp only; split <;> rfl
@[simp] theorem State.writeStatus_qoneRes (s : State) (v : Word) : (s.writeStatus v).qoneRes = s.qoneRes := by
  unfold State.writeStatus; dsimp only; split <;> rfl
@[simp] theorem State.writeStatus_dSrc (s : State) (v : Word) : (s.writeStatus v).dSrc = s.dSrc := by
  unfold State.writeStatus; dsimp only; split <;> rfl
@[simp] theorem State.writeStatus_dLen (s : State) (v : Word) : (s.writeStatus v).dLen = s.dLen := by
  unfold State.writeStatus; dsimp only; split <;> rfl
@[simp] theorem State.writeStatus_dWptr (s : State) (v : Word) : (s.writeStatus v).dWptr = s.dWptr := by
  unfold State.writeStatus; dsimp only; split <;> rfl
@[simp] theorem State.writeStatus_acc (s : State) (v : Word) : (s.writeStatus v).acc = s.acc := by
  unfold State.writeStatus; dsimp only; split <;> rfl
@[simp] theorem State.writeStatus_pend (s : State) (v : Word) : (s.writeStatus v).pend = s.pend := by
  unfold State.writeStatus; dsimp only; split <;> rfl
@[simp] theorem State.writeStatus_cnt (s : State) (v : Word) : (s.writeStatus v).cnt = s.cnt := by
  unfold State.writeStatus; dsimp only; split <;> rfl
@[simp] theorem State.writeStatus_lastBit (s : State) (v : Word) : (s.writeStatus v).lastBit = s.lastBit := by
  unfold State.writeStatus; dsimp only; split <;> rfl
@[simp] theorem State.writeStatus_dBits (s : State) (v : Word) : (s.writeStatus v).dBits = s.dBits := by
  unfold State.writeStatus; dsimp only; split <;> rfl
@[simp] theorem State.writeStatus_sram (s : State) (v : Word) : (s.writeStatus v).sram = s.sram := by
  unfold State.writeStatus; dsimp only; split <;> rfl
@[simp] theorem State.writeStatus_bram (s : State) (v : Word) : (s.writeStatus v).bram = s.bram := by
  unfold State.writeStatus; dsimp only; split <;> rfl
@[simp] theorem State.writeStatus_rst (s : State) (v : Word) : (s.writeStatus v).rst = s.rst := by
  unfold State.writeStatus; dsimp only; split <;> rfl
@[simp] theorem State.writeStatus_host (s : State) (v : Word) : (s.writeStatus v).host = s.host := by
  unfold State.writeStatus; dsimp only; split <;> rfl
@[simp] theorem State.writeStatus_replies (s : State) (v : Word) : (s.writeStatus v).replies = s.replies := by
  unfold State.writeStatus; dsimp only; split <;> rfl
@[simp] theorem State.writeStatus_draws (s : State) (v : Word) : (s.writeStatus v).draws = s.draws := by
  unfold State.writeStatus; dsimp only; split <;> rfl

/-! ### lengthResult -/

@[simp] theorem State.lengthResult_cfg (s : State) (m : RsMode) (n : Nat) : (s.lengthResult m n).cfg = s.cfg := by
  unfold State.lengthResult; dsimp only; split <;> rfl
@[simp] theorem State.lengthResult_ieDone (s : State) (m : RsMode) (n : Nat) : (s.lengthResult m n).ieDone = s.ieDone := by
  unfold State.lengthResult; dsimp only; split <;> rfl
@[simp] theorem State.lengthResult_ieErr (s : State) (m : RsMode) (n : Nat) : (s.lengthResult m n).ieErr = s.ieErr := by
  unfold State.lengthResult; dsimp only; split <;> rfl
@[simp] theorem State.lengthResult_done (s : State) (m : RsMode) (n : Nat) : (s.lengthResult m n).done = s.done := by
  unfold State.lengthResult; dsimp only; split <;> rfl
@[simp] theorem State.lengthResult_err (s : State) (m : RsMode) (n : Nat) : (s.lengthResult m n).err = s.err := by
  unfold State.lengthResult; dsimp only; split <;> rfl
@[simp] theorem State.lengthResult_errIndex (s : State) (m : RsMode) (n : Nat) : (s.lengthResult m n).errIndex = s.errIndex := by
  unfold State.lengthResult; dsimp only; split <;> rfl
@[simp] theorem State.lengthResult_errCmd (s : State) (m : RsMode) (n : Nat) : (s.lengthResult m n).errCmd = s.errCmd := by
  unfold State.lengthResult; dsimp only; split <;> rfl
@[simp] theorem State.lengthResult_srcRate (s : State) (m : RsMode) (n : Nat) : (s.lengthResult m n).srcRate = s.srcRate := by
  unfold State.lengthResult; dsimp only; split <;> rfl
@[simp] theorem State.lengthResult_dstRate (s : State) (m : RsMode) (n : Nat) : (s.lengthResult m n).dstRate = s.dstRate := by
  unfold State.lengthResult; dsimp only; split <;> rfl
@[simp] theorem State.lengthResult_rsSrc (s : State) (m : RsMode) (n : Nat) : (s.lengthResult m n).rsSrc = s.rsSrc := by
  unfold State.lengthResult; dsimp only; split <;> rfl
@[simp] theorem State.lengthResult_rsDst (s : State) (m : RsMode) (n : Nat) : (s.lengthResult m n).rsDst = s.rsDst := by
  unfold State.lengthResult; dsimp only; split <;> rfl
@[simp] theorem State.lengthResult_rsLen (s : State) (m : RsMode) (n : Nat) : (s.lengthResult m n).rsLen = s.rsLen := by
  unfold State.lengthResult; dsimp only; split <;> rfl
@[simp] theorem State.lengthResult_rsOutLen (s : State) (m : RsMode) (n : Nat) : (s.lengthResult m n).rsOutLen = BitVec.ofNat 32 n := by
  unfold State.lengthResult; dsimp only; split <;> rfl
@[simp] theorem State.lengthResult_qSrc (s : State) (m : RsMode) (n : Nat) : (s.lengthResult m n).qSrc = s.qSrc := by
  unfold State.lengthResult; dsimp only; split <;> rfl
@[simp] theorem State.lengthResult_qDst (s : State) (m : RsMode) (n : Nat) : (s.lengthResult m n).qDst = s.qDst := by
  unfold State.lengthResult; dsimp only; split <;> rfl
@[simp] theorem State.lengthResult_qLen (s : State) (m : RsMode) (n : Nat) : (s.lengthResult m n).qLen = s.qLen := by
  unfold State.lengthResult; dsimp only; split <;> rfl
@[simp] theorem State.lengthResult_qoneLo (s : State) (m : RsMode) (n : Nat) : (s.lengthResult m n).qoneLo = s.qoneLo := by
  unfold State.lengthResult; dsimp only; split <;> rfl
@[simp] theorem State.lengthResult_qoneHi (s : State) (m : RsMode) (n : Nat) : (s.lengthResult m n).qoneHi = s.qoneHi := by
  unfold State.lengthResult; dsimp only; split <;> rfl
@[simp] theorem State.lengthResult_qoneRes (s : State) (m : RsMode) (n : Nat) : (s.lengthResult m n).qoneRes = s.qoneRes := by
  unfold State.lengthResult; dsimp only; split <;> rfl
@[simp] theorem State.lengthResult_dSrc (s : State) (m : RsMode) (n : Nat) : (s.lengthResult m n).dSrc = s.dSrc := by
  unfold State.lengthResult; dsimp only; split <;> rfl
@[simp] theorem State.lengthResult_dLen (s : State) (m : RsMode) (n : Nat) : (s.lengthResult m n).dLen = s.dLen := by
  unfold State.lengthResult; dsimp only; split <;> rfl
@[simp] theorem State.lengthResult_dWptr (s : State) (m : RsMode) (n : Nat) : (s.lengthResult m n).dWptr = s.dWptr := by
  unfold State.lengthResult; dsimp only; split <;> rfl
@[simp] theorem State.lengthResult_acc (s : State) (m : RsMode) (n : Nat) : (s.lengthResult m n).acc = s.acc := by
  unfold State.lengthResult; dsimp only; split <;> rfl
@[simp] theorem State.lengthResult_pend (s : State) (m : RsMode) (n : Nat) : (s.lengthResult m n).pend = s.pend := by
  unfold State.lengthResult; dsimp only; split <;> rfl
@[simp] theorem State.lengthResult_cnt (s : State) (m : RsMode) (n : Nat) : (s.lengthResult m n).cnt = s.cnt := by
  unfold State.lengthResult; dsimp only; split <;> rfl
@[simp] theorem State.lengthResult_lastBit (s : State) (m : RsMode) (n : Nat) : (s.lengthResult m n).lastBit = s.lastBit := by
  unfold State.lengthResult; dsimp only; split <;> rfl
@[simp] theorem State.lengthResult_dBits (s : State) (m : RsMode) (n : Nat) : (s.lengthResult m n).dBits = s.dBits := by
  unfold State.lengthResult; dsimp only; split <;> rfl
@[simp] theorem State.lengthResult_sram (s : State) (m : RsMode) (n : Nat) : (s.lengthResult m n).sram = s.sram := by
  unfold State.lengthResult; dsimp only; split <;> rfl
@[simp] theorem State.lengthResult_bram (s : State) (m : RsMode) (n : Nat) : (s.lengthResult m n).bram = s.bram := by
  unfold State.lengthResult; dsimp only; split <;> rfl
@[simp] theorem State.lengthResult_rst (s : State) (m : RsMode) (n : Nat) : (s.lengthResult m n).rst = s.rst := by
  unfold State.lengthResult; dsimp only; split <;> rfl
@[simp] theorem State.lengthResult_host (s : State) (m : RsMode) (n : Nat) : (s.lengthResult m n).host = s.host := by
  unfold State.lengthResult; dsimp only; split <;> rfl
@[simp] theorem State.lengthResult_replies (s : State) (m : RsMode) (n : Nat) : (s.lengthResult m n).replies = s.replies := by
  unfold State.lengthResult; dsimp only; split <;> rfl
@[simp] theorem State.lengthResult_draws (s : State) (m : RsMode) (n : Nat) : (s.lengthResult m n).draws = s.draws := by
  unfold State.lengthResult; dsimp only; split <;> rfl

/-! ### emit -/

@[simp] theorem State.emit_cfg (s : State) (b : Bool) : (s.emit b).cfg = s.cfg := by
  unfold State.emit; dsimp only; split <;> rfl
@[simp] theorem State.emit_ieDone (s : State) (b : Bool) : (s.emit b).ieDone = s.ieDone := by
  unfold State.emit; dsimp only; split <;> rfl
@[simp] theorem State.emit_ieErr (s : State) (b : Bool) : (s.emit b).ieErr = s.ieErr := by
  unfold State.emit; dsimp only; split <;> rfl
@[simp] theorem State.emit_done (s : State) (b : Bool) : (s.emit b).done = s.done := by
  unfold State.emit; dsimp only; split <;> rfl
@[simp] theorem State.emit_warnDegen (s : State) (b : Bool) : (s.emit b).warnDegen = s.warnDegen := by
  unfold State.emit; dsimp only; split <;> rfl
@[simp] theorem State.emit_err (s : State) (b : Bool) : (s.emit b).err = s.err := by
  unfold State.emit; dsimp only; split <;> rfl
@[simp] theorem State.emit_errIndex (s : State) (b : Bool) : (s.emit b).errIndex = s.errIndex := by
  unfold State.emit; dsimp only; split <;> rfl
@[simp] theorem State.emit_errCmd (s : State) (b : Bool) : (s.emit b).errCmd = s.errCmd := by
  unfold State.emit; dsimp only; split <;> rfl
@[simp] theorem State.emit_srcRate (s : State) (b : Bool) : (s.emit b).srcRate = s.srcRate := by
  unfold State.emit; dsimp only; split <;> rfl
@[simp] theorem State.emit_dstRate (s : State) (b : Bool) : (s.emit b).dstRate = s.dstRate := by
  unfold State.emit; dsimp only; split <;> rfl
@[simp] theorem State.emit_rsSrc (s : State) (b : Bool) : (s.emit b).rsSrc = s.rsSrc := by
  unfold State.emit; dsimp only; split <;> rfl
@[simp] theorem State.emit_rsDst (s : State) (b : Bool) : (s.emit b).rsDst = s.rsDst := by
  unfold State.emit; dsimp only; split <;> rfl
@[simp] theorem State.emit_rsLen (s : State) (b : Bool) : (s.emit b).rsLen = s.rsLen := by
  unfold State.emit; dsimp only; split <;> rfl
@[simp] theorem State.emit_rsOutLen (s : State) (b : Bool) : (s.emit b).rsOutLen = s.rsOutLen := by
  unfold State.emit; dsimp only; split <;> rfl
@[simp] theorem State.emit_qSrc (s : State) (b : Bool) : (s.emit b).qSrc = s.qSrc := by
  unfold State.emit; dsimp only; split <;> rfl
@[simp] theorem State.emit_qDst (s : State) (b : Bool) : (s.emit b).qDst = s.qDst := by
  unfold State.emit; dsimp only; split <;> rfl
@[simp] theorem State.emit_qLen (s : State) (b : Bool) : (s.emit b).qLen = s.qLen := by
  unfold State.emit; dsimp only; split <;> rfl
@[simp] theorem State.emit_qoneLo (s : State) (b : Bool) : (s.emit b).qoneLo = s.qoneLo := by
  unfold State.emit; dsimp only; split <;> rfl
@[simp] theorem State.emit_qoneHi (s : State) (b : Bool) : (s.emit b).qoneHi = s.qoneHi := by
  unfold State.emit; dsimp only; split <;> rfl
@[simp] theorem State.emit_qoneRes (s : State) (b : Bool) : (s.emit b).qoneRes = s.qoneRes := by
  unfold State.emit; dsimp only; split <;> rfl
@[simp] theorem State.emit_dSrc (s : State) (b : Bool) : (s.emit b).dSrc = s.dSrc := by
  unfold State.emit; dsimp only; split <;> rfl
@[simp] theorem State.emit_dLen (s : State) (b : Bool) : (s.emit b).dLen = s.dLen := by
  unfold State.emit; dsimp only; split <;> rfl
@[simp] theorem State.emit_acc (s : State) (b : Bool) : (s.emit b).acc = s.acc := by
  unfold State.emit; dsimp only; split <;> rfl
@[simp] theorem State.emit_lastBit (s : State) (b : Bool) : (s.emit b).lastBit = b := by
  unfold State.emit; dsimp only; split <;> rfl
@[simp] theorem State.emit_dBits (s : State) (b : Bool) : (s.emit b).dBits = s.dBits + 1 := by
  unfold State.emit; dsimp only; split <;> rfl
@[simp] theorem State.emit_sram (s : State) (b : Bool) : (s.emit b).sram = s.sram := by
  unfold State.emit; dsimp only; split <;> rfl
@[simp] theorem State.emit_rst (s : State) (b : Bool) : (s.emit b).rst = s.rst := by
  unfold State.emit; dsimp only; split <;> rfl
@[simp] theorem State.emit_host (s : State) (b : Bool) : (s.emit b).host = s.host := by
  unfold State.emit; dsimp only; split <;> rfl
@[simp] theorem State.emit_replies (s : State) (b : Bool) : (s.emit b).replies = s.replies := by
  unfold State.emit; dsimp only; split <;> rfl
@[simp] theorem State.emit_draws (s : State) (b : Bool) : (s.emit b).draws = s.draws := by
  unfold State.emit; dsimp only; split <;> rfl

/-! ### dstep and flush -/

@[simp] theorem State.dstep_cfg (s : State) (t : Byte) : (s.dstep t).cfg = s.cfg := by
  simp [State.dstep]
@[simp] theorem State.dstep_ieDone (s : State) (t : Byte) : (s.dstep t).ieDone = s.ieDone := by
  simp [State.dstep]
@[simp] theorem State.dstep_ieErr (s : State) (t : Byte) : (s.dstep t).ieErr = s.ieErr := by
  simp [State.dstep]
@[simp] theorem State.dstep_done (s : State) (t : Byte) : (s.dstep t).done = s.done := by
  simp [State.dstep]
@[simp] theorem State.dstep_warnDegen (s : State) (t : Byte) : (s.dstep t).warnDegen = s.warnDegen := by
  simp [State.dstep]
@[simp] theorem State.dstep_err (s : State) (t : Byte) : (s.dstep t).err = s.err := by
  simp [State.dstep]
@[simp] theorem State.dstep_errIndex (s : State) (t : Byte) : (s.dstep t).errIndex = s.errIndex := by
  simp [State.dstep]
@[simp] theorem State.dstep_errCmd (s : State) (t : Byte) : (s.dstep t).errCmd = s.errCmd := by
  simp [State.dstep]
@[simp] theorem State.dstep_srcRate (s : State) (t : Byte) : (s.dstep t).srcRate = s.srcRate := by
  simp [State.dstep]
@[simp] theorem State.dstep_dstRate (s : State) (t : Byte) : (s.dstep t).dstRate = s.dstRate := by
  simp [State.dstep]
@[simp] theorem State.dstep_rsSrc (s : State) (t : Byte) : (s.dstep t).rsSrc = s.rsSrc := by
  simp [State.dstep]
@[simp] theorem State.dstep_rsDst (s : State) (t : Byte) : (s.dstep t).rsDst = s.rsDst := by
  simp [State.dstep]
@[simp] theorem State.dstep_rsLen (s : State) (t : Byte) : (s.dstep t).rsLen = s.rsLen := by
  simp [State.dstep]
@[simp] theorem State.dstep_rsOutLen (s : State) (t : Byte) : (s.dstep t).rsOutLen = s.rsOutLen := by
  simp [State.dstep]
@[simp] theorem State.dstep_qSrc (s : State) (t : Byte) : (s.dstep t).qSrc = s.qSrc := by
  simp [State.dstep]
@[simp] theorem State.dstep_qDst (s : State) (t : Byte) : (s.dstep t).qDst = s.qDst := by
  simp [State.dstep]
@[simp] theorem State.dstep_qLen (s : State) (t : Byte) : (s.dstep t).qLen = s.qLen := by
  simp [State.dstep]
@[simp] theorem State.dstep_qoneLo (s : State) (t : Byte) : (s.dstep t).qoneLo = s.qoneLo := by
  simp [State.dstep]
@[simp] theorem State.dstep_qoneHi (s : State) (t : Byte) : (s.dstep t).qoneHi = s.qoneHi := by
  simp [State.dstep]
@[simp] theorem State.dstep_qoneRes (s : State) (t : Byte) : (s.dstep t).qoneRes = s.qoneRes := by
  simp [State.dstep]
@[simp] theorem State.dstep_dSrc (s : State) (t : Byte) : (s.dstep t).dSrc = s.dSrc := by
  simp [State.dstep]
@[simp] theorem State.dstep_dLen (s : State) (t : Byte) : (s.dstep t).dLen = s.dLen := by
  simp [State.dstep]
@[simp] theorem State.dstep_acc (s : State) (t : Byte) : (s.dstep t).acc = stepAcc s.acc t := by
  simp [State.dstep]
@[simp] theorem State.dstep_lastBit (s : State) (t : Byte) : (s.dstep t).lastBit = stepBit s.acc t := by
  simp [State.dstep]
@[simp] theorem State.dstep_dBits (s : State) (t : Byte) : (s.dstep t).dBits = s.dBits + 1 := by
  simp [State.dstep]
@[simp] theorem State.dstep_sram (s : State) (t : Byte) : (s.dstep t).sram = s.sram := by
  simp [State.dstep]
@[simp] theorem State.dstep_rst (s : State) (t : Byte) : (s.dstep t).rst = s.rst := by
  simp [State.dstep]
@[simp] theorem State.dstep_host (s : State) (t : Byte) : (s.dstep t).host = s.host := by
  simp [State.dstep]
@[simp] theorem State.dstep_replies (s : State) (t : Byte) : (s.dstep t).replies = s.replies := by
  simp [State.dstep]
@[simp] theorem State.dstep_draws (s : State) (t : Byte) : (s.dstep t).draws = s.draws := by
  simp [State.dstep]
@[simp] theorem State.flush_cfg (s : State) : s.flush.cfg = s.cfg := by
  unfold State.flush; split <;> rfl
@[simp] theorem State.flush_ieDone (s : State) : s.flush.ieDone = s.ieDone := by
  unfold State.flush; split <;> rfl
@[simp] theorem State.flush_ieErr (s : State) : s.flush.ieErr = s.ieErr := by
  unfold State.flush; split <;> rfl
@[simp] theorem State.flush_done (s : State) : s.flush.done = s.done := by
  unfold State.flush; split <;> rfl
@[simp] theorem State.flush_warnDegen (s : State) : s.flush.warnDegen = s.warnDegen := by
  unfold State.flush; split <;> rfl
@[simp] theorem State.flush_err (s : State) : s.flush.err = s.err := by
  unfold State.flush; split <;> rfl
@[simp] theorem State.flush_errIndex (s : State) : s.flush.errIndex = s.errIndex := by
  unfold State.flush; split <;> rfl
@[simp] theorem State.flush_errCmd (s : State) : s.flush.errCmd = s.errCmd := by
  unfold State.flush; split <;> rfl
@[simp] theorem State.flush_srcRate (s : State) : s.flush.srcRate = s.srcRate := by
  unfold State.flush; split <;> rfl
@[simp] theorem State.flush_dstRate (s : State) : s.flush.dstRate = s.dstRate := by
  unfold State.flush; split <;> rfl
@[simp] theorem State.flush_rsSrc (s : State) : s.flush.rsSrc = s.rsSrc := by
  unfold State.flush; split <;> rfl
@[simp] theorem State.flush_rsDst (s : State) : s.flush.rsDst = s.rsDst := by
  unfold State.flush; split <;> rfl
@[simp] theorem State.flush_rsLen (s : State) : s.flush.rsLen = s.rsLen := by
  unfold State.flush; split <;> rfl
@[simp] theorem State.flush_rsOutLen (s : State) : s.flush.rsOutLen = s.rsOutLen := by
  unfold State.flush; split <;> rfl
@[simp] theorem State.flush_qSrc (s : State) : s.flush.qSrc = s.qSrc := by
  unfold State.flush; split <;> rfl
@[simp] theorem State.flush_qDst (s : State) : s.flush.qDst = s.qDst := by
  unfold State.flush; split <;> rfl
@[simp] theorem State.flush_qLen (s : State) : s.flush.qLen = s.qLen := by
  unfold State.flush; split <;> rfl
@[simp] theorem State.flush_qoneLo (s : State) : s.flush.qoneLo = s.qoneLo := by
  unfold State.flush; split <;> rfl
@[simp] theorem State.flush_qoneHi (s : State) : s.flush.qoneHi = s.qoneHi := by
  unfold State.flush; split <;> rfl
@[simp] theorem State.flush_qoneRes (s : State) : s.flush.qoneRes = s.qoneRes := by
  unfold State.flush; split <;> rfl
@[simp] theorem State.flush_dSrc (s : State) : s.flush.dSrc = s.dSrc := by
  unfold State.flush; split <;> rfl
@[simp] theorem State.flush_dLen (s : State) : s.flush.dLen = s.dLen := by
  unfold State.flush; split <;> rfl
@[simp] theorem State.flush_acc (s : State) : s.flush.acc = s.acc := by
  unfold State.flush; split <;> rfl
@[simp] theorem State.flush_lastBit (s : State) : s.flush.lastBit = s.lastBit := by
  unfold State.flush; split <;> rfl
@[simp] theorem State.flush_dBits (s : State) : s.flush.dBits = s.dBits := by
  unfold State.flush; split <;> rfl
@[simp] theorem State.flush_sram (s : State) : s.flush.sram = s.sram := by
  unfold State.flush; split <;> rfl
@[simp] theorem State.flush_rst (s : State) : s.flush.rst = s.rst := by
  unfold State.flush; split <;> rfl
@[simp] theorem State.flush_host (s : State) : s.flush.host = s.host := by
  unfold State.flush; split <;> rfl
@[simp] theorem State.flush_replies (s : State) : s.flush.replies = s.replies := by
  unfold State.flush; split <;> rfl
@[simp] theorem State.flush_draws (s : State) : s.flush.draws = s.draws := by
  unfold State.flush; split <;> rfl

end Sys2Proof.Machine
end

