-- ==== Sys2Proof/Laws/Bus.lean ====
section
/-! SUPPORT. What a step can do: the host's moves, the address map, issuing a command. -/

namespace Sys2Proof.Machine

theorem step_nil {s : State} (h : s.host = []) : step s = .next s := by simp [step, h]

theorem step_cons {s : State} {m : HostMove} {rest : List HostMove} (h : s.host = m :: rest) :
    step s = perform m (s.withHost rest) := by simp [step, h]

@[simp] theorem regionAt_csr (cfg : Config) (c : Csr) : regionAt cfg c.offset = .csr c := by cases c <;> rfl

theorem regionAt_reserved (cfg : Config) {offset : Nat} (h1 : 0x60 ≤ offset) (h2 : offset < 0x100) :
    regionAt cfg offset = .reserved := by
  have : csrAt offset = none := by
    simp only [csrAt, List.find?_eq_none]
    intro c _
    have : c.offset < 0x60 := by cases c <;> decide
    simp
    omega
  rw [regionAt, if_pos (by omega), if_pos h2, this]

theorem regionAt_sram (cfg : Config) {j : Nat} (high : Bool) (h : j < cfg.sampleWords) (hb : j < 131072) :
    regionAt cfg (0x100000 + 8 * j + if high then 4 else 0) = .sram j high := by
  cases high
  · simp only [Bool.false_eq_true, if_false, Nat.add_zero]
    rw [regionAt, if_neg (by omega), if_pos (by omega), if_pos (by omega), Nat.add_sub_cancel_left,
      Nat.mul_div_cancel_left _ (by omega), Nat.mul_mod_right]
    rfl
  · simp only [if_true]
    rw [regionAt, if_neg (by omega), if_pos (by omega), if_pos (by omega)]
    simp only [Region.sram.injEq]
    exact ⟨by omega, decide_eq_true (by omega)⟩

theorem regionAt_bram (cfg : Config) {k : Nat} (h : k < cfg.byteWords) (hb : k < 1048576) :
    regionAt cfg (0x200000 + k) = .bram k := by
  rw [regionAt, if_neg (by omega), if_neg (by omega), if_pos (by omega), if_pos (by omega), Nat.add_sub_cancel_left]

/-- Where an accepted access goes. -/
theorem step_read {s : State} {offset : Nat} {rest : List HostMove} (h : s.accesses offset .read rest) (h4 : offset % 4 = 0)
    (hlt : offset < 0x400000) : step s = .next (busRead (regionAt s.cfg offset) (s.withHost rest)) := by
  obtain ⟨hr, hh⟩ := h
  rw [step_cons hh]
  have hc : s.cfg.blockBase + offset < s.cfg.blockBase + windowSize := by simp [windowSize]; omega
  simp [perform, accessAt, busAccess, State.claims, State.target, hr, h4, hc]

@[inherit_doc step_read]
theorem step_write {s : State} {offset : Nat} {v : Word} {rest : List HostMove} (h : s.accesses offset (.write v) rest)
    (h4 : offset % 4 = 0) (hlt : offset < 0x400000) : step s = busWrite (regionAt s.cfg offset) v (s.withHost rest) := by
  obtain ⟨hr, hh⟩ := h
  rw [step_cons hh]
  have hc : s.cfg.blockBase + offset < s.cfg.blockBase + windowSize := by simp [windowSize]; omega
  simp [perform, accessAt, busAccess, State.claims, State.target, hr, h4, hc]

/-- A write to CMD issues its word. -/
theorem step_issue {s : State} {w : Word} {rest : List HostMove} (h : s.issues w rest) :
    step s = issueCommand w (s.answered rest .done) := by
  have h' : s.accesses (Csr.offset .cmd) (.write w) rest := h
  rw [step_write h' (by decide) (by decide), regionAt_csr]
  rfl

/-- What issuing a command can come to. -/
theorem issueCommand_cases (w : Word) (s : State) :
    (s.err ≠ .none ∧ issueCommand w s = .next s) ∨
    (s.err = .none ∧ ∃ i, decode w = .ok i ∧ issueCommand w s = exec i s) ∨
    (s.err = .none ∧ ∃ e, decode w = .error e ∧ issueCommand w s = .next (s.raise .illegal 0 w)) := by
  unfold issueCommand
  by_cases he : s.err = .none
  · simp only [he, ne_eq, not_true_eq_false, if_false, true_and, false_and, false_or]
    cases hd : decode w with
    | ok i => exact .inl ⟨i, rfl, rfl⟩
    | error e => exact .inr ⟨e, rfl, rfl⟩
  · exact .inl ⟨he, by simp [he]⟩

/-- What a write to a register other than CMD can come to: a next state in which only CTRL, the clearing of STATUS, or an operand register has
changed. -/
theorem writeCsr_next {c : Csr} (h : c ≠ .cmd) (v : Word) (s : State) : ∃ t, writeCsr c v s = .next t ∧
    t.cfg = s.cfg ∧ t.acc = s.acc ∧ t.pend = s.pend ∧ t.cnt = s.cnt ∧ t.lastBit = s.lastBit ∧ t.dBits = s.dBits ∧
    t.sram = s.sram ∧ t.bram = s.bram ∧ t.rst = s.rst ∧ t.host = s.host ∧ t.replies = s.replies ∧ t.draws = s.draws ∧
    t.rsOutLen = s.rsOutLen ∧ t.qoneRes = s.qoneRes ∧
    (c ≠ .status → t.done = s.done ∧ t.warnDegen = s.warnDegen ∧ t.err = s.err ∧ t.errIndex = s.errIndex ∧ t.errCmd = s.errCmd) ∧
    (c = .status → t = s.writeStatus v) := by
  cases c <;> first
    | exact absurd rfl h
    | exact ⟨_, rfl, by simp⟩

/-- What a step can come to: idle, a reset move, a read or an unanswered access that only replies, a memory window write, a register
write, or an issued command. -/
theorem step_cases (s : State) :
    (s.host = [] ∧ step s = .next s) ∨
    (∃ level rest, s.host = .resetLine level :: rest ∧ step s = .next (setResetLine level (s.withHost rest))) ∨
    (∃ rest r, step s = .next (s.answered rest r)) ∨
    (∃ rest j high v, j < s.cfg.sampleWords ∧ step s = .next ((s.answered rest .done).writeSramHalf j high v)) ∨
    (∃ rest k v, k < s.cfg.byteWords ∧ k % 4 = 0 ∧ step s = .next ((s.answered rest .done).writeBramWord k v)) ∨
    (∃ rest c v, c ≠ Csr.cmd ∧ s.accesses c.offset (.write v) rest ∧ step s = writeCsr c v (s.answered rest .done)) ∨
    (∃ rest w, s.issues w rest ∧ step s = issueCommand w (s.answered rest .done)) := by
  cases hh : s.host with
  | nil => exact .inl ⟨rfl, step_nil hh⟩
  | cons m rest =>
    right
    rw [step_cons hh]
    cases m with
    | resetLine level => exact .inl ⟨level, rest, rfl, rfl⟩
    | access a =>
      right
      by_cases hc : (s.withHost rest).claims a.addr
      swap
      · exact .inl ⟨rest, .notClaimed, by simp [perform, busAccess, hc, State.answered]⟩
      simp only [perform, busAccess, hc, if_true]
      by_cases ht : (s.withHost rest).target a = .unmapped
      · rw [ht]
        left
        cases a.op <;> exact ⟨rest, .busError, by simp [busRead, busWrite, State.answered]⟩
      · have hok : s.rst = false ∧ a.width = .w32 ∧ (a.addr - s.cfg.blockBase) % 4 = 0 ∧
            (s.withHost rest).target a = regionAt s.cfg (a.addr - s.cfg.blockBase) := by
          unfold State.target at ht ⊢
          split at ht
          · exact absurd rfl ht
          · rename_i hn
            simp only [State.withHost_rst, State.withHost_cfg, Bool.or_eq_true, bne_iff_ne, ne_eq, not_or, not_not,
              Bool.not_eq_true] at hn
            exact ⟨hn.1.1, hn.1.2, hn.2, by simp [hn]⟩
        obtain ⟨hr, hw, h4, htar⟩ := hok
        rw [htar] at ht ⊢
        have hbase : s.cfg.blockBase ≤ a.addr := by
          exact (of_decide_eq_true hc).1
        cases hop : a.op with
        | read =>
          left
          cases hreg : regionAt s.cfg (a.addr - s.cfg.blockBase) with
          | csr c => exact ⟨rest, _, rfl⟩
          | reserved => exact ⟨rest, _, rfl⟩
          | unmapped => exact absurd hreg ht
          | sram j high => exact ⟨rest, _, rfl⟩
          | bram k => exact ⟨rest, _, rfl⟩
        | write v =>
          cases hreg : regionAt s.cfg (a.addr - s.cfg.blockBase) with
          | unmapped => exact absurd hreg ht
          | reserved => exact .inl ⟨rest, .done, rfl⟩
          | sram j high =>
            refine .inr (.inl ⟨rest, j, high, v, ?_, rfl⟩)
            unfold regionAt at hreg
            split_ifs at hreg
            · split at hreg <;> cases hreg
            · cases hreg; omega
          | bram k =>
            refine .inr (.inr (.inl ⟨rest, k, v, ?_, ?_, rfl⟩))
            · unfold regionAt at hreg
              split_ifs at hreg
              · split at hreg <;> cases hreg
              · simp only [Region.bram.injEq] at hreg; omega
            · unfold regionAt at hreg
              split_ifs at hreg
              · split at hreg <;> cases hreg
              · simp only [Region.bram.injEq] at hreg; omega
          | csr c =>
            have hoff : a.addr = s.cfg.blockBase + c.offset := by
              have : a.addr - s.cfg.blockBase = c.offset := by
                unfold regionAt at hreg
                split_ifs at hreg
                split at hreg
                · rename_i d hd
                  cases hreg
                  have := List.find?_some hd
                  simpa using (of_decide_eq_true this).symm
                · cases hreg
              omega
            have hacc : s.accesses c.offset (.write v) rest :=
              ⟨hr, by rw [hh, accessAt, ← hoff, ← hw, ← hop]⟩
            by_cases hcmd : c = .cmd
            · subst hcmd
              exact .inr (.inr (.inr (.inr ⟨rest, v, hacc, rfl⟩)))
            · exact .inr (.inr (.inr (.inl ⟨rest, c, v, hcmd, hacc, rfl⟩)))

end Sys2Proof.Machine
end

