-- ==== Sys2Proof/Laws/Memory.lean ====
section
/-! SUPPORT. The laws of the memory operations: read after write, the canonical form, wide accesses. -/

namespace Sys2Proof.Machine

@[simp] theorem Memory.read_write_same (m : Memory) (a : Nat) (v : Byte) : Memory.read (Memory.write m a v) a = some v := by
  induction m with
  | nil => simp [Memory.write, Memory.read]
  | cons c m ih =>
    obtain ⟨k, x⟩ := c
    unfold Memory.write
    split
    · simp [Memory.read]
    · split
      · simp [Memory.read]
      · rename_i h1 h2
        simp [Memory.read, Ne.symm h2, ih]

theorem Memory.read_write_other (m : Memory) {a b : Nat} (v : Byte) (h : a ≠ b) :
    Memory.read (Memory.write m a v) b = Memory.read m b := by
  induction m with
  | nil => simp [Memory.write, Memory.read, h]
  | cons c m ih =>
    obtain ⟨k, x⟩ := c
    unfold Memory.write
    split
    · simp [Memory.read, h]
    · split
      · rename_i h1 h2
        subst h2
        simp [Memory.read, h]
      · simp [Memory.read, ih]

theorem Memory.read_write (m : Memory) (a b : Nat) (v : Byte) :
    Memory.read (Memory.write m a v) b = if a = b then some v else Memory.read m b := by
  split
  · subst_vars; simp
  · exact Memory.read_write_other m v ‹_›

/-- Every address a write lists was listed before or is the address written. -/
theorem Memory.mem_write {m : Memory} {a : Nat} {v : Byte} {x : Host.Cell} (h : x ∈ Memory.write m a v) :
    x ∈ m ∨ x = (a, v) := by
  induction m with
  | nil => simpa [Memory.write] using h
  | cons c m ih =>
    obtain ⟨k, y⟩ := c
    unfold Memory.write at h
    split at h
    · simp only [List.mem_cons] at h ⊢; tauto
    · split at h
      · simp only [List.mem_cons] at h ⊢; tauto
      · simp only [List.mem_cons] at h ⊢
        rcases h with h | h
        · exact .inl (.inl h)
        · rcases ih h with h | h <;> tauto

theorem Memory.write_wf {m : Memory} (h : Memory.wf m) (a : Nat) (v : Byte) : Memory.wf (Memory.write m a v) := by
  induction m with
  | nil => simp [Memory.write]
  | cons c m ih =>
    obtain ⟨k, y⟩ := c
    obtain ⟨hk, hm⟩ := List.pairwise_cons.mp h
    unfold Memory.write
    split
    · rename_i hlt
      refine List.pairwise_cons.mpr ⟨?_, h⟩
      intro x hx
      rcases List.mem_cons.mp hx with rfl | hx
      · exact hlt
      · exact hlt.trans (hk x hx)
    · split
      · rename_i heq
        subst heq
        exact List.pairwise_cons.mpr ⟨hk, hm⟩
      · refine List.pairwise_cons.mpr ⟨?_, ih hm⟩
        intro x hx
        rcases Memory.mem_write hx with hx | rfl
        · exact hk x hx
        · simp only; omega

/-- Two memories in canonical form that read alike are equal. -/
theorem Memory.ext {m n : Memory} (hm : Memory.wf m) (hn : Memory.wf n) (h : ∀ a, Memory.read m a = Memory.read n a) :
    m = n := by
  have low : ∀ (m : Memory) (k : Nat), (∀ x ∈ m, k < x.1) → Memory.read m k = none := by
    intro m k hk
    induction m with
    | nil => rfl
    | cons c m ih =>
      obtain ⟨j, y⟩ := c
      have := hk (j, y) (by simp)
      simp only at this
      rw [Memory.read, if_neg (by omega)]
      exact ih fun x hx => hk x (by simp [hx])
  induction m generalizing n with
  | nil =>
    cases n with
    | nil => rfl
    | cons c n =>
      have := h c.1
      simp [Memory.read] at this
  | cons c m ih =>
    obtain ⟨k, x⟩ := c
    cases n with
    | nil =>
      have := h k
      simp [Memory.read] at this
    | cons d n =>
      obtain ⟨l, y⟩ := d
      obtain ⟨hk, hm'⟩ := List.pairwise_cons.mp hm
      obtain ⟨hl, hn'⟩ := List.pairwise_cons.mp hn
      have key : k = l := by
        by_contra hne
        rcases Nat.lt_or_gt_of_ne hne with hlt | hlt
        · have h1 := h k
          rw [Memory.read, if_pos rfl, Memory.read, if_neg (by omega), low n k fun x hx => hlt.trans (hl x hx)] at h1
          simp at h1
        · have h1 := h l
          rw [Memory.read, if_neg (by omega), Memory.read, if_pos rfl, low m l fun x hx => hlt.trans (hk x hx)] at h1
          simp at h1
      subst key
      have hxy : x = y := by simpa [Memory.read] using h k
      subst hxy
      congr 1
      refine ih hm' hn' fun a => ?_
      by_cases ha : k = a
      · subst ha; rw [low m k hk, low n k hl]
      · simpa [Memory.read, ha] using h a

/-! ### Wide accesses -/

theorem Memory.read_writeLE_outside (m : Memory) (a n v : Nat) {b : Nat} (h : b < a ∨ a + n ≤ b) :
    Memory.read (Memory.writeLE m a n v) b = Memory.read m b := by
  induction n generalizing m a v with
  | zero => rfl
  | succ n ih =>
    rw [Memory.writeLE, ih _ _ _ (by omega), Memory.read_write_other _ _ (by omega)]

theorem Memory.read_writeLE_inside (m : Memory) (a n v i : Nat) (h : i < n) :
    Memory.read (Memory.writeLE m a n v) (a + i) = some (BitVec.ofNat 8 (v / 256 ^ i)) := by
  induction n generalizing m a v i with
  | zero => omega
  | succ n ih =>
    rw [Memory.writeLE]
    cases i with
    | zero => rw [Memory.read_writeLE_outside _ _ _ _ (by omega)]; simp
    | succ i =>
      rw [show a + (i + 1) = a + 1 + i by omega, ih _ _ _ _ (by omega), Nat.div_div_eq_div_mul, pow_succ, mul_comm]

theorem Memory.mem_writeLE {m : Memory} {a n v : Nat} {x : Host.Cell} (h : x ∈ Memory.writeLE m a n v) :
    x ∈ m ∨ (a ≤ x.1 ∧ x.1 < a + n) := by
  induction n generalizing m a v with
  | zero => exact .inl h
  | succ n ih =>
    rcases ih h with h | h
    · rcases Memory.mem_write h with h | rfl
      · exact .inl h
      · exact .inr ⟨Nat.le_refl _, by simp⟩
    · exact .inr (by omega)

theorem Memory.writeLE_wf {m : Memory} (h : Memory.wf m) (a n v : Nat) : Memory.wf (Memory.writeLE m a n v) := by
  induction n generalizing m a v with
  | zero => exact h
  | succ n ih => exact ih (Memory.write_wf h _ _) _ _

/-- A wide read depends only on the bytes it covers. -/
theorem Memory.readLE_congr {m m' : Memory} {a n : Nat}
    (h : ∀ b, a ≤ b → b < a + n → Memory.read m' b = Memory.read m b) : Memory.readLE m' a n = Memory.readLE m a n := by
  induction n generalizing a with
  | zero => rfl
  | succ n ih =>
    rw [Memory.readLE, Memory.readLE, h a (by omega) (by omega), ih fun b h1 h2 => h b (by omega) (by omega)]

theorem Memory.readLE_writeLE_same (m : Memory) (a n v : Nat) :
    Memory.readLE (Memory.writeLE m a n v) a n = some (v % 256 ^ n) := by
  induction n generalizing m a v with
  | zero => simp [Memory.readLE, Nat.mod_one]
  | succ n ih =>
    rw [Memory.readLE]
    have h0 : Memory.read (Memory.writeLE m a (n + 1) v) a = some (BitVec.ofNat 8 (v / 256 ^ 0)) :=
      Memory.read_writeLE_inside m a (n + 1) v 0 (by omega)
    rw [h0, Memory.writeLE, ih]
    simp only [pow_zero, Nat.div_one, BitVec.toNat_ofNat, Option.some.injEq]
    have split : v % 256 ^ (n + 1) = v % 256 + 256 * (v / 256 % 256 ^ n) := by rw [pow_succ', Nat.mod_mul]
    rw [split]

/-- A wide read is defined exactly when every byte it covers is written. -/
theorem Memory.readLE_isSome_iff (m : Memory) (a n : Nat) :
    (Memory.readLE m a n).isSome ↔ ∀ i < n, (Memory.read m (a + i)).isSome := by
  induction n generalizing a with
  | zero => simp [Memory.readLE]
  | succ n ih =>
    rw [Memory.readLE]
    constructor
    · intro h i hi
      cases hb : Memory.read m a with
      | none => simp [hb] at h
      | some b =>
        cases hr : Memory.readLE m (a + 1) n with
        | none => simp [hb, hr] at h
        | some r =>
          cases i with
          | zero => simp [hb]
          | succ i =>
            have := (ih (a + 1)).mp (by simp [hr]) i (by omega)
            rwa [show a + (i + 1) = a + 1 + i by omega]
    · intro h
      have h0 : (Memory.read m a).isSome := h 0 (by omega)
      have hr := (ih (a + 1)).mpr fun i hi => by
        have := h (i + 1) (by omega)
        rwa [show a + 1 + i = a + (i + 1) by omega]
      obtain ⟨b, hb⟩ := Option.isSome_iff_exists.mp h0
      obtain ⟨r, hr⟩ := Option.isSome_iff_exists.mp hr
      simp [hb, hr]

/-! ### Samples -/

@[simp] theorem Memory.readSample_writeSample_same (m : Memory) (j : Nat) (v : Sample) :
    Memory.readSample (Memory.writeSample m j v) j = some v := by
  rw [Memory.readSample, Memory.writeSample, Memory.readLE_writeLE_same]
  simp only [Option.map_some, Option.some.injEq]
  apply BitVec.eq_of_toNat_eq
  have := v.isLt
  simp only [BitVec.toNat_ofNat]
  norm_num
  omega

theorem Memory.readSample_congr {m m' : Memory} {j : Nat}
    (h : ∀ b, 8 * j ≤ b → b < 8 * j + 8 → Memory.read m' b = Memory.read m b) :
    Memory.readSample m' j = Memory.readSample m j := by
  rw [Memory.readSample, Memory.readSample, Memory.readLE_congr h]

theorem Memory.read_writeSample_outside (m : Memory) (j : Nat) (v : Sample) {b : Nat} (h : b < 8 * j ∨ 8 * j + 8 ≤ b) :
    Memory.read (Memory.writeSample m j v) b = Memory.read m b :=
  Memory.read_writeLE_outside _ _ _ _ h

theorem Memory.readSample_writeSample_other (m : Memory) {j k : Nat} (v : Sample) (h : j ≠ k) :
    Memory.readSample (Memory.writeSample m j v) k = Memory.readSample m k :=
  Memory.readSample_congr fun _ _ _ => Memory.read_writeSample_outside _ _ _ (by omega)

theorem Memory.writeSample_wf {m : Memory} (h : Memory.wf m) (j : Nat) (v : Sample) : Memory.wf (Memory.writeSample m j v) :=
  Memory.writeLE_wf h _ _ _

theorem Memory.mem_writeSample {m : Memory} {j : Nat} {v : Sample} {x : Host.Cell} (h : x ∈ Memory.writeSample m j v) :
    x ∈ m ∨ (8 * j ≤ x.1 ∧ x.1 < 8 * j + 8) :=
  Memory.mem_writeLE h

/-! ### Byte by byte -/

/-- A byte of a number is the same byte of its bit vector. -/
theorem ofNat_div_eq_extract {w : Nat} (v : BitVec w) (i : Nat) :
    BitVec.ofNat 8 (v.toNat / 256 ^ i) = v.extractLsb' (8 * i) 8 := by
  apply BitVec.eq_of_toNat_eq
  rw [BitVec.toNat_ofNat, BitVec.extractLsb'_toNat, Nat.shiftRight_eq_div_pow, pow_mul]
  norm_num

theorem Memory.readLE_bytes {m : Memory} {a n v : Nat} (h : Memory.readLE m a n = some v) {i : Nat} (hi : i < n) :
    Memory.read m (a + i) = some (BitVec.ofNat 8 (v / 256 ^ i)) := by
  induction n generalizing a v i with
  | zero => omega
  | succ n ih =>
    rw [Memory.readLE] at h
    cases hr : Memory.read m a with
    | none => rw [hr] at h; cases h
    | some b =>
      cases hl : Memory.readLE m (a + 1) n with
      | none => rw [hr, hl] at h; cases h
      | some r =>
        rw [hr, hl] at h
        cases h
        have hb := b.isLt
        cases i with
        | zero =>
          rw [Nat.add_zero, hr, pow_zero, Nat.div_one]
          congr 1
          apply BitVec.eq_of_toNat_eq
          rw [BitVec.toNat_ofNat]
          omega
        | succ i =>
          rw [show a + (i + 1) = a + 1 + i by omega, ih hl (by omega), pow_succ', ← Nat.div_div_eq_div_mul]
          congr 3
          omega

/-- A sample is its eight bytes, the least significant at the lowest address. -/
theorem Memory.readSample_eq_some_iff {m : Memory} {j : Nat} {x : Sample} :
    Memory.readSample m j = some x ↔ ∀ i < 8, Memory.read m (8 * j + i) = some (x.extractLsb' (8 * i) 8) := by
  constructor
  · intro h i hi
    unfold Memory.readSample at h
    rw [Option.map_eq_some_iff] at h
    obtain ⟨n, hn, rfl⟩ := h
    have hlt : n < 2 ^ 64 := by
      have := Memory.readLE_writeLE_same m (8 * j) 8 n
      have hsame : Memory.readLE (Memory.writeLE m (8 * j) 8 n) (8 * j) 8 = Memory.readLE m (8 * j) 8 :=
        Memory.readLE_congr fun b h1 h2 => by
          have e := Memory.read_writeLE_inside m (8 * j) 8 n (b - 8 * j) (by omega)
          have e' := Memory.readLE_bytes hn (i := b - 8 * j) (by omega)
          rw [show 8 * j + (b - 8 * j) = b by omega] at e e'
          rw [e, e']
      rw [hsame, hn] at this
      have : n = n % 256 ^ 8 := Option.some.inj this
      omega
    rw [Memory.readLE_bytes hn hi, ← ofNat_div_eq_extract, BitVec.toNat_ofNat, Nat.mod_eq_of_lt hlt]
  · intro h
    rw [← Memory.readSample_writeSample_same m j x]
    symm
    refine Memory.readSample_congr fun b h1 h2 => ?_
    have e := Memory.read_writeLE_inside m (8 * j) 8 x.toNat (b - 8 * j) (by omega)
    have e' := h (b - 8 * j) (by omega)
    rw [show 8 * j + (b - 8 * j) = b by omega] at e e'
    rw [Memory.writeSample, e, e', ofNat_div_eq_extract]

theorem getLsbD_halves (hi lo : Word) (n : Nat) :
    (hi ++ lo : Sample).getLsbD n = if n < 32 then lo.getLsbD n else hi.getLsbD (n - 32) := BitVec.getLsbD_append

/-- Writing the low half of a sample's cell (R48). -/
theorem Memory.readSample_write_low {m : Memory} {j : Nat} {x : Sample} (v : Word)
    (high : ∀ i, 4 ≤ i → i < 8 → Memory.read m (8 * j + i) = some (x.extractLsb' (8 * i) 8)) :
    Memory.readSample (Memory.writeLE m (8 * j) 4 v.toNat) j = some (x.extractLsb' 32 32 ++ v) := by
  rw [Memory.readSample_eq_some_iff]
  intro i hi
  by_cases h4 : i < 4
  · rw [Memory.read_writeLE_inside _ _ _ _ _ h4, ofNat_div_eq_extract]
    congr 1
    apply BitVec.eq_of_getLsbD_eq
    intro k hk
    simp only [BitVec.getLsbD_extractLsb', getLsbD_halves, hk, if_pos (show 8 * i + k < 32 by omega)]
  · rw [Memory.read_writeLE_outside _ _ _ _ (by omega), high i (by omega) hi]
    congr 1
    apply BitVec.eq_of_getLsbD_eq
    intro k hk
    simp only [BitVec.getLsbD_extractLsb', getLsbD_halves, hk, if_neg (show ¬ 8 * i + k < 32 by omega)]
    simp [show 8 * i + k - 32 < 32 by omega, show 32 + (8 * i + k - 32) = 8 * i + k by omega]

/-- Writing the high half of a sample's cell (R48). -/
theorem Memory.readSample_write_high {m : Memory} {j : Nat} {x : Sample} (v : Word)
    (low : ∀ i < 4, Memory.read m (8 * j + i) = some (x.extractLsb' (8 * i) 8)) :
    Memory.readSample (Memory.writeLE m (8 * j + 4) 4 v.toNat) j = some (v ++ x.extractLsb' 0 32) := by
  rw [Memory.readSample_eq_some_iff]
  intro i hi
  by_cases h4 : i < 4
  · rw [Memory.read_writeLE_outside _ _ _ _ (by omega), low i h4]
    congr 1
    apply BitVec.eq_of_getLsbD_eq
    intro k hk
    simp only [BitVec.getLsbD_extractLsb', getLsbD_halves, hk, if_pos (show 8 * i + k < 32 by omega)]
    simp [show 8 * i + k < 32 by omega]
  · have e := Memory.read_writeLE_inside m (8 * j + 4) 4 v.toNat (i - 4) (by omega)
    rw [show 8 * j + 4 + (i - 4) = 8 * j + i by omega] at e
    rw [e, ofNat_div_eq_extract]
    congr 1
    apply BitVec.eq_of_getLsbD_eq
    intro k hk
    simp only [BitVec.getLsbD_extractLsb', getLsbD_halves, hk, if_neg (show ¬ 8 * i + k < 32 by omega)]
    simp [show 8 * (i - 4) + k = 8 * i + k - 32 by omega]

/-- A sample with one unwritten byte counts as unwritten (R53). -/
theorem Memory.readSample_eq_none {m : Memory} {j i : Nat} (hi : i < 8) (h : Memory.read m (8 * j + i) = none) :
    Memory.readSample m j = none := by
  cases hx : Memory.readSample m j with
  | none => rfl
  | some x => rw [Memory.readSample_eq_some_iff.mp hx i hi] at h; cases h

end Sys2Proof.Machine
end

