-- ==== Sys2Proof/Laws/Operands.lean ====
section
/-! SUPPORT. Regions as inequalities. -/

namespace Sys2Proof.Machine

@[simp] theorem fits_eq_true (base len depth : Nat) : fits base len depth = true ↔ base + len ≤ depth := by simp [fits]

@[simp] theorem fits_eq_false (base len depth : Nat) : fits base len depth = false ↔ depth < base + len := by simp [fits]

theorem overlap_eq_true {a m b n : Nat} : overlap a m b n = true ↔ 0 < m ∧ 0 < n ∧ a < b + n ∧ b < a + m := by
  simp [overlap, Nat.pos_iff_ne_zero]

theorem overlap_eq_false {a m b n : Nat} : overlap a m b n = false ↔ m = 0 ∨ n = 0 ∨ a + m ≤ b ∨ b + n ≤ a := by
  simp only [overlap, decide_eq_false_iff_not]
  omega

/-- Two regions that do not overlap share no index. -/
theorem ne_of_no_overlap {a m b n i j : Nat} (h : overlap a m b n = false) (hi : i < m) (hj : j < n) : a + i ≠ b + j := by
  rw [overlap_eq_false] at h
  omega

end Sys2Proof.Machine
end

