-- ==== Sys2Proof/Laws/Dpcm.lean ====
section
/-! SUPPORT. What the packer, a DPCM step and DENC's loop do. -/

namespace Sys2Proof.Machine

/-! ### The reference -/

theorem dpcmAcc_append (acc : Byte) (ts us : List Byte) : dpcmAcc acc (ts ++ us) = dpcmAcc (dpcmAcc acc ts) us := by
  simp [dpcmAcc]

theorem dpcmBits_append (acc : Byte) (ts us : List Byte) :
    dpcmBits acc (ts ++ us) = dpcmBits acc ts ++ dpcmBits (dpcmAcc acc ts) us := by
  induction ts generalizing acc with
  | nil => rfl
  | cons t ts ih => simp [dpcmBits, ih, dpcmAcc]

@[simp] theorem dpcmBits_length (acc : Byte) (ts : List Byte) : (dpcmBits acc ts).length = ts.length := by
  induction ts generalizing acc with
  | nil => rfl
  | cons t ts ih => simp [dpcmBits, ih]

@[simp] theorem State.pendBits_length (s : State) : s.pendBits.length = s.cnt.toNat := by simp [State.pendBits]

/-! ### One emitted bit -/

theorem testBit_two_mul_add (p : Nat) (b : Bool) (k : Nat) :
    (2 * p + b.toNat).testBit k = if k = 0 then b else p.testBit (k - 1) := by
  cases k with
  | zero => cases b <;> simp [Nat.testBit_zero, Nat.add_mod]
  | succ k =>
    have : (2 * p + b.toNat) / 2 = p := by cases b <;> (simp only [Bool.toNat_false, Bool.toNat_true]; omega)
    simp [Nat.testBit_succ, this]

theorem cnt_lt (s : State) : s.cnt.toNat < 8 := s.cnt.isLt

/-- The pending bits of a packer whose number is `p`. -/
theorem State.pendBits_get (s : State) {m : Nat} (h : m < s.cnt.toNat) :
    s.pendBits[m]? = some (s.pend.toNat.testBit (s.cnt.toNat - 1 - m)) := by
  simp [State.pendBits, h, BitVec.getLsbD]

theorem State.emit_eq_short {s : State} (b : Bool) (h : s.cnt.toNat ≠ 7) : s.emit b =
    { s with lastBit := b, dBits := s.dBits + 1, pend := BitVec.ofNat 7 (2 * s.pend.toNat + b.toNat), cnt := s.cnt + 1 } :=
  if_neg (by omega)

theorem State.emit_eq_full {s : State} (b : Bool) (h : s.cnt.toNat = 7) : s.emit b =
    State.writeByte { s with lastBit := b, dBits := s.dBits + 1 } (2 * s.pend.toNat + b.toNat) :=
  if_pos (by omega)

/-- The effect of one emitted bit that does not complete a byte (R102). -/
theorem State.emit_short {s : State} (b : Bool) (h : s.cnt.toNat ≠ 7) :
    (s.emit b).bram = s.bram ∧ (s.emit b).dWptr = s.dWptr ∧ (s.emit b).pend = BitVec.ofNat 7 (2 * s.pend.toNat + b.toNat) ∧
    (s.emit b).cnt = s.cnt + 1 := by
  rw [State.emit_eq_short b h]
  exact ⟨rfl, rfl, rfl, rfl⟩

/-- The effect of one emitted bit that completes a byte (R102, R103). -/
theorem State.emit_full {s : State} (b : Bool) (h : s.cnt.toNat = 7) :
    (s.emit b).bram = Memory.write s.bram s.dWptr.toNat (BitVec.ofNat 8 (2 * s.pend.toNat + b.toNat)) ∧
    (s.emit b).dWptr = s.dWptr + 1 ∧ (s.emit b).pend = 0 ∧ (s.emit b).cnt = 0 := by
  rw [State.emit_eq_full b h]
  exact ⟨rfl, rfl, rfl, rfl⟩

theorem State.emit_cnt (s : State) (b : Bool) : (s.emit b).cnt.toNat = (s.cnt.toNat + 1) % 8 := by
  by_cases h : s.cnt.toNat = 7
  · rw [(State.emit_full b h).2.2.2, h]; rfl
  · have := cnt_lt s
    rw [(State.emit_short b h).2.2.2, BitVec.toNat_add]
    rfl

/-- PEND stays below 2^CNT (R40). -/
theorem State.emit_packer {s : State} (b : Bool) (h : s.pend.toNat < 2 ^ s.cnt.toNat) :
    (s.emit b).pend.toNat < 2 ^ (s.emit b).cnt.toNat := by
  rw [State.emit_cnt]
  by_cases h7 : s.cnt.toNat = 7
  · rw [(State.emit_full b h7).2.2.1, h7]; decide
  · have hc := cnt_lt s
    rw [(State.emit_short b h7).2.2.1, Nat.mod_eq_of_lt (by omega), BitVec.toNat_ofNat, pow_succ]
    have : b.toNat ≤ 1 := Bool.toNat_le b
    exact (Nat.mod_le _ _).trans_lt (by omega)

/-- A bit that does not complete a byte becomes the last pending one (R102). -/
theorem State.emit_pendBits_short {s : State} (b : Bool) (hp : s.pend.toNat < 2 ^ s.cnt.toNat) (h : s.cnt.toNat ≠ 7) :
    (s.emit b).pendBits = s.pendBits ++ [b] := by
  have hc := cnt_lt s
  have hcnt : (s.emit b).cnt.toNat = s.cnt.toNat + 1 := by rw [State.emit_cnt]; omega
  have hpend : (s.emit b).pend.toNat = 2 * s.pend.toNat + b.toNat := by
    rw [(State.emit_short b h).2.2.1, BitVec.toNat_ofNat, Nat.mod_eq_of_lt]
    have : b.toNat ≤ 1 := Bool.toNat_le b
    have : 2 ^ s.cnt.toNat ≤ 2 ^ 6 := Nat.pow_le_pow_right (by omega) (by omega)
    norm_num at *
    omega
  apply List.ext_getElem?
  intro m
  by_cases hm : m < s.cnt.toNat
  · rw [List.getElem?_append_left (by simpa using hm), State.pendBits_get _ (by omega), State.pendBits_get _ hm, hpend, hcnt,
      testBit_two_mul_add, if_neg (by omega)]
    congr 2
    omega
  · rw [List.getElem?_append_right (by simpa using hm)]
    by_cases hm' : m = s.cnt.toNat
    · subst hm'
      rw [State.pendBits_get _ (by omega), hpend, hcnt, testBit_two_mul_add, if_pos (by omega)]
      simp
    · rw [List.getElem?_eq_none (by simp [hcnt]; omega), List.getElem?_eq_none (by simp; omega)]

/-- A bit that completes a byte: the pending bits and it, first one in bit 7 (R102, R103). -/
theorem State.emit_byte {s : State} (b : Bool) (hp : s.pend.toNat < 2 ^ s.cnt.toNat) (h : s.cnt.toNat = 7) {m : Nat} (hm : m < 8) :
    (s.pendBits ++ [b])[m]? = some ((BitVec.ofNat 8 (2 * s.pend.toNat + b.toNat)).getLsbD (7 - m)) := by
  have hb : (BitVec.ofNat 8 (2 * s.pend.toNat + b.toNat)).getLsbD (7 - m) = (2 * s.pend.toNat + b.toNat).testBit (7 - m) := by
    rw [BitVec.getLsbD, BitVec.toNat_ofNat, Nat.mod_eq_of_lt]
    have : b.toNat ≤ 1 := Bool.toNat_le b
    rw [h] at hp
    norm_num at *
    omega
  rw [hb, testBit_two_mul_add]
  by_cases hlast : m = 7
  · subst hlast
    rw [List.getElem?_append_right (by simp [h])]
    simp [h]
  · rw [List.getElem?_append_left (by simp [h]; omega), State.pendBits_get _ (by omega), if_neg (by omega), h]
    congr 2
    omega

/-! ### DENC's loop -/

/-- What holds after the first `i` targets, the bytes `ts`, of a DENC that starts in `s` with its output bytes below `top`. -/
structure EncodedSoFar (s : State) (ts : List Byte) (u : State) : Prop where
  frame : u = { s with
    acc := dpcmAcc s.acc ts, bram := u.bram, pend := u.pend, cnt := u.cnt
    lastBit := (dpcmBits s.acc ts).getLast?.getD s.lastBit
    dBits := s.dBits + BitVec.ofNat 32 ts.length, dWptr := s.dWptr + BitVec.ofNat 32 ((s.cnt.toNat + ts.length) / 8) }
  cnt : u.cnt.toNat = (s.cnt.toNat + ts.length) % 8
  wf : Memory.wf s.bram → Memory.wf u.bram
  mem : ∀ x ∈ u.bram, x ∈ s.bram ∨
    (s.dWptr.toNat ≤ x.1 ∧ x.1 < s.dWptr.toNat + (s.cnt.toNat + ts.length) / 8)
  outside : ∀ a, a < s.dWptr.toNat ∨ s.dWptr.toNat + (s.cnt.toNat + ts.length) / 8 ≤ a →
    Memory.read u.bram a = Memory.read s.bram a
  packer : s.pend.toNat < 2 ^ s.cnt.toNat → u.pend.toNat < 2 ^ u.cnt.toNat
  bytes : s.pend.toNat < 2 ^ s.cnt.toNat → ∀ m < 8 * ((s.cnt.toNat + ts.length) / 8),
    ∃ b, Memory.read u.bram (s.dWptr.toNat + m / 8) = some b ∧
      (s.pendBits ++ dpcmBits s.acc ts)[m]? = some (b.getLsbD (7 - m % 8))
  pending : s.pend.toNat < 2 ^ s.cnt.toNat →
    u.pendBits = (s.pendBits ++ dpcmBits s.acc ts).drop (8 * ((s.cnt.toNat + ts.length) / 8))

theorem EncodedSoFar.start (s : State) : EncodedSoFar s [] s := by
  have hc := cnt_lt s
  have h0 : (s.cnt.toNat + ([] : List Byte).length) / 8 = 0 := by simp; omega
  refine ⟨?_, ?_, id, fun x hx => .inl hx, fun _ _ => rfl, id, ?_, ?_⟩
  · rw [h0]; simp [dpcmAcc, dpcmBits]
  · simp; omega
  · rw [h0]; intro _ m hm; omega
  · rw [h0]; simp [dpcmBits]

/-- Two updates of the fields that an emitted bit may change are the second one. -/
theorem State.step_frame {s v : State} {a₁ a₂ : Byte} {b₁ b₂ : List Host.Cell} {p₁ p₂ : BitVec 7} {c₁ c₂ : BitVec 3} {l₁ l₂ : Bool}
    {d₁ d₂ w₁ w₂ : Word}
    (h : v = { s with acc := a₁, bram := b₁, pend := p₁, cnt := c₁, lastBit := l₁, dBits := d₁, dWptr := w₁ }) :
    { v with acc := a₂, bram := b₂, pend := p₂, cnt := c₂, lastBit := l₂, dBits := d₂, dWptr := w₂ } =
      { s with acc := a₂, bram := b₂, pend := p₂, cnt := c₂, lastBit := l₂, dBits := d₂, dWptr := w₂ } := by
  subst h; rfl

/-- One more target. `hb` keeps D_WPTR from wrapping. -/
theorem EncodedSoFar.turn {s u : State} {ts : List Byte} (t : Byte) (h : EncodedSoFar s ts u)
    (hb : s.dWptr.toNat + (s.cnt.toNat + ts.length + 1) / 8 < 2 ^ 32) : EncodedSoFar s (ts ++ [t]) (u.dstep t) := by
  have hfr := h.frame
  have hcnt := h.cnt
  have hacc : u.acc = dpcmAcc s.acc ts := by rw [hfr]
  have hlen : (ts ++ [t]).length = ts.length + 1 := by simp
  have hbits : dpcmBits s.acc (ts ++ [t]) = dpcmBits s.acc ts ++ [stepBit u.acc t] := by
    rw [dpcmBits_append, hacc]; rfl
  have haccs : dpcmAcc s.acc (ts ++ [t]) = stepAcc u.acc t := by rw [dpcmAcc_append, hacc]; rfl
  set b := stepBit u.acc t with hbdef
  have hw : u.dWptr.toNat = s.dWptr.toNat + (s.cnt.toNat + ts.length) / 8 := by
    have : u.dWptr = s.dWptr + BitVec.ofNat 32 ((s.cnt.toNat + ts.length) / 8) := by rw [hfr]
    rw [this, BitVec.toNat_add, BitVec.toNat_ofNat]
    have := s.dWptr.isLt
    omega
  have hframe : u.dstep t = { s with
      acc := dpcmAcc s.acc (ts ++ [t]), bram := (u.dstep t).bram, pend := (u.dstep t).pend, cnt := (u.dstep t).cnt
      lastBit := b, dBits := u.dBits + 1, dWptr := (u.dstep t).dWptr } := by
    have : u.dstep t = { u with
        acc := stepAcc u.acc t, bram := (u.dstep t).bram, pend := (u.dstep t).pend, cnt := (u.dstep t).cnt
        lastBit := b, dBits := u.dBits + 1, dWptr := (u.dstep t).dWptr } := by
      simp only [State.dstep, State.emit, hbdef]
      split <;> rfl
    rw [haccs]
    exact this.trans (State.step_frame hfr)
  have hlast : (dpcmBits s.acc (ts ++ [t])).getLast?.getD s.lastBit = b := by rw [hbits]; simp
  have hdb : u.dBits + 1 = s.dBits + BitVec.ofNat 32 (ts.length + 1) := by
    have : u.dBits = s.dBits + BitVec.ofNat 32 ts.length := by rw [hfr]
    rw [this]
    apply BitVec.eq_of_toNat_eq
    have h1 : (1 : Word).toNat = 1 := rfl
    simp only [BitVec.toNat_add, BitVec.toNat_ofNat, h1]
    omega
  by_cases h7 : u.cnt.toNat = 7
  · -- the bit completes a byte
    obtain ⟨e1, e2, e3, e4⟩ := State.emit_full (s := u.setAcc (stepAcc u.acc t)) b h7
    have hnb : (s.cnt.toNat + (ts.length + 1)) / 8 = (s.cnt.toNat + ts.length) / 8 + 1 := by omega
    have hbram : (u.dstep t).bram = Memory.write u.bram u.dWptr.toNat (BitVec.ofNat 8 (2 * u.pend.toNat + b.toNat)) := e1
    refine ⟨?_, ?_, ?_, ?_, ?_, ?_, ?_, ?_⟩
    · rw [hlast, hlen, ← hdb, hnb]
      have : (u.dstep t).dWptr = s.dWptr + BitVec.ofNat 32 ((s.cnt.toNat + ts.length) / 8 + 1) := by
        rw [show (u.dstep t).dWptr = u.dWptr + 1 from e2]
        apply BitVec.eq_of_toNat_eq
        rw [BitVec.toNat_add, hw, BitVec.toNat_add, BitVec.toNat_ofNat]
        have := s.dWptr.isLt
        have h1 : (1 : Word).toNat = 1 := rfl
        omega
      rw [← this]
      exact hframe
    · rw [show (u.dstep t).cnt = 0 from e4, hlen]
      show 0 = _
      omega
    · intro hwf; rw [hbram]; exact Memory.write_wf (h.wf hwf) _ _
    · intro x hx
      rw [hbram] at hx
      rw [hlen, hnb]
      rcases Memory.mem_write hx with hx | rfl
      · rcases h.mem x hx with hx | hx
        · exact .inl hx
        · exact .inr (by omega)
      · exact .inr (by simp only; omega)
    · intro a ha
      rw [hlen, hnb] at ha
      rw [hbram, Memory.read_write_other _ _ (by omega)]
      exact h.outside a (by omega)
    · intro _; rw [show (u.dstep t).pend = 0 from e3, show (u.dstep t).cnt = 0 from e4]; decide
    · intro hp m hm
      rw [hlen, hnb] at hm
      rw [hbits, ← List.append_assoc]
      by_cases hold : m < 8 * ((s.cnt.toNat + ts.length) / 8)
      · obtain ⟨x, hx1, hx2⟩ := h.bytes hp m hold
        refine ⟨x, ?_, ?_⟩
        · rw [hbram, Memory.read_write_other _ _ (by omega)]; exact hx1
        · rw [List.getElem?_append_left (by simp; omega)]; exact hx2
      · refine ⟨BitVec.ofNat 8 (2 * u.pend.toNat + b.toNat), ?_, ?_⟩
        · rw [hbram, hw, show m / 8 = (s.cnt.toNat + ts.length) / 8 by omega]; simp
        · have hpb := h.pending hp
          have := State.emit_byte (s := u) b (h.packer hp) h7 (m := m - 8 * ((s.cnt.toNat + ts.length) / 8)) (by omega)
          rw [hpb] at this
          rw [show 7 - m % 8 = 7 - (m - 8 * ((s.cnt.toNat + ts.length) / 8)) by omega, ← this]
          have hl : 8 * ((s.cnt.toNat + ts.length) / 8) ≤ (s.pendBits ++ dpcmBits s.acc ts).length := by simp; omega
          rw [← List.drop_append_of_le_length hl, List.getElem?_drop]
          congr 1
          omega
    · intro hp
      rw [hlen, hnb]
      have hz : (u.dstep t).pendBits = [] := by
        apply List.eq_nil_of_length_eq_zero
        rw [State.pendBits_length, show (u.dstep t).cnt = 0 from e4]; rfl
      rw [hz, List.drop_eq_nil_of_le]
      rw [hbits]; simp; omega
  · -- the bit stays pending
    have hc8 := cnt_lt u
    obtain ⟨e1, e2, e3, e4⟩ := State.emit_short (s := u.setAcc (stepAcc u.acc t)) b h7
    have hnb : (s.cnt.toNat + (ts.length + 1)) / 8 = (s.cnt.toNat + ts.length) / 8 := by omega
    have hbram : (u.dstep t).bram = u.bram := e1
    refine ⟨?_, ?_, ?_, ?_, ?_, ?_, ?_, ?_⟩
    · rw [hlast, hlen, ← hdb, hnb]
      have : (u.dstep t).dWptr = s.dWptr + BitVec.ofNat 32 ((s.cnt.toNat + ts.length) / 8) := by
        rw [show (u.dstep t).dWptr = u.dWptr from e2, hfr]
      rw [← this]
      exact hframe
    · have := State.emit_cnt (u.setAcc (stepAcc u.acc t)) b
      rw [show (u.dstep t).cnt.toNat = (u.cnt.toNat + 1) % 8 from this, hlen]; omega
    · intro hwf; rw [hbram]; exact h.wf hwf
    · intro x hx; rw [hbram] at hx; rw [hlen, hnb]; exact h.mem x hx
    · intro a ha; rw [hlen, hnb] at ha; rw [hbram]; exact h.outside a ha
    · intro hp; exact State.emit_packer (s := u.setAcc (stepAcc u.acc t)) b (h.packer hp)
    · intro hp m hm
      rw [hlen, hnb] at hm
      obtain ⟨x, hx1, hx2⟩ := h.bytes hp m hm
      refine ⟨x, by rw [hbram]; exact hx1, ?_⟩
      rw [hbits, ← List.append_assoc, List.getElem?_append_left (by simp; omega)]
      exact hx2
    · intro hp
      rw [hlen, hnb, hbits, ← List.append_assoc, List.drop_append_of_le_length (by simp; omega), ← h.pending hp]
      exact State.emit_pendBits_short (s := u.setAcc (stepAcc u.acc t)) b (h.packer hp) h7

/-- DENC's loop over its first `j` targets, where they are all written. -/
theorem dencLoop_go {s : State} {j : Nat} {ts : List Byte} (hj : j ≤ s.dLen.toNat) (hlen : ts.length = j)
    (reads : ∀ i < j, Memory.read s.bram (s.dSrc.toNat + i) = ts[i]?)
    (apart : overlap s.dSrc.toNat s.dLen.toNat s.dWptr.toNat s.encBytes = false)
    (noWrap : s.dWptr.toNat + s.encBytes < 2 ^ 32) :
    ∃ t, forUp j 0 encElement s = .go t ∧ EncodedSoFar s ts t := by
  have loop := forUp_go (P := fun i u => EncodedSoFar s (ts.take i) u) (body := encElement) j s
    (by simpa using EncodedSoFar.start s) (by
      intro i u hi h
      have hil : i < ts.length := by omega
      have hsrc : u.dSrc = s.dSrc := by rw [h.frame]
      have hlt : (ts.take i).length = i := by simp; omega
      unfold State.encBytes at noWrap apart
      have hr : Memory.read u.bram (s.dSrc.toNat + i) = some ts[i] := by
        rw [h.outside, reads i hi, List.getElem?_eq_getElem hil]
        rw [overlap_eq_false] at apart
        omega
      refine ⟨u.dstep ts[i], ?_, ?_⟩
      · rw [encElement, hsrc, memReadB_some hr]
      · rw [List.take_succ_eq_append_getElem hil]
        apply h.turn
        omega)
  obtain ⟨t, h1, h2⟩ := loop
  exact ⟨t, h1, by rwa [List.take_of_length_le (by omega)] at h2⟩

/-- Either every target is written, or there is a first one that is not. -/
theorem targets_or_unwritten (m : Memory) (a n : Nat) :
    (∃ ts : List Byte, ts.length = n ∧ ∀ i < n, Memory.read m (a + i) = ts[i]?) ∨
    (∃ j < n, Memory.read m (a + j) = none ∧ ∃ ts : List Byte, ts.length = j ∧ ∀ i < j, Memory.read m (a + i) = ts[i]?) := by
  induction n with
  | zero => exact .inl ⟨[], rfl, by omega⟩
  | succ n ih =>
    rcases ih with ⟨ts, hl, hr⟩ | ⟨j, hj, h⟩
    · cases hv : Memory.read m (a + n) with
      | none => exact .inr ⟨n, by omega, hv, ts, hl, hr⟩
      | some v =>
        refine .inl ⟨ts ++ [v], by simp [hl], fun i hi => ?_⟩
        by_cases hn : i = n
        · subst hn; rw [hv, List.getElem?_append_right (by omega)]; simp [hl]
        · rw [hr i (by omega), List.getElem?_append_left (by omega)]
    · exact .inr ⟨j, by omega, h⟩

/-- DENC's loop up to a target that is not written. -/
theorem dencLoop_stop {s : State} {j : Nat} (hj : j < s.dLen.toNat) (unwritten : Memory.read s.bram (s.dSrc.toNat + j) = none)
    {ts : List Byte} (hlen : ts.length = j) (reads : ∀ i < j, Memory.read s.bram (s.dSrc.toNat + i) = ts[i]?)
    (apart : overlap s.dSrc.toNat s.dLen.toNat s.dWptr.toNat s.encBytes = false)
    (noWrap : s.dWptr.toNat + s.encBytes < 2 ^ 32) :
    forUp s.dLen.toNat 0 encElement s = .stop (.uninitByte (s.dSrc.toNat + j)) := by
  obtain ⟨u, h1, h2⟩ := dencLoop_go hj.le hlen reads apart noWrap
  rw [show s.dLen.toNat = j + ((s.dLen.toNat - j - 1) + 1) by omega, forUp_add, h1, Flow.bind_go, forUp_succ]
  have hsrc : u.dSrc = s.dSrc := by rw [h2.frame]
  rw [encElement, memReadB_none]
  · rw [Flow.bind_stop, hsrc, Nat.zero_add]
  · rw [hsrc, Nat.zero_add, h2.outside]
    · exact unwritten
    · rw [overlap_eq_false] at apart
      unfold State.encBytes at apart
      omega

/-! ### Loops over parts of a region -/

/-- A state with another D_SRC, D_LEN and DONE. -/
def State.withRegion (s : State) (src len : Word) (done : Bool) : State := { s with dSrc := src, dLen := len, done := done }

theorem State.withRegion_dstep (s : State) (src len : Word) (done : Bool) (x : Byte) :
    (s.withRegion src len done).dstep x = (s.dstep x).withRegion src len done := by
  change ((s.setAcc (stepAcc s.acc x)).withRegion src len done).emit (stepBit s.acc x) =
    ((s.setAcc (stepAcc s.acc x)).emit (stepBit s.acc x)).withRegion src len done
  by_cases h : s.cnt.toNat = 7
  · rw [State.emit_eq_full (s := s.setAcc (stepAcc s.acc x)) _ h]
    exact State.emit_eq_full _ h
  · rw [State.emit_eq_short (s := s.setAcc (stepAcc s.acc x)) _ h]
    exact State.emit_eq_short _ h

/-- The loop from element `k` on is the loop over a region that starts `k` bytes later; D_LEN and DONE do not matter to it. -/
theorem encLoop_withRegion {src len : Word} {done : Bool} {k : Nat} (count j : Nat) {s t : State} (later : src.toNat = s.dSrc.toNat + k)
    (h : forUp count (j + k) encElement s = .go t) :
    forUp count j encElement (s.withRegion src len done) = .go (t.withRegion src len done) := by
  induction count generalizing j s with
  | zero => cases h; rfl
  | succ count ih =>
    rw [forUp_succ, encElement] at h ⊢
    have here : (s.withRegion src len done).dSrc.toNat + j = s.dSrc.toNat + (j + k) := by
      show src.toNat + j = _
      omega
    cases hr : Memory.read s.bram (s.dSrc.toNat + (j + k)) with
    | none => rw [memReadB_none hr] at h; cases h
    | some x =>
      rw [memReadB_some hr, Flow.bind_go] at h
      have hr' : Memory.read (s.withRegion src len done).bram ((s.withRegion src len done).dSrc.toNat + j) = some x := by
        rw [here]; exact hr
      rw [memReadB_some hr', Flow.bind_go, State.withRegion_dstep]
      refine ih (j + 1) ?_ (by rw [show j + 1 + k = j + k + 1 by omega]; exact h)
      rw [State.dstep_dSrc]
      exact later

/-- Everything DENC can do, in a block whose BRAM is no larger than R6 allows. -/
theorem dencFlow_cases {s : State} (hcfg : s.cfg.byteWords < 2 ^ 32) :
    ((s.cfg.byteWords < s.dSrc.toNat + s.dLen.toNat ∨ s.cfg.byteWords < s.dWptr.toNat + s.encBytes) ∧
      dencFlow s = raiseError .range 0 .denc s) ∨
    (s.dSrc.toNat + s.dLen.toNat ≤ s.cfg.byteWords ∧ s.dWptr.toNat + s.encBytes ≤ s.cfg.byteWords ∧
      ((overlap s.dSrc.toNat s.dLen.toNat s.dWptr.toNat s.encBytes = true ∧ dencFlow s = raiseError .overlap 0 .denc s) ∨
      (overlap s.dSrc.toNat s.dLen.toNat s.dWptr.toNat s.encBytes = false ∧
        ((∃ ts : List Byte, ts.length = s.dLen.toNat ∧ (∀ i < s.dLen.toNat, Memory.read s.bram (s.dSrc.toNat + i) = ts[i]?) ∧
          ∃ t, dencFlow s = .go t ∧ EncodedSoFar s ts t) ∨
        (∃ j < s.dLen.toNat, Memory.read s.bram (s.dSrc.toNat + j) = none ∧
          dencFlow s = .stop (.uninitByte (s.dSrc.toNat + j))))))) := by
  by_cases hfit : s.dSrc.toNat + s.dLen.toNat ≤ s.cfg.byteWords ∧ s.dWptr.toNat + s.encBytes ≤ s.cfg.byteWords
  · obtain ⟨h1, h2⟩ := hfit
    refine .inr ⟨h1, h2, ?_⟩
    have hf1 : fits s.dSrc.toNat s.dLen.toNat s.cfg.byteWords = true := by simpa using h1
    have hf2 : fits s.dWptr.toNat s.encBytes s.cfg.byteWords = true := by simpa using h2
    cases ho : overlap s.dSrc.toNat s.dLen.toNat s.dWptr.toNat s.encBytes with
    | true => exact .inl ⟨rfl, by simp [dencFlow, hf1, hf2, ho]⟩
    | false =>
      have hd : dencFlow s = forUp s.dLen.toNat 0 encElement s := by simp [dencFlow, hf1, hf2, ho]
      refine .inr ⟨rfl, ?_⟩
      rw [hd]
      rcases targets_or_unwritten s.bram s.dSrc.toNat s.dLen.toNat with ⟨ts, hl, hr⟩ | ⟨j, hj, hn, ts, hl, hr⟩
      · exact .inl ⟨ts, hl, hr, dencLoop_go le_rfl hl hr ho (by omega)⟩
      · exact .inr ⟨j, hj, hn, dencLoop_stop hj hn hl hr ho (by omega)⟩
  · refine .inl ⟨by omega, ?_⟩
    have : fits s.dSrc.toNat s.dLen.toNat s.cfg.byteWords = false ∨ fits s.dWptr.toNat s.encBytes s.cfg.byteWords = false := by
      simp only [fits_eq_false]; omega
    rcases this with h | h <;> simp [dencFlow, h]

end Sys2Proof.Machine
end

