-- ==== Sys2Proof/Laws/Float.lean ====
section
/-! SUPPORT. The laws of binary64 rounding: exactness, bounds, monotonicity, and that a pattern holds the value packed into it. -/

namespace Sys2Proof.Machine

/-! ### The top bit -/

theorem log2_eq_of_bounds {n k : Nat} (h1 : 2 ^ k ≤ n) (h2 : n < 2 ^ (k + 1)) : Nat.log2 n = k := by
  have hn : n ≠ 0 := by have := Nat.two_pow_pos k; omega
  exact (Nat.log2_eq_iff hn).mpr ⟨h1, h2⟩

theorem two_pow_log2_le {n : Nat} (h : n ≠ 0) : 2 ^ Nat.log2 n ≤ n := (Nat.log2_eq_iff h).mp rfl |>.1

theorem lt_two_pow_log2 {n : Nat} (h : n ≠ 0) : n < 2 ^ (Nat.log2 n + 1) := (Nat.log2_eq_iff h).mp rfl |>.2

theorem log2_shiftRight {n k : Nat} (h : n >>> k ≠ 0) : Nat.log2 n = k + Nat.log2 (n >>> k) := by
  have h1 := two_pow_log2_le h
  have h2 := lt_two_pow_log2 h
  rw [Nat.shiftRight_eq_div_pow] at h1 h2 ⊢
  apply log2_eq_of_bounds
  · calc 2 ^ (k + Nat.log2 (n / 2 ^ k)) = 2 ^ Nat.log2 (n / 2 ^ k) * 2 ^ k := by rw [pow_add, mul_comm]
      _ ≤ n / 2 ^ k * 2 ^ k := Nat.mul_le_mul_right _ h1
      _ ≤ n := Nat.div_mul_le_self _ _
  · calc n < (n / 2 ^ k + 1) * 2 ^ k := Nat.lt_mul_of_div_lt (Nat.lt_succ_self _) (Nat.two_pow_pos k)
      _ ≤ 2 ^ (Nat.log2 (n / 2 ^ k) + 1) * 2 ^ k := Nat.mul_le_mul_right _ h2
      _ = 2 ^ (k + Nat.log2 (n / 2 ^ k) + 1) := by rw [← pow_add]; congr 1; omega

theorem topBitAux_eq_log2 (fuel n : Nat) (h : n < 2 ^ 2 ^ fuel) : topBitAux fuel n = Nat.log2 n := by
  induction fuel generalizing n with
  | zero =>
    have : n = 0 ∨ n = 1 := by norm_num at h; omega
    rcases this with rfl | rfl <;> rfl
  | succ fuel ih =>
    unfold topBitAux
    rw [Nat.one_shiftLeft]
    split
    · rename_i h0
      apply ih
      rw [Nat.shiftRight_eq_div_pow, Nat.div_eq_zero_iff] at h0
      exact h0.resolve_left (by positivity)
    · rename_i h0
      rw [ih, log2_shiftRight h0]
      rw [Nat.shiftRight_eq_div_pow]
      apply Nat.div_lt_of_lt_mul
      rw [← pow_add]
      convert h using 2
      rw [pow_succ]; omega

@[simp] theorem topBit_eq_log2 (n : Nat) : topBit n = Nat.log2 n := by
  unfold topBit
  split
  · rename_i h
    exact topBitAux_eq_log2 12 n (by rw [Nat.one_shiftLeft] at h; exact h)
  · rfl

/-! ### Rounding to an integer -/

theorem le_roundHalfEven {p q k : Nat} (hq : 0 < q) (h : k * q ≤ p) : k ≤ roundHalfEven p q := by
  have : k ≤ p / q := (Nat.le_div_iff_mul_le hq).mpr h
  unfold roundHalfEven
  split
  · exact this
  · split <;> omega

theorem roundHalfEven_le {p q k : Nat} (hq : 0 < q) (h : p ≤ k * q) : roundHalfEven p q ≤ k := by
  have hdiv : p / q ≤ k := Nat.div_le_of_le_mul (by rwa [mul_comm])
  rcases Nat.lt_or_ge (p / q) k with hlt | hge
  · unfold roundHalfEven
    split
    · omega
    · split <;> omega
  · have hk : p / q = k := le_antisymm hdiv hge
    have hmod := Nat.div_add_mod p q
    rw [hk, mul_comm q k] at hmod
    unfold roundHalfEven
    rw [if_pos (by omega)]
    exact hdiv

theorem roundHalfEven_mul {k q : Nat} (hq : 0 < q) : roundHalfEven (k * q) q = k :=
  le_antisymm (roundHalfEven_le hq le_rfl) (le_roundHalfEven hq le_rfl)

/-- Rounding keeps order: `p / q ≤ p' / q'` gives the same of the rounded values. -/
theorem roundHalfEven_mono {p q p' q' : Nat} (hq : 0 < q) (hq' : 0 < q') (h : p * q' ≤ p' * q) :
    roundHalfEven p q ≤ roundHalfEven p' q' := by
  have floorLe : p / q ≤ p' / q' := by
    rw [Nat.le_div_iff_mul_le hq']
    have : p / q * q ≤ p := Nat.div_mul_le_self _ _
    have : (p / q * q') * q ≤ p' * q := by
      calc (p / q * q') * q = (p / q * q) * q' := by ring
        _ ≤ p * q' := Nat.mul_le_mul_right _ this
        _ ≤ p' * q := h
    exact Nat.le_of_mul_le_mul_right this hq
  rcases Nat.lt_or_ge (p / q) (p' / q') with hlt | hge
  · have h1 : roundHalfEven p q ≤ p / q + 1 := by
      unfold roundHalfEven; split
      · omega
      · split <;> omega
    have h2 : p' / q' ≤ roundHalfEven p' q' := le_roundHalfEven hq' (Nat.div_mul_le_self _ _)
    omega
  · have heq : p / q = p' / q' := le_antisymm floorLe hge
    have e1 := Nat.div_add_mod p q
    have e2 := Nat.div_add_mod p' q'
    rw [heq] at e1
    have hr : p % q * q' ≤ p' % q' * q := by
      have : q * (p' / q') * q' + p % q * q' ≤ q' * (p' / q') * q + p' % q' * q := by
        rw [← Nat.add_mul, ← Nat.add_mul, e1, e2]; exact h
      have : q * (p' / q') * q' = q' * (p' / q') * q := by ring
      omega
    have hcmp : ∀ {a b : Nat}, a * q' ≤ b * q → 2 * b ≤ q' → 2 * a ≤ q := by
      intro a b hab hb
      by_contra hlt
      have : q * q' < 2 * a * q' := Nat.mul_lt_mul_of_pos_right (by omega) hq'
      have : 2 * b * q ≤ q' * q := Nat.mul_le_mul_right _ hb
      nlinarith
    have hcmp' : 2 * (p' % q') < q' → 2 * (p % q) < q := by
      intro hb
      by_contra hge
      have : q * q' ≤ 2 * (p % q) * q' := Nat.mul_le_mul_right _ (by omega)
      have : 2 * (p' % q') * q < q' * q := Nat.mul_lt_mul_of_pos_right hb hq
      nlinarith
    have hle := @hcmp (p % q) (p' % q') hr
    unfold roundHalfEven
    rw [heq]
    split_ifs <;> omega

/-! ### Representable magnitudes -/

/-- A magnitude of `u` units that has at most 53 significant bits. -/
def Representable (u : Nat) : Prop := 2 ^ (Nat.log2 u - 52) ∣ u

theorem representable_of_lt {u : Nat} (h : u < 2 ^ 53) : Representable u := by
  unfold Representable
  by_cases h0 : u = 0
  · subst h0; simp
  · have : Nat.log2 u < 53 := by
      by_contra hc
      have := two_pow_log2_le h0
      have : 2 ^ 53 ≤ 2 ^ Nat.log2 u := Nat.pow_le_pow_right (by omega) (by omega)
      omega
    rw [show Nat.log2 u - 52 = 0 by omega]
    simp

theorem representable_mul_two_pow {m : Nat} (k : Nat) (h : m < 2 ^ 53) : Representable (m * 2 ^ k) := by
  unfold Representable
  by_cases h0 : m = 0
  · subst h0; simp
  · have h1 : Nat.log2 (m * 2 ^ k) = Nat.log2 m + k := by
      apply log2_eq_of_bounds
      · rw [pow_add]; exact Nat.mul_le_mul_right _ (two_pow_log2_le h0)
      · rw [show Nat.log2 m + k + 1 = Nat.log2 m + 1 + k by omega, pow_add]
        exact Nat.mul_lt_mul_of_pos_right (lt_two_pow_log2 h0) (Nat.two_pow_pos k)
    have : Nat.log2 m < 53 := by
      by_contra hc
      have := two_pow_log2_le h0
      have : 2 ^ 53 ≤ 2 ^ Nat.log2 m := Nat.pow_le_pow_right (by omega) (by omega)
      omega
    rw [h1]
    exact (pow_dvd_pow 2 (by omega)).trans (Dvd.intro_left _ rfl)

theorem representable_two_pow (k : Nat) : Representable (2 ^ k) := by
  have := representable_mul_two_pow (m := 1) k (by norm_num)
  rwa [one_mul] at this

/-- A representable magnitude is at most 53 bits, shifted. -/
theorem Representable.eq_mul {u : Nat} (h : Representable u) : u = (u >>> (Nat.log2 u - 52)) * 2 ^ (Nat.log2 u - 52) := by
  rw [Nat.shiftRight_eq_div_pow]
  exact (Nat.div_mul_cancel h).symm

theorem quantumShift_eq (k : Nat) : quantumShift k = Nat.log2 k - 52 := by simp [quantumShift]

theorem roundUnits_eq (p q : Nat) :
    roundUnits p q = roundHalfEven p (q * 2 ^ (Nat.log2 (p / q) - 52)) * 2 ^ (Nat.log2 (p / q) - 52) := by
  simp [roundUnits, quantumShift_eq, Nat.shiftLeft_eq]

/-- The 53 significant bits that are left of a magnitude. -/
theorem floor_scaled_lt {p q : Nat} (hq : 0 < q) : p < 2 ^ 53 * (q * 2 ^ (Nat.log2 (p / q) - 52)) := by
  by_cases h0 : p / q = 0
  · have hpq : p < q := (Nat.div_eq_zero_iff.mp h0).resolve_left (by omega)
    rw [h0]
    simp
    omega
  · have h1 := lt_two_pow_log2 h0
    have h2 : p < 2 ^ (Nat.log2 (p / q) + 1) * q := by
      have := Nat.lt_mul_of_div_lt h1 hq
      linarith
    calc p < 2 ^ (Nat.log2 (p / q) + 1) * q := h2
      _ ≤ 2 ^ (53 + (Nat.log2 (p / q) - 52)) * q := Nat.mul_le_mul_right _ (Nat.pow_le_pow_right (by omega) (by omega))
      _ = 2 ^ 53 * (q * 2 ^ (Nat.log2 (p / q) - 52)) := by rw [pow_add]; ring

theorem roundUnits_representable {p q : Nat} (hq : 0 < q) : Representable (roundUnits p q) := by
  rw [roundUnits_eq]
  have hpos : 0 < q * 2 ^ (Nat.log2 (p / q) - 52) := by positivity
  have hle : roundHalfEven p (q * 2 ^ (Nat.log2 (p / q) - 52)) ≤ 2 ^ 53 :=
    roundHalfEven_le hpos (floor_scaled_lt hq).le
  rcases Nat.lt_or_eq_of_le hle with h | h
  · exact representable_mul_two_pow _ h
  · rw [h, ← pow_add]; exact representable_two_pow _

/-- Rounding does not pass a representable magnitude from below. -/
theorem le_roundUnits {p q r : Nat} (hq : 0 < q) (hr : Representable r) (h : r * q ≤ p) : r ≤ roundUnits p q := by
  rw [roundUnits_eq]
  set sh := Nat.log2 (p / q) - 52 with hsh
  have hpos : 0 < q * 2 ^ sh := by positivity
  by_cases hlow : r < 2 ^ (sh + 52)
  · -- everything in the range is at least 2^(sh+52), or the rounding is to whole units
    by_cases hz : Nat.log2 (p / q) ≤ 52
    · have : sh = 0 := by omega
      rw [this]
      simp only [pow_zero, mul_one]
      exact le_roundHalfEven hq h
    · have h0 : p / q ≠ 0 := by
        intro h0; rw [h0] at hz; simp at hz
      have h1 : 2 ^ (sh + 52) ≤ p / q := by
        have := two_pow_log2_le h0
        rwa [show sh + 52 = Nat.log2 (p / q) by omega]
      have h2 : 2 ^ 52 * (q * 2 ^ sh) ≤ p := by
        have := (Nat.le_div_iff_mul_le hq).mp h1
        calc 2 ^ 52 * (q * 2 ^ sh) = 2 ^ (sh + 52) * q := by rw [pow_add]; ring
          _ ≤ p := this
      have h3 := le_roundHalfEven hpos h2
      calc r ≤ 2 ^ (sh + 52) := hlow.le
        _ = 2 ^ 52 * 2 ^ sh := by rw [pow_add]; ring
        _ ≤ _ := Nat.mul_le_mul_right _ h3
  · -- the grid at r is at least as coarse as at p / q
    have hr0 : r ≠ 0 := by have := Nat.two_pow_pos (sh + 52); omega
    have hlog : sh + 52 ≤ Nat.log2 r := by
      by_contra hc
      have := lt_two_pow_log2 hr0
      have : 2 ^ (Nat.log2 r + 1) ≤ 2 ^ (sh + 52) := Nat.pow_le_pow_right (by omega) (by omega)
      omega
    have hdvd : 2 ^ sh ∣ r := (pow_dvd_pow 2 (by omega)).trans hr
    obtain ⟨k, rfl⟩ := hdvd
    have : k * (q * 2 ^ sh) ≤ p := by calc k * (q * 2 ^ sh) = 2 ^ sh * k * q := by ring
                                       _ ≤ p := h
    calc 2 ^ sh * k = k * 2 ^ sh := by ring
      _ ≤ _ := Nat.mul_le_mul_right _ (le_roundHalfEven hpos this)

/-- Rounding does not pass a representable magnitude from above. -/
theorem roundUnits_le {p q r : Nat} (hq : 0 < q) (hr : Representable r) (h : p ≤ r * q) : roundUnits p q ≤ r := by
  rw [roundUnits_eq]
  set sh := Nat.log2 (p / q) - 52 with hsh
  have hpos : 0 < q * 2 ^ sh := by positivity
  have hfloor : p / q ≤ r := Nat.div_le_of_le_mul (by rwa [mul_comm])
  have hdvd : 2 ^ sh ∣ r := by
    by_cases h0 : p / q = 0
    · have : sh = 0 := by rw [hsh, h0]; simp
      rw [this]; simp
    · have hr0 : r ≠ 0 := by have := Nat.pos_of_ne_zero h0; omega
      have : Nat.log2 (p / q) ≤ Nat.log2 r := by
        by_contra hc
        have h1 := lt_two_pow_log2 hr0
        have h2 := two_pow_log2_le h0
        have : 2 ^ (Nat.log2 r + 1) ≤ 2 ^ Nat.log2 (p / q) := Nat.pow_le_pow_right (by omega) (by omega)
        omega
      exact (pow_dvd_pow 2 (by omega)).trans hr
  obtain ⟨k, rfl⟩ := hdvd
  have : p ≤ k * (q * 2 ^ sh) := by calc p ≤ 2 ^ sh * k * q := h
                                     _ = k * (q * 2 ^ sh) := by ring
  calc _ ≤ k * 2 ^ sh := Nat.mul_le_mul_right _ (roundHalfEven_le hpos this)
    _ = 2 ^ sh * k := by ring

theorem roundUnits_exact {u q : Nat} (hq : 0 < q) (h : Representable u) : roundUnits (u * q) q = u :=
  le_antisymm (roundUnits_le hq h le_rfl) (le_roundUnits hq h le_rfl)

/-- Rounding keeps order: `p / q ≤ p' / q'` gives the same of the rounded magnitudes. -/
theorem roundUnits_mono {p q p' q' : Nat} (hq : 0 < q) (hq' : 0 < q') (h : p * q' ≤ p' * q) :
    roundUnits p q ≤ roundUnits p' q' := by
  have floorLe : p / q ≤ p' / q' := by
    rw [Nat.le_div_iff_mul_le hq']
    have h1 : p / q * q ≤ p := Nat.div_mul_le_self _ _
    have : (p / q * q') * q ≤ p' * q := by
      calc (p / q * q') * q = (p / q * q) * q' := by ring
        _ ≤ p * q' := Nat.mul_le_mul_right _ h1
        _ ≤ p' * q := h
    exact Nat.le_of_mul_le_mul_right this hq
  by_cases heq : Nat.log2 (p / q) = Nat.log2 (p' / q')
  · rw [roundUnits_eq, roundUnits_eq, heq]
    apply Nat.mul_le_mul_right
    apply roundHalfEven_mono (by positivity) (by positivity)
    calc p * (q' * 2 ^ (Nat.log2 (p' / q') - 52)) = (p * q') * 2 ^ (Nat.log2 (p' / q') - 52) := by ring
      _ ≤ (p' * q) * 2 ^ (Nat.log2 (p' / q') - 52) := Nat.mul_le_mul_right _ h
      _ = p' * (q * 2 ^ (Nat.log2 (p' / q') - 52)) := by ring
  · -- a power of two lies between them
    have h0 : p' / q' ≠ 0 := by
      intro h0
      have : p / q = 0 := Nat.le_zero.mp (h0 ▸ floorLe)
      rw [h0, this] at heq
      exact heq rfl
    have hlt : p / q < 2 ^ Nat.log2 (p' / q') := by
      by_cases hz : p / q = 0
      · rw [hz]; exact Nat.two_pow_pos _
      · have hle : Nat.log2 (p / q) ≤ Nat.log2 (p' / q') := by
          by_contra hc
          have h1 := lt_two_pow_log2 h0
          have h2 := two_pow_log2_le hz
          have : 2 ^ (Nat.log2 (p' / q') + 1) ≤ 2 ^ Nat.log2 (p / q) := Nat.pow_le_pow_right (by omega) (by omega)
          omega
        have h2 := lt_two_pow_log2 hz
        have : 2 ^ (Nat.log2 (p / q) + 1) ≤ 2 ^ Nat.log2 (p' / q') := Nat.pow_le_pow_right (by omega) (by omega)
        omega
    have hup : roundUnits p q ≤ 2 ^ Nat.log2 (p' / q') :=
      roundUnits_le hq (representable_two_pow _) (by
        have := Nat.lt_mul_of_div_lt hlt hq
        linarith)
    have hdown : 2 ^ Nat.log2 (p' / q') ≤ roundUnits p' q' :=
      le_roundUnits hq' (representable_two_pow _) ((Nat.le_div_iff_mul_le hq').mp (two_pow_log2_le h0))
    exact hup.trans hdown

/-! ### Values -/

theorem oneUnits_eq : oneUnits = 2 ^ 1074 := Nat.one_shiftLeft 1074
theorem infUnits_eq : infUnits = 2 ^ 2098 := Nat.one_shiftLeft 2098
theorem oneUnits_pos : 0 < oneUnits := by rw [oneUnits_eq]; exact Nat.two_pow_pos _

/-- A value some pattern has: a finite one is representable and below the overflow bound. -/
def FVal.ok : FVal → Prop
  | .nan => True
  | .inf _ => True
  | .fin _ u => Representable u ∧ u < infUnits

theorem fl_ok (neg : Bool) (p : Nat) {q : Nat} (hq : 0 < q) : (fl neg p q).ok := by
  unfold fl ofUnits
  split
  · trivial
  · exact ⟨roundUnits_representable hq, by omega⟩

theorem fneg_ok {a : FVal} (h : a.ok) : (fneg a).ok := by cases a <;> exact h

theorem fadd_ok (a b : FVal) : (fadd a b).ok := by
  cases a <;> cases b <;> try trivial
  · simp only [fadd]; split <;> trivial
  · simp only [fadd]
    split
    · exact ⟨representable_of_lt (by norm_num), by rw [infUnits_eq]; exact Nat.two_pow_pos _⟩
    · exact fl_ok _ _ one_pos

theorem fmul_ok (a b : FVal) : (fmul a b).ok := by
  cases a <;> cases b <;> try trivial
  · simp only [fmul]; split <;> trivial
  · simp only [fmul]; split <;> trivial
  · exact fl_ok _ _ oneUnits_pos

theorem fdiv_ok (a b : FVal) : (fdiv a b).ok := by
  cases a <;> cases b <;> try trivial
  · exact ⟨representable_of_lt (by norm_num), by rw [infUnits_eq]; exact Nat.two_pow_pos _⟩
  · simp only [fdiv]
    split
    · split <;> trivial
    · exact fl_ok _ _ (by omega)

theorem i2f_exact {n : Nat} (h : n < 2 ^ 53) : i2f n = .fin false (n * oneUnits) := by
  have hr : Representable (n * oneUnits) := by rw [oneUnits_eq]; exact representable_mul_two_pow _ h
  have e := roundUnits_exact (u := n * oneUnits) (q := 1) one_pos hr
  rw [mul_one] at e
  rw [i2f, fl, e, ofUnits, if_neg]
  rw [infUnits_eq, oneUnits_eq, show (2 : Nat) ^ 2098 = 2 ^ 1024 * 2 ^ 1074 by rw [← pow_add], not_le]
  apply Nat.mul_lt_mul_of_pos_right _ (Nat.two_pow_pos _)
  exact h.trans_le (Nat.pow_le_pow_right (by omega) (by omega))

/-! ### Patterns -/

theorem expField_lt (a : Sample) : expField a < 2048 := (a.extractLsb' 52 11).isLt
theorem fracField_lt (a : Sample) : fracField a < 2 ^ 52 := (a.extractLsb' 0 52).isLt

theorem unpack_eq_nan_iff (a : Sample) : unpack a = .nan ↔ isNaN a = true := by
  unfold unpack isNaN
  split_ifs <;> simp_all

theorem log2_unpack {e f : Nat} (hf : f < 2 ^ 52) : Nat.log2 ((f + 2 ^ 52) * 2 ^ e) = 52 + e := by
  apply log2_eq_of_bounds
  · rw [pow_add]; exact Nat.mul_le_mul_right _ (by omega)
  · rw [show 52 + e + 1 = 53 + e by omega, pow_add]
    exact Nat.mul_lt_mul_of_pos_right (by omega) (Nat.two_pow_pos _)

theorem unpack_ok (a : Sample) : (unpack a).ok := by
  have he := expField_lt a
  have hf := fracField_lt a
  unfold unpack
  split_ifs
  · trivial
  · trivial
  · refine ⟨representable_of_lt (by omega), ?_⟩
    rw [infUnits_eq]
    exact hf.trans_le (Nat.pow_le_pow_right (by omega) (by omega))
  · rw [Nat.shiftLeft_eq, Nat.one_shiftLeft]
    refine ⟨representable_mul_two_pow _ (by omega), ?_⟩
    rw [infUnits_eq]
    calc (fracField a + 2 ^ 52) * 2 ^ (expField a - 1) < 2 ^ 53 * 2 ^ (expField a - 1) :=
          Nat.mul_lt_mul_of_pos_right (by omega) (Nat.two_pow_pos _)
      _ = 2 ^ (53 + (expField a - 1)) := by rw [pow_add]
      _ ≤ 2 ^ 2098 := Nat.pow_le_pow_right (by omega) (by omega)

/-- The fields of a pattern made of a sign and 63 lower bits. -/
theorem patternOf_fields (s : Bool) {b : Nat} (h : b < 2 ^ 63) :
    signBit (patternOf s b) = s ∧ expField (patternOf s b) = b / 2 ^ 52 ∧ fracField (patternOf s b) = b % 2 ^ 52 := by
  have hn : (patternOf s b).toNat = s.toNat * 2 ^ 63 + b := by
    rw [patternOf, BitVec.toNat_ofNat, Nat.shiftLeft_eq, Nat.mod_eq_of_lt]
    cases s <;> simp <;> omega
  refine ⟨?_, ?_, ?_⟩
  · rw [signBit, BitVec.getLsbD, hn, Nat.testBit_eq_decide_div_mod_eq]
    cases s
    · simp only [Bool.toNat_false]; rw [decide_eq_false_iff_not]; omega
    · simp only [Bool.toNat_true]; rw [decide_eq_true_iff]; omega
  · rw [expField, BitVec.extractLsb'_toNat, hn, Nat.shiftRight_eq_div_pow]
    cases s
    · simp only [Bool.toNat_false]; omega
    · simp only [Bool.toNat_true]; omega
  · rw [fracField, BitVec.extractLsb'_toNat, hn, Nat.shiftRight_eq_div_pow]
    cases s
    · simp only [Bool.toNat_false]; omega
    · simp only [Bool.toNat_true]; omega

/-- The pattern of a value has that value; a NaN has any NaN pattern that is supplied. -/
theorem unpack_pack {v : FVal} (hv : v.ok) {n : Sample} (hn : isNaN n = true) : unpack (pack n v) = v := by
  cases v with
  | nan => exact (unpack_eq_nan_iff n).mpr hn
  | inf s =>
    obtain ⟨h1, h2, h3⟩ := patternOf_fields s (b := 2047 <<< 52) (by rw [Nat.shiftLeft_eq]; norm_num)
    rw [Nat.shiftLeft_eq] at h1 h2 h3
    norm_num at h1 h2 h3
    simp [pack, unpack, h1, h2, h3]
  | fin s u =>
    obtain ⟨hr, hu⟩ := hv
    rw [infUnits_eq] at hu
    have hm : magnitudeBits u = (Nat.log2 u - 52) * 2 ^ 52 + u / 2 ^ (Nat.log2 u - 52) := by
      simp [magnitudeBits, quantumShift_eq, Nat.shiftLeft_eq, Nat.shiftRight_eq_div_pow]
    by_cases hlow : u < 2 ^ 53
    · have hlog : Nat.log2 u - 52 = 0 := by
        by_cases h0 : u = 0
        · subst h0; simp
        · have h1 := two_pow_log2_le h0
          by_contra hc
          have : 2 ^ 53 ≤ 2 ^ Nat.log2 u := Nat.pow_le_pow_right (by omega) (by omega)
          omega
      rw [hlog] at hm
      simp only [zero_mul, pow_zero, Nat.div_one, zero_add] at hm
      obtain ⟨h1, h2, h3⟩ := patternOf_fields s (b := u) (hlow.trans_le (by norm_num))
      rw [pack, hm, unpack, h1, h2, h3]
      have hcase : u / 2 ^ 52 = 0 ∨ u / 2 ^ 52 = 1 := by omega
      rcases hcase with hc | hc
      · rw [hc]; simp; omega
      · rw [hc]
        simp [Nat.shiftLeft_eq]
        omega
    · have h0 : u ≠ 0 := by rintro rfl; norm_num at hlow
      have h1 := two_pow_log2_le h0
      have h2 := lt_two_pow_log2 h0
      have hlo : 53 ≤ Nat.log2 u := by
        by_contra hc
        have : 2 ^ (Nat.log2 u + 1) ≤ 2 ^ 53 := Nat.pow_le_pow_right (by omega) (by omega)
        omega
      have hhi : Nat.log2 u < 2098 := by
        by_contra hc
        have : 2 ^ 2098 ≤ 2 ^ Nat.log2 u := Nat.pow_le_pow_right (by omega) (by omega)
        omega
      obtain ⟨sh, hsh⟩ : ∃ sh, Nat.log2 u = sh + 52 := ⟨Nat.log2 u - 52, by omega⟩
      rw [hsh] at h1 h2 hm hlo hhi
      have hr' : u = u / 2 ^ sh * 2 ^ sh := by
        have := hr.eq_mul
        rw [hsh, Nat.shiftRight_eq_div_pow] at this
        simpa using this
      simp only [Nat.add_sub_cancel] at hm
      set k := u / 2 ^ sh with hk
      have hk1 : 2 ^ 52 ≤ k := by
        rw [hk, Nat.le_div_iff_mul_le (Nat.two_pow_pos _), ← pow_add, Nat.add_comm]; exact h1
      have hk2 : k < 2 ^ 53 := by
        apply Nat.div_lt_of_lt_mul
        rw [← pow_add, show sh + 53 = sh + 52 + 1 by omega]; exact h2
      obtain ⟨f1, f2, f3⟩ := patternOf_fields s (b := magnitudeBits u) (by rw [hm]; omega)
      have e2 : magnitudeBits u / 2 ^ 52 = sh + 1 := by rw [hm]; omega
      have e3 : magnitudeBits u % 2 ^ 52 = k - 2 ^ 52 := by rw [hm]; omega
      rw [pack, unpack, f1, f2, f3, e2, e3, if_neg (by omega), if_neg (by omega), Nat.shiftLeft_eq, Nat.one_shiftLeft]
      congr 1
      rw [show k - 2 ^ 52 + 2 ^ 52 = k by omega, Nat.add_sub_cancel]
      exact hr'.symm

/-- The free NaN is a NaN, whatever its free bits. -/
theorem freeNaN_fields (k : Nat) : expField (freeNaN k) = 2047 ∧ (freeNaN k).getLsbD 51 = true := by
  constructor
  · rw [expField]
    have : (freeNaN k).extractLsb' 52 11 = 2047#11 := by
      unfold freeNaN
      ext i hi
      simp only [BitVec.getElem_extractLsb', BitVec.getLsbD_or]
      interval_cases i <;> simp
    rw [this]; rfl
  · unfold freeNaN
    simp

theorem isNaN_of_fields {a : Sample} (h1 : expField a = 2047) (h2 : a.getLsbD 51 = true) : isNaN a = true := by
  have : fracField a ≠ 0 := by
    intro h0
    rw [fracField] at h0
    have hz : a.extractLsb' 0 52 = 0 := BitVec.eq_of_toNat_eq (by simpa using h0)
    have : (a.extractLsb' 0 52).getLsbD 51 = a.getLsbD 51 := by simp
    rw [hz, h2] at this
    simp at this
  simp [isNaN, h1, this]

end Sys2Proof.Machine
end

