-- ==== Sys2Proof/Laws/Quantizer.lean ====
section
/-! SUPPORT. What the code of a pattern is, and what QUANT and QONE do. -/

namespace Sys2Proof.Machine

/-! ### The code of a pattern -/

/-- 0.5 in units of 2^-1074. -/
def halfUnits : Nat := 1 <<< 1073

theorem two_halfUnits : 2 * halfUnits = oneUnits := by decide +kernel
theorem negOne_eq : negOne = .fin true oneUnits := by decide +kernel
theorem posOne_eq : posOne = .fin false oneUnits := by decide +kernel
theorem half_eq : half = .fin false halfUnits := by decide +kernel
theorem twoFiftyFive_eq : twoFiftyFive = .fin false (255 * oneUnits) := by decide +kernel

/-- The two clamps of R90 on the exact magnitude. -/
theorem clampUnit_fin (neg : Bool) (u : Nat) : clampUnit (.fin neg u) = .fin neg (min u oneUnits) := by
  rw [clampUnit, negOne_eq, posOne_eq]
  simp only [flt, signedUnits, decide_eq_true_eq]
  cases neg
  · by_cases h : oneUnits < u
    · simp [h, Nat.min_eq_right h.le]
    · simp [h, Nat.min_eq_left (Nat.le_of_not_lt h)]
  · by_cases h : oneUnits < u
    · simp [h, Nat.min_eq_right h.le]
    · simp [h, Nat.min_eq_left (Nat.le_of_not_lt h)]

theorem clampUnit_inf (neg : Bool) : clampUnit (.inf neg) = .fin neg oneUnits := by
  rw [clampUnit, negOne_eq, posOne_eq]
  cases neg <;> rfl

/-- A value clamped is finite and at most 1.0 in magnitude. -/
theorem clampUnit_bounded {v : FVal} (h : v ≠ .nan) : ∃ neg u, clampUnit v = .fin neg u ∧ u ≤ oneUnits := by
  cases v with
  | nan => exact absurd rfl h
  | inf neg => exact ⟨neg, oneUnits, clampUnit_inf neg, le_rfl⟩
  | fin neg u => exact ⟨neg, _, clampUnit_fin neg u, Nat.min_le_right _ _⟩

/-- The first product of R91. -/
def halved (u : Nat) : Nat := roundUnits (u * halfUnits) oneUnits

/-- The sum of R91, before it is rounded; it is never negative. -/
def centred (neg : Bool) (u : Nat) : Nat := if neg then halfUnits - halved u else halfUnits + halved u

/-- The second product of R91. -/
def codeUnits (neg : Bool) (u : Nat) : Nat := roundUnits (roundUnits (centred neg u) 1 * (255 * oneUnits)) oneUnits

theorem representable_halfUnits : Representable halfUnits := by
  rw [halfUnits, Nat.one_shiftLeft]; exact representable_two_pow _

theorem representable_oneUnits : Representable oneUnits := by rw [oneUnits_eq]; exact representable_two_pow _

theorem representable_255 : Representable (255 * oneUnits) := by
  rw [oneUnits_eq]; exact representable_mul_two_pow _ (by norm_num)

theorem halved_le {u : Nat} (h : u ≤ oneUnits) : halved u ≤ halfUnits :=
  roundUnits_le oneUnits_pos representable_halfUnits (by rw [mul_comm]; exact Nat.mul_le_mul_left _ h)

theorem centred_le {neg : Bool} {u : Nat} (h : u ≤ oneUnits) : centred neg u ≤ oneUnits := by
  have h1 := halved_le h
  have h2 := two_halfUnits
  unfold centred
  split <;> omega

theorem rounded_centred_le {neg : Bool} {u : Nat} (h : u ≤ oneUnits) : roundUnits (centred neg u) 1 ≤ oneUnits :=
  roundUnits_le one_pos representable_oneUnits (by simpa using centred_le h)

theorem codeUnits_le {neg : Bool} {u : Nat} (h : u ≤ oneUnits) : codeUnits neg u ≤ 255 * oneUnits :=
  roundUnits_le oneUnits_pos representable_255 (by rw [mul_comm]; exact Nat.mul_le_mul_left _ (rounded_centred_le h))

theorem ofUnits_fin (neg : Bool) {n : Nat} (h : n ≤ 255 * oneUnits) : ofUnits neg n = .fin neg n := by
  have : 255 * oneUnits < infUnits := by decide +kernel
  rw [ofUnits, if_neg (by omega)]

/-- The affine map of a clamped value, exactly. -/
theorem affine_eq {neg : Bool} {u : Nat} (h : u ≤ oneUnits) : affine (.fin neg u) = .fin false (codeUnits neg u) := by
  have h1 := halved_le h
  have h2 := two_halfUnits
  have e1 : fmul (.fin neg u) half = .fin neg (halved u) := by
    rw [half_eq, fmul, fl, Bool.bne_false]
    exact ofUnits_fin _ (by change halved u ≤ _; omega)
  have e2 : fadd (.fin neg (halved u)) half = .fin false (roundUnits (centred neg u) 1) := by
    have hr := rounded_centred_le (neg := neg) h
    have hz : roundUnits 0 1 = 0 := by decide +kernel
    have hs : signedUnits neg (halved u) + signedUnits false halfUnits = (centred neg u : Int) := by
      cases neg <;> simp [signedUnits, centred] <;> omega
    rw [half_eq, fadd, hs]
    split
    · rename_i h0
      have : centred neg u = 0 := by omega
      rw [this, hz, Bool.and_false]
    · have hneg : decide ((centred neg u : Int) < 0) = false := by simp
      rw [fl, hneg, Int.natAbs_natCast]
      exact ofUnits_fin _ (by omega)
  rw [affine, e1, e2, twoFiftyFive_eq, fmul, fl]
  exact ofUnits_fin _ (codeUnits_le h)

/-- The rounded code of a clamped value is one of 0 .. 255, so R93's clamp leaves it as it is (R97). -/
theorem code_le {neg : Bool} {u : Nat} (h : u ≤ oneUnits) : roundHalfEven (codeUnits neg u) oneUnits ≤ 255 :=
  roundHalfEven_le oneUnits_pos (codeUnits_le h)

theorem clampCode_of_le {k : Nat} (h : k ≤ 255) : (clampCode k).toNat = k := by
  have : (min (max (k : Int) 0) 255).toNat = k := by omega
  rw [clampCode, this, BitVec.toNat_ofNat, Nat.mod_eq_of_lt (by omega)]

/-- The code of a pattern that is no NaN. -/
theorem qcode_eq {x : Sample} (hx : isNaN x = false) : ∃ neg u, clampUnit (unpack x) = .fin neg u ∧ u ≤ oneUnits ∧
    affine (clampUnit (unpack x)) = .fin false (codeUnits neg u) ∧
    ∃ c, qcode x = some c ∧ c.toNat = roundHalfEven (codeUnits neg u) oneUnits := by
  have hv : unpack x ≠ .nan := by rw [ne_eq, unpack_eq_nan_iff, hx]; decide
  obtain ⟨neg, u, hc, hu⟩ := clampUnit_bounded hv
  refine ⟨neg, u, hc, hu, by rw [hc, affine_eq hu], _, ?_, clampCode_of_le (code_le hu)⟩
  rw [qcode, hx, hc, affine_eq hu]
  rfl

/-- Exactly the NaNs have no code (R94, R97). -/
theorem qcode_eq_none_iff (x : Sample) : qcode x = none ↔ isNaN x = true := by
  cases hx : isNaN x with
  | true => simp [qcode, hx]
  | false =>
    obtain ⟨_, _, _, _, _, c, hq, _⟩ := qcode_eq hx
    simp [hq]

theorem qcode_isSome {x : Sample} (hx : isNaN x = false) : ∃ c, qcode x = some c := by
  obtain ⟨_, _, _, _, _, c, hq, _⟩ := qcode_eq hx
  exact ⟨c, hq⟩

/-! ### QUANT's loop -/

/-- What holds after the first `i` elements of a QUANT that starts in `s`. -/
structure QuantizedSoFar (s : State) (i : Nat) (u : State) : Prop where
  frame : u = { s with bram := u.bram }
  wf : Memory.wf s.bram → Memory.wf u.bram
  mem : ∀ x ∈ u.bram, x ∈ s.bram ∨ (s.qDst.toNat ≤ x.1 ∧ x.1 < s.qDst.toNat + i)
  codes : ∀ j < i, ∃ x c, Memory.readSample s.sram (s.qSrc.toNat + j) = some x ∧ qcode x = some c ∧
    Memory.read u.bram (s.qDst.toNat + j) = some c
  outside : ∀ a, a < s.qDst.toNat ∨ s.qDst.toNat + i ≤ a → Memory.read u.bram a = Memory.read s.bram a

theorem QuantizedSoFar.start (s : State) : QuantizedSoFar s 0 s :=
  ⟨rfl, id, fun _ h => .inl h, fun _ h => absurd h (Nat.not_lt_zero _), fun _ _ => rfl⟩

theorem QuantizedSoFar.turn {s u : State} {i : Nat} {x : Sample} {c : Byte} (h : QuantizedSoFar s i u)
    (hx : Memory.readSample s.sram (s.qSrc.toNat + i) = some x) (hc : qcode x = some c) :
    QuantizedSoFar s (i + 1) (u.memWriteB (s.qDst.toNat + i) c) := by
  have hb : (u.memWriteB (s.qDst.toNat + i) c).bram = Memory.write u.bram (s.qDst.toNat + i) c := rfl
  refine ⟨?_, ?_, ?_, ?_, ?_⟩
  · rw [State.memWriteB, State.withBram]
    generalize Memory.write u.bram (s.qDst.toNat + i) c = m
    rw [h.frame]
  · intro hwf; rw [hb]; exact Memory.write_wf (h.wf hwf) _ _
  · intro y hy
    rcases Memory.mem_write hy with hy | rfl
    · rcases h.mem y hy with hy | hy
      · exact .inl hy
      · exact .inr (by omega)
    · exact .inr (by simp only; omega)
  · intro j hj
    by_cases hji : j = i
    · subst hji; exact ⟨x, c, hx, hc, by rw [hb]; simp⟩
    · obtain ⟨y, d, h1, h2, h3⟩ := h.codes j (by omega)
      exact ⟨y, d, h1, h2, by rw [hb, Memory.read_write_other _ _ (by omega)]; exact h3⟩
  · intro a ha
    rw [hb, Memory.read_write_other _ _ (by omega)]
    exact h.outside a (by omega)

/-- QUANT's loop over its first `j` elements, where none is unwritten or a NaN. -/
theorem quantLoop_go {s : State} (j : Nat)
    (reads : ∀ i < j, ∃ x, Memory.readSample s.sram (s.qSrc.toNat + i) = some x ∧ isNaN x = false) :
    ∃ t, forUp j 0 quantElement s = .go t ∧ QuantizedSoFar s j t := by
  refine forUp_go (P := QuantizedSoFar s) j s (QuantizedSoFar.start s) ?_
  intro i u hi h
  obtain ⟨x, hx, hn⟩ := reads i hi
  obtain ⟨c, hc⟩ := qcode_isSome hn
  have h1 : u.sram = s.sram := by rw [h.frame]
  have h2 : u.qSrc = s.qSrc := by rw [h.frame]
  have h3 : u.qDst = s.qDst := by rw [h.frame]
  refine ⟨_, ?_, h.turn hx hc⟩
  rw [quantElement, h2, memReadS_some (v := x) (by rw [h1]; exact hx), hc, h3]

/-- Either every element is written and no NaN, or there is a first one that is not. -/
theorem elements_or_first (m : Memory) (a n : Nat) :
    (∀ i < n, ∃ x, Memory.readSample m (a + i) = some x ∧ isNaN x = false) ∨
    (∃ j < n, (∀ i < j, ∃ x, Memory.readSample m (a + i) = some x ∧ isNaN x = false) ∧
      (Memory.readSample m (a + j) = none ∨ ∃ x, Memory.readSample m (a + j) = some x ∧ isNaN x = true)) := by
  induction n with
  | zero => exact .inl (by omega)
  | succ n ih =>
    rcases ih with h | ⟨j, hj, h⟩
    · cases hv : Memory.readSample m (a + n) with
      | none => exact .inr ⟨n, by omega, h, .inl hv⟩
      | some v =>
        cases hn : isNaN v with
        | true => exact .inr ⟨n, by omega, h, .inr ⟨v, hv, hn⟩⟩
        | false =>
          refine .inl fun i hi => ?_
          by_cases hin : i = n
          · subst hin; exact ⟨v, hv, hn⟩
          · exact h i (by omega)
    · exact .inr ⟨j, by omega, h⟩

/-- Everything QUANT can do. -/
theorem quantFlow_cases (s : State) :
    ((s.cfg.sampleWords < s.qSrc.toNat + s.qLen.toNat ∨ s.cfg.byteWords < s.qDst.toNat + s.qLen.toNat) ∧
      quantFlow s = raiseError .range 0 .quant s) ∨
    (s.qSrc.toNat + s.qLen.toNat ≤ s.cfg.sampleWords ∧ s.qDst.toNat + s.qLen.toNat ≤ s.cfg.byteWords ∧
      (((∀ i < s.qLen.toNat, ∃ x, Memory.readSample s.sram (s.qSrc.toNat + i) = some x ∧ isNaN x = false) ∧
        ∃ t, quantFlow s = .go t ∧ QuantizedSoFar s s.qLen.toNat t) ∨
      (∃ j < s.qLen.toNat, (∀ i < j, ∃ x, Memory.readSample s.sram (s.qSrc.toNat + i) = some x ∧ isNaN x = false) ∧
        ((Memory.readSample s.sram (s.qSrc.toNat + j) = none ∧ quantFlow s = .stop (.uninitSample (s.qSrc.toNat + j))) ∨
        ((∃ x, Memory.readSample s.sram (s.qSrc.toNat + j) = some x ∧ isNaN x = true) ∧
          ∃ t, quantFlow s = raiseError .nan j .quant t ∧ QuantizedSoFar s j t))))) := by
  by_cases hfit : s.qSrc.toNat + s.qLen.toNat ≤ s.cfg.sampleWords ∧ s.qDst.toNat + s.qLen.toNat ≤ s.cfg.byteWords
  · obtain ⟨h1, h2⟩ := hfit
    refine .inr ⟨h1, h2, ?_⟩
    have hf1 : fits s.qSrc.toNat s.qLen.toNat s.cfg.sampleWords = true := by simpa using h1
    have hf2 : fits s.qDst.toNat s.qLen.toNat s.cfg.byteWords = true := by simpa using h2
    have hd : quantFlow s = forUp s.qLen.toNat 0 quantElement s := by simp [quantFlow, hf1, hf2]
    rw [hd]
    rcases elements_or_first s.sram s.qSrc.toNat s.qLen.toNat with h | ⟨j, hj, h, hbad⟩
    · exact .inl ⟨h, quantLoop_go _ h⟩
    · refine .inr ⟨j, hj, h, ?_⟩
      obtain ⟨u, hu, hq⟩ := quantLoop_go j h
      have e1 : u.sram = s.sram := by rw [hq.frame]
      have e2 : u.qSrc = s.qSrc := by rw [hq.frame]
      rw [show s.qLen.toNat = j + ((s.qLen.toNat - j - 1) + 1) by omega, forUp_add, hu, Flow.bind_go, forUp_succ, Nat.zero_add,
        quantElement, e2]
      rcases hbad with hbad | ⟨x, hx, hn⟩
      · exact .inl ⟨hbad, by rw [memReadS_none (by rw [e1]; exact hbad), Flow.bind_stop]⟩
      · refine .inr ⟨⟨x, hx, hn⟩, u, ?_, hq⟩
        rw [memReadS_some (v := x) (by rw [e1]; exact hx), (qcode_eq_none_iff x).mpr hn]
        rfl
  · refine .inl ⟨by omega, ?_⟩
    have : fits s.qSrc.toNat s.qLen.toNat s.cfg.sampleWords = false ∨ fits s.qDst.toNat s.qLen.toNat s.cfg.byteWords = false := by
      simp only [fits_eq_false]; omega
    rcases this with h | h <;> simp [quantFlow, h]

/-- Everything QONE can do. -/
theorem qoneFlow_cases (s : State) :
    (isNaN s.qoneOperand = true ∧ qoneFlow s = raiseError .nan 0 .qone s) ∨
    (isNaN s.qoneOperand = false ∧ ∃ c, qcode s.qoneOperand = some c ∧ qoneFlow s = .go { s with qoneRes := c }) := by
  cases h : isNaN s.qoneOperand with
  | true => exact .inl ⟨rfl, by rw [qoneFlow, (qcode_eq_none_iff _).mpr h]⟩
  | false =>
    obtain ⟨c, hc⟩ := qcode_isSome h
    exact .inr ⟨rfl, c, hc, by rw [qoneFlow, hc]⟩

end Sys2Proof.Machine
end

