-- ==== Sys2Proof/Laws/Resampler.lean ====
section
/-! SUPPORT. The modes of a resample, where it reads, and what RESAMPLE and RSLEN do. -/

namespace Sys2Proof.Machine

/-! ### Modes and positions -/

/-- What `rsmode` answers (R78). -/
theorem rsmode_cases (n src dst : Nat) :
    ((n < 2 ∨ src = dst) ∧ rsmode n src dst = (.copy, n)) ∨
    (2 ≤ n ∧ src ≠ dst ∧ n * dst / src ≤ 1 ∧ rsmode n src dst = (.degen, 1)) ∨
    (2 ≤ n ∧ src ≠ dst ∧ 1 < n * dst / src ∧ rsmode n src dst = (.interp, n * dst / src)) := by
  unfold rsmode
  split_ifs with h1 h2
  · exact .inl ⟨h1, rfl⟩
  · exact .inr (.inl ⟨by omega, by omega, h2, rfl⟩)
  · exact .inr (.inr ⟨by omega, by omega, by omega, rfl⟩)

/-- A position below the output length is below the input length. -/
theorem rsIndex_lt {n src dst i : Nat} (hs : 0 < src) (hd : 0 < dst) (h : i < n * dst / src) : rsIndex src dst i < n := by
  rw [rsIndex, Nat.div_lt_iff_lt_mul hd]
  have h1 : i + 1 ≤ n * dst / src := h
  have h2 : (i + 1) * src ≤ n * dst := (Nat.le_div_iff_mul_le hs).mp h1
  have h3 : (i + 1) * src = i * src + src := by ring
  omega

theorem rsNext_lt {n : Nat} (h : 0 < n) (i0 : Nat) : rsNext n i0 < n := by unfold rsNext; omega

/-! ### The value of an output -/

/-- The value that output index `i` gets, from the samples at `base`; `none` where one it reads is unwritten (R79, R80, R81 to R83). -/
def sourceValue (mode : RsMode) (n src dst base draw : Nat) (m : Memory) (i : Nat) : Option Sample :=
  match mode with
  | .copy => Memory.readSample m (base + i)
  | .degen => Memory.readSample m base
  | .interp => (Memory.readSample m (base + rsIndex src dst i)).bind fun x0 =>
      if rsRemainder src dst i = 0 then some x0
      else (Memory.readSample m (base + rsNext n (rsIndex src dst i))).map fun x1 =>
        lerpSample (draw + i) x0 x1 (rsRemainder src dst i) dst

/-- An output whose samples are written is given to `use`; otherwise the command stops. -/
theorem resampleValue_eq (mode : RsMode) (n src dst i : Nat) (s : State) (use : Sample → Flow) :
    (∃ y, sourceValue mode n src dst s.rsSrc.toNat s.draws s.sram i = some y ∧
      resampleValue mode n src dst i s use = use y) ∨
    (sourceValue mode n src dst s.rsSrc.toNat s.draws s.sram i = none ∧
      ∃ j, resampleValue mode n src dst i s use = .stop (.uninitSample j)) := by
  cases mode with
  | copy =>
    cases h : Memory.readSample s.sram (s.rsSrc.toNat + i) with
    | none => exact .inr ⟨h, _, memReadS_none h _⟩
    | some y => exact .inl ⟨y, h, memReadS_some h _⟩
  | degen =>
    cases h : Memory.readSample s.sram s.rsSrc.toNat with
    | none => exact .inr ⟨h, _, memReadS_none h _⟩
    | some y => exact .inl ⟨y, h, memReadS_some h _⟩
  | interp =>
    simp only [sourceValue, resampleValue]
    cases h0 : Memory.readSample s.sram (s.rsSrc.toNat + rsIndex src dst i) with
    | none => exact .inr ⟨rfl, _, memReadS_none h0 _⟩
    | some x0 =>
      simp only [memReadS_some h0, Option.bind_some]
      by_cases hr : rsRemainder src dst i = 0
      · exact .inl ⟨x0, by simp [hr]⟩
      · simp only [hr, if_false]
        cases h1 : Memory.readSample s.sram (s.rsSrc.toNat + rsNext n (rsIndex src dst i)) with
        | none => exact .inr ⟨rfl, _, memReadS_none h1 _⟩
        | some x1 => exact .inl ⟨_, rfl, memReadS_some h1 _⟩

/-- An output below the length depends only on the samples of the source region. -/
theorem sourceValue_congr {n src dst base draw i : Nat} {m m' : Memory} (hs : 0 < src) (hd : 0 < dst)
    (hi : i < (rsmode n src dst).2) (h : ∀ j < n, Memory.readSample m' (base + j) = Memory.readSample m (base + j)) :
    sourceValue (rsmode n src dst).1 n src dst base draw m' i = sourceValue (rsmode n src dst).1 n src dst base draw m i := by
  rcases rsmode_cases n src dst with ⟨_, e⟩ | ⟨h2, _, _, e⟩ | ⟨h2, _, _, e⟩ <;> rw [e] at hi ⊢
  · exact h i hi
  · exact h 0 (by omega)
  · simp only [sourceValue, h _ (rsIndex_lt hs hd hi), h _ (rsNext_lt (show 0 < n by omega) _)]

/-! ### RESAMPLE's loop -/

/-- What holds after the first `i` outputs of a RESAMPLE that starts in `s`. -/
structure ResampledSoFar (s : State) (mode : RsMode) (n src dst i : Nat) (u : State) : Prop where
  frame : u = { s with sram := u.sram }
  wf : Memory.wf s.sram → Memory.wf u.sram
  mem : ∀ x ∈ u.sram, x ∈ s.sram ∨ (8 * s.rsDst.toNat ≤ x.1 ∧ x.1 < 8 * (s.rsDst.toNat + i))
  values : ∀ j < i, ∃ y, sourceValue mode n src dst s.rsSrc.toNat s.draws s.sram j = some y ∧
    Memory.readSample u.sram (s.rsDst.toNat + j) = some y
  outside : ∀ a, a < 8 * s.rsDst.toNat ∨ 8 * (s.rsDst.toNat + i) ≤ a → Memory.read u.sram a = Memory.read s.sram a

theorem ResampledSoFar.start (s : State) (mode : RsMode) (n src dst : Nat) : ResampledSoFar s mode n src dst 0 s :=
  ⟨rfl, id, fun _ h => .inl h, fun _ h => absurd h (Nat.not_lt_zero _), fun _ _ => rfl⟩

theorem ResampledSoFar.turn {s u : State} {mode : RsMode} {n src dst i : Nat} {y : Sample} (h : ResampledSoFar s mode n src dst i u)
    (hy : sourceValue mode n src dst s.rsSrc.toNat s.draws s.sram i = some y) :
    ResampledSoFar s mode n src dst (i + 1) (u.memWriteS (s.rsDst.toNat + i) y) := by
  have hb : (u.memWriteS (s.rsDst.toNat + i) y).sram = Memory.writeSample u.sram (s.rsDst.toNat + i) y := rfl
  refine ⟨?_, ?_, ?_, ?_, ?_⟩
  · rw [State.memWriteS, State.withSram]
    generalize Memory.writeSample u.sram (s.rsDst.toNat + i) y = m
    rw [h.frame]
  · intro hwf; rw [hb]; exact Memory.writeSample_wf (h.wf hwf) _ _
  · intro x hx
    rcases Memory.mem_writeSample hx with hx | hx
    · rcases h.mem x hx with hx | hx
      · exact .inl hx
      · exact .inr (by omega)
    · exact .inr (by omega)
  · intro j hj
    by_cases hji : j = i
    · subst hji; exact ⟨y, hy, by rw [hb]; simp⟩
    · obtain ⟨z, h1, h2⟩ := h.values j (by omega)
      exact ⟨z, h1, by rw [hb, Memory.readSample_writeSample_other _ _ (by omega)]; exact h2⟩
  · intro a ha
    rw [hb, Memory.read_writeSample_outside _ _ _ (by omega)]
    exact h.outside a (by omega)

/-- The source region reads as it did at the start: no output lands in it. -/
theorem ResampledSoFar.source {s u : State} {mode : RsMode} {n src dst i len : Nat} (h : ResampledSoFar s mode n src dst i u)
    (hi : i ≤ len) (apart : overlap s.rsSrc.toNat n s.rsDst.toNat len = false) {j : Nat} (hj : j < n) :
    Memory.readSample u.sram (s.rsSrc.toNat + j) = Memory.readSample s.sram (s.rsSrc.toNat + j) := by
  rw [overlap_eq_false] at apart
  exact Memory.readSample_congr fun b h1 h2 => h.outside b (by omega)

theorem resampleLoop_go {s : State} {n src dst j : Nat} (hs : 0 < src) (hd : 0 < dst) (hj : j ≤ (rsmode n src dst).2)
    (apart : overlap s.rsSrc.toNat n s.rsDst.toNat (rsmode n src dst).2 = false)
    (reads : ∀ i < j, ∃ y, sourceValue (rsmode n src dst).1 n src dst s.rsSrc.toNat s.draws s.sram i = some y) :
    ∃ t, forUp j 0 (resampleElement (rsmode n src dst).1 n src dst) s = .go t ∧
      ResampledSoFar s (rsmode n src dst).1 n src dst j t := by
  refine forUp_go (P := ResampledSoFar s (rsmode n src dst).1 n src dst) j s (ResampledSoFar.start ..) ?_
  intro i u hi h
  obtain ⟨y, hy⟩ := reads i hi
  have e1 : u.rsSrc = s.rsSrc := by rw [h.frame]
  have e2 : u.rsDst = s.rsDst := by rw [h.frame]
  have e3 : u.draws = s.draws := by rw [h.frame]
  have hsame := sourceValue_congr (base := s.rsSrc.toNat) (draw := s.draws) (m := s.sram) (m' := u.sram) hs hd
    (show i < (rsmode n src dst).2 by omega) fun k hk => h.source (by omega) apart hk
  refine ⟨_, ?_, h.turn hy⟩
  rw [resampleElement, e2]
  rcases resampleValue_eq (rsmode n src dst).1 n src dst i u (fun z => .go (u.memWriteS (s.rsDst.toNat + i) z)) with
    ⟨z, hz, hf⟩ | ⟨hz, _⟩
  · rw [e1, e3, hsame, hy] at hz
    cases hz
    exact hf
  · rw [e1, e3, hsame, hy] at hz
    cases hz

/-- Either every output has its samples, or there is a first one that has not. -/
theorem outputs_or_first (f : Nat → Option Sample) (n : Nat) :
    (∀ i < n, ∃ y, f i = some y) ∨ (∃ j < n, f j = none ∧ ∀ i < j, ∃ y, f i = some y) := by
  induction n with
  | zero => exact .inl (by omega)
  | succ n ih =>
    rcases ih with h | ⟨j, hj, h⟩
    · cases hv : f n with
      | none => exact .inr ⟨n, by omega, hv, h⟩
      | some v =>
        refine .inl fun i hi => ?_
        by_cases hin : i = n
        · subst hin; exact ⟨v, hv⟩
        · exact h i (by omega)
    · exact .inr ⟨j, by omega, h⟩

/-- The mode and the output length of the RESAMPLE or RSLEN that the registers describe. -/
abbrev State.rsMode (s : State) : RsMode := (rsmode s.rsLen.toNat s.srcRate.toNat s.dstRate.toNat).1

@[inherit_doc State.rsMode]
abbrev State.rsOut (s : State) : Nat := (rsmode s.rsLen.toNat s.srcRate.toNat s.dstRate.toNat).2

/-- The value of output index `i` of that RESAMPLE. -/
abbrev State.rsValue (s : State) (i : Nat) : Option Sample :=
  sourceValue s.rsMode s.rsLen.toNat s.srcRate.toNat s.dstRate.toNat s.rsSrc.toNat s.draws s.sram i

@[simp] theorem State.lengthResult_warnDegen (s : State) (mode : RsMode) (len : Nat) :
    (s.lengthResult mode len).warnDegen = (s.warnDegen || decide (mode = .degen)) := by
  cases mode <;> simp [State.lengthResult, State.warn]

/-- Everything RESAMPLE can do. -/
theorem resampleFlow_cases (s : State) :
    ((s.srcRate.toNat = 0 ∨ s.dstRate.toNat = 0) ∧ resampleFlow s = raiseError .rate 0 .resample s) ∨
    (0 < s.srcRate.toNat ∧ 0 < s.dstRate.toNat ∧
      (((s.cfg.sampleWords < s.rsSrc.toNat + s.rsLen.toNat ∨ s.cfg.sampleWords < s.rsDst.toNat + s.rsOut) ∧
        resampleFlow s = raiseError .range 0 .resample s) ∨
      (s.rsSrc.toNat + s.rsLen.toNat ≤ s.cfg.sampleWords ∧ s.rsDst.toNat + s.rsOut ≤ s.cfg.sampleWords ∧
        ((overlap s.rsSrc.toNat s.rsLen.toNat s.rsDst.toNat s.rsOut = true ∧ resampleFlow s = raiseError .overlap 0 .resample s) ∨
        (overlap s.rsSrc.toNat s.rsLen.toNat s.rsDst.toNat s.rsOut = false ∧
          (((∀ i < s.rsOut, ∃ y, s.rsValue i = some y) ∧
            ∃ t, resampleFlow s = .go ((t.drawn (rsDraws s.rsMode s.rsOut)).lengthResult s.rsMode s.rsOut) ∧
              ResampledSoFar s s.rsMode s.rsLen.toNat s.srcRate.toNat s.dstRate.toNat s.rsOut t) ∨
          (∃ j < s.rsOut, s.rsValue j = none ∧ ∃ k, resampleFlow s = .stop (.uninitSample k)))))))) := by
  by_cases hrate : s.srcRate.toNat = 0 ∨ s.dstRate.toNat = 0
  · exact .inl ⟨hrate, by simp only [resampleFlow, hrate, if_true]⟩
  have hs : 0 < s.srcRate.toNat := by omega
  have hd : 0 < s.dstRate.toNat := by omega
  refine .inr ⟨hs, hd, ?_⟩
  by_cases hfit : s.rsSrc.toNat + s.rsLen.toNat ≤ s.cfg.sampleWords ∧ s.rsDst.toNat + s.rsOut ≤ s.cfg.sampleWords
  swap
  · refine .inl ⟨by omega, ?_⟩
    have : fits s.rsSrc.toNat s.rsLen.toNat s.cfg.sampleWords = false ∨ fits s.rsDst.toNat s.rsOut s.cfg.sampleWords = false := by
      simp only [fits_eq_false]; omega
    rcases this with h | h <;> simp only [resampleFlow, hrate, h, if_false, Bool.not_false, Bool.true_or, Bool.or_true, if_true]
  obtain ⟨h1, h2⟩ := hfit
  refine .inr ⟨h1, h2, ?_⟩
  have hf1 : fits s.rsSrc.toNat s.rsLen.toNat s.cfg.sampleWords = true := by simpa using h1
  have hf2 : fits s.rsDst.toNat s.rsOut s.cfg.sampleWords = true := by simpa using h2
  cases ho : overlap s.rsSrc.toNat s.rsLen.toNat s.rsDst.toNat s.rsOut with
  | true => exact .inl ⟨rfl, by simp only [resampleFlow, hrate, hf1, hf2, ho, if_false, Bool.not_true, Bool.or_self, Bool.false_eq_true, if_true]⟩
  | false =>
    refine .inr ⟨rfl, ?_⟩
    have hflow : resampleFlow s =
        (forUp s.rsOut 0 (resampleElement s.rsMode s.rsLen.toNat s.srcRate.toNat s.dstRate.toNat) s).bind fun t =>
          .go ((t.drawn (rsDraws s.rsMode s.rsOut)).lengthResult s.rsMode s.rsOut) := by
      simp only [resampleFlow, hrate, hf1, hf2, ho, if_false, Bool.not_true, Bool.or_self, Bool.false_eq_true]
    rcases outputs_or_first s.rsValue s.rsOut with h | ⟨j, hj, hn, h⟩
    · obtain ⟨t, ht, hr⟩ := resampleLoop_go hs hd le_rfl ho h
      exact .inl ⟨h, t, by rw [hflow, ht, Flow.bind_go], hr⟩
    · obtain ⟨u, hu, hr⟩ := resampleLoop_go hs hd hj.le ho h
      have e1 : u.rsSrc = s.rsSrc := by rw [hr.frame]
      have e3 : u.draws = s.draws := by rw [hr.frame]
      have hsame := sourceValue_congr (base := s.rsSrc.toNat) (draw := s.draws) (m := s.sram) (m' := u.sram) hs hd hj
        fun k hk => hr.source hj.le ho hk
      refine .inr ⟨j, hj, hn, ?_⟩
      rcases resampleValue_eq s.rsMode s.rsLen.toNat s.srcRate.toNat s.dstRate.toNat j u
          (fun z => .go (u.memWriteS (u.rsDst.toNat + j) z)) with ⟨z, hz, _⟩ | ⟨_, k, hk⟩
      · rw [e1, e3, hsame] at hz
        rw [State.rsValue] at hn
        rw [hn] at hz
        cases hz
      · refine ⟨k, ?_⟩
        rw [hflow, show s.rsOut = j + ((s.rsOut - j - 1) + 1) by omega, forUp_add, hu, Flow.bind_go, forUp_succ, Nat.zero_add,
          resampleElement, hk]
        rfl

/-- Everything RSLEN can do. -/
theorem rslenFlow_cases (s : State) :
    ((s.srcRate.toNat = 0 ∨ s.dstRate.toNat = 0) ∧ rslenFlow s = raiseError .rate 0 .rslen s) ∨
    (0 < s.srcRate.toNat ∧ 0 < s.dstRate.toNat ∧
      ((2 ^ 32 ≤ s.rsOut ∧ rslenFlow s = raiseError .range 0 .rslen s) ∨
      (s.rsOut < 2 ^ 32 ∧ rslenFlow s = .go (s.lengthResult s.rsMode s.rsOut)))) := by
  by_cases hrate : s.srcRate.toNat = 0 ∨ s.dstRate.toNat = 0
  · exact .inl ⟨hrate, by simp only [rslenFlow, hrate, if_true]⟩
  refine .inr ⟨by omega, by omega, ?_⟩
  by_cases h : 2 ^ 32 ≤ s.rsOut
  · exact .inl ⟨h, by simp only [rslenFlow, hrate, if_false, if_pos h]⟩
  · exact .inr ⟨by omega, by simp only [rslenFlow, hrate, if_false, if_neg h]⟩

end Sys2Proof.Machine
end

