-- ==== Sys2Proof/Laws/Exec.lean ====
section
/-! SUPPORT. Everything a command can do when it answers a next state, said once. -/

namespace Sys2Proof.Machine

/-- A DPCM step changes only the encoder's registers, BRAM and D_WPTR. -/
theorem State.dstep_frame (u : State) (x : Byte) : u.dstep x = { u with
    acc := (u.dstep x).acc, bram := (u.dstep x).bram, pend := (u.dstep x).pend, cnt := (u.dstep x).cnt
    lastBit := (u.dstep x).lastBit, dBits := (u.dstep x).dBits, dWptr := (u.dstep x).dWptr } := by
  simp only [State.dstep, State.emit]
  split <;> rfl

/-- DENC's loop ends by going on or by stopping, and changes only the encoder's registers, BRAM and D_WPTR, in any block. -/
theorem encLoop_frame (count first : Nat) (s : State) :
    (∃ t, forUp count first encElement s = .go t ∧ t = { s with
      acc := t.acc, bram := t.bram, pend := t.pend, cnt := t.cnt, lastBit := t.lastBit, dBits := t.dBits, dWptr := t.dWptr }) ∨
    (∃ k, forUp count first encElement s = .stop (.uninitByte k)) := by
  induction count generalizing first s with
  | zero => exact .inl ⟨s, rfl, rfl⟩
  | succ count ih =>
    rw [forUp_succ, encElement]
    cases hr : Memory.read s.bram (s.dSrc.toNat + first) with
    | none => exact .inr ⟨_, by rw [memReadB_none hr, Flow.bind_stop]⟩
    | some x =>
      rw [memReadB_some hr, Flow.bind_go]
      rcases ih (first + 1) (s.dstep x) with ⟨t, h, hf⟩ | ⟨k, h⟩
      · exact .inl ⟨t, h, hf.trans (State.step_frame (State.dstep_frame s x))⟩
      · exact .inr ⟨k, h⟩

/-- The states in which a command can end. -/
inductive Ends (s : State) : Instr → State → Prop where
  /-- A check failed: only the error record changes (R118, R125, R126). -/
  | check (code : ErrCode) (i : Instr) (legal : code.raisedBy i = true) :
      Ends s i (s.raise code 0 (encode i))
  | nop : Ends s .nop s.complete
  | resample (t : State) (src : 0 < s.srcRate.toNat) (dst : 0 < s.dstRate.toNat)
      (fitsSrc : s.rsSrc.toNat + s.rsLen.toNat ≤ s.cfg.sampleWords) (fitsDst : s.rsDst.toNat + s.rsOut ≤ s.cfg.sampleWords)
      (apart : overlap s.rsSrc.toNat s.rsLen.toNat s.rsDst.toNat s.rsOut = false)
      (done : ResampledSoFar s s.rsMode s.rsLen.toNat s.srcRate.toNat s.dstRate.toNat s.rsOut t) :
      Ends s .resample ((t.drawn (rsDraws s.rsMode s.rsOut)).lengthResult s.rsMode s.rsOut).complete
  | rslen (src : 0 < s.srcRate.toNat) (dst : 0 < s.dstRate.toNat) (small : s.rsOut < 2 ^ 32) :
      Ends s .rslen (s.lengthResult s.rsMode s.rsOut).complete
  | quant (t : State) (fitsSrc : s.qSrc.toNat + s.qLen.toNat ≤ s.cfg.sampleWords)
      (fitsDst : s.qDst.toNat + s.qLen.toNat ≤ s.cfg.byteWords) (done : QuantizedSoFar s s.qLen.toNat t) : Ends s .quant t.complete
  /-- QUANT at a NaN: the codes before it stand (R126). -/
  | quantNaN (t : State) (j : Nat) (small : j < s.qLen.toNat) (fitsSrc : s.qSrc.toNat + s.qLen.toNat ≤ s.cfg.sampleWords)
      (fitsDst : s.qDst.toNat + s.qLen.toNat ≤ s.cfg.byteWords) (done : QuantizedSoFar s j t) :
      Ends s .quant (t.raise .nan j (encode .quant))
  | qone (c : Byte) (code : qcode s.qoneOperand = some c) : Ends s .qone { s with qoneRes := c, done := true }
  | dinit : Ends s .dinit s.startStream.complete
  | denc (t : State) (fitsSrc : s.dSrc.toNat + s.dLen.toNat ≤ s.cfg.byteWords) (fitsDst : s.dWptr.toNat + s.encBytes ≤ s.cfg.byteWords)
      (apart : overlap s.dSrc.toNat s.dLen.toNat s.dWptr.toNat s.encBytes = false)
      (frame : t = { s with
        acc := t.acc, bram := t.bram, pend := t.pend, cnt := t.cnt, lastBit := t.lastBit, dBits := t.dBits, dWptr := t.dWptr })
      (done : s.cfg.byteWords < 2 ^ 32 → ∃ ts : List Byte, ts.length = s.dLen.toNat ∧
        (∀ i < s.dLen.toNat, Memory.read s.bram (s.dSrc.toNat + i) = ts[i]?) ∧ EncodedSoFar s ts t) : Ends s .denc t.complete
  | dstep (target : Byte) (room : s.cnt.toNat = 7 → s.dWptr.toNat < s.cfg.byteWords) :
      Ends s (.dstep target) (s.dstep target).complete
  | dflush (room : 0 < s.cnt.toNat → s.dWptr.toNat < s.cfg.byteWords) : Ends s .dflush s.flush.complete

theorem outcome_of {x : Flow} {u t : State} (hx : x = .go u) (h : x.outcome = .next t) : t = u.complete := by
  rw [hx, Flow.outcome_go] at h
  cases h
  rfl

theorem outcome_of_raise {x : Flow} {c : ErrCode} {n : Nat} {i : Instr} {u t : State} (hx : x = raiseError c n i u)
    (h : x.outcome = .next t) : t = u.raise c n (encode i) := by
  rw [hx, Flow.outcome_raiseError] at h
  cases h
  rfl

theorem outcome_of_stop {x : Flow} {f : Fault} {t : State} (hx : x = .stop f) (h : x.outcome = .next t) : False := by
  rw [hx, Flow.outcome_stop] at h
  cases h

/-- A command that answers a next state ends in one of those. -/
theorem exec_ends {i : Instr} {s t : State} (h : exec i s = .next t) : Ends s i t := by
  cases i with
  | nop => cases h; exact .nop
  | resample =>
    change (resampleFlow s).outcome = _ at h
    rcases resampleFlow_cases s with ⟨_, e⟩ | ⟨h1, h2, ⟨_, e⟩ | ⟨h3, h4, ⟨_, e⟩ | ⟨h5, ⟨_, u, e, hu⟩ | ⟨_, _, _, _, e⟩⟩⟩⟩
    · rw [outcome_of_raise e h]; exact .check _ _ rfl
    · rw [outcome_of_raise e h]; exact .check _ _ rfl
    · rw [outcome_of_raise e h]; exact .check _ _ rfl
    · rw [outcome_of e h]; exact .resample u h1 h2 h3 h4 h5 hu
    · exact (outcome_of_stop e h).elim
  | rslen =>
    change (rslenFlow s).outcome = _ at h
    rcases rslenFlow_cases s with ⟨_, e⟩ | ⟨h1, h2, ⟨_, e⟩ | ⟨h3, e⟩⟩
    · rw [outcome_of_raise e h]; exact .check _ _ rfl
    · rw [outcome_of_raise e h]; exact .check _ _ rfl
    · rw [outcome_of e h]; exact .rslen h1 h2 h3
  | quant =>
    change (quantFlow s).outcome = _ at h
    rcases quantFlow_cases s with ⟨_, e⟩ | ⟨h1, h2, ⟨_, u, e, hu⟩ | ⟨j, hj, _, ⟨_, e⟩ | ⟨_, u, e, hu⟩⟩⟩
    · rw [outcome_of_raise e h]; exact .check _ _ rfl
    · rw [outcome_of e h]; exact .quant u h1 h2 hu
    · exact (outcome_of_stop e h).elim
    · rw [outcome_of_raise e h]; exact .quantNaN u j hj h1 h2 hu
  | qone =>
    change (qoneFlow s).outcome = _ at h
    rcases qoneFlow_cases s with ⟨_, e⟩ | ⟨_, c, hc, e⟩
    · rw [outcome_of_raise e h]; exact .check _ _ rfl
    · rw [outcome_of e h]; exact .qone c hc
  | dinit => cases h; exact .dinit
  | denc =>
    change (dencFlow s).outcome = _ at h
    by_cases hfit : s.dSrc.toNat + s.dLen.toNat ≤ s.cfg.byteWords ∧ s.dWptr.toNat + s.encBytes ≤ s.cfg.byteWords
    swap
    · have e : dencFlow s = raiseError .range 0 .denc s := by
        have : fits s.dSrc.toNat s.dLen.toNat s.cfg.byteWords = false ∨ fits s.dWptr.toNat s.encBytes s.cfg.byteWords = false := by
          simp only [fits_eq_false]; omega
        rcases this with h | h <;> simp [dencFlow, h]
      rw [outcome_of_raise e h]; exact .check _ _ rfl
    have hf1 : fits s.dSrc.toNat s.dLen.toNat s.cfg.byteWords = true := by simpa using hfit.1
    have hf2 : fits s.dWptr.toNat s.encBytes s.cfg.byteWords = true := by simpa using hfit.2
    cases ho : overlap s.dSrc.toNat s.dLen.toNat s.dWptr.toNat s.encBytes with
    | true =>
      have e : dencFlow s = raiseError .overlap 0 .denc s := by simp [dencFlow, hf1, hf2, ho]
      rw [outcome_of_raise e h]; exact .check _ _ rfl
    | false =>
      have e : dencFlow s = forUp s.dLen.toNat 0 encElement s := by simp [dencFlow, hf1, hf2, ho]
      rcases encLoop_frame s.dLen.toNat 0 s with ⟨u, hu, hf⟩ | ⟨k, hk⟩
      · rw [outcome_of (e.trans hu) h]
        refine .denc u hfit.1 hfit.2 ho hf fun hcfg => ?_
        rcases dencFlow_cases hcfg with ⟨hbad, _⟩ | ⟨_, _, ⟨hbad, _⟩ | ⟨_, ⟨ts, h1, h2, v, hv, hso⟩ | ⟨_, _, _, hbad⟩⟩⟩
        · omega
        · rw [ho] at hbad; cases hbad
        · rw [e, hu] at hv
          cases hv
          exact ⟨ts, h1, h2, hso⟩
        · rw [e, hu] at hbad; cases hbad
      · exact (outcome_of_stop (e.trans hk) h).elim
  | dstep x =>
    change (dstepFlow x s).outcome = _ at h
    by_cases hroom : s.cnt.toNat = 7 ∧ s.cfg.byteWords ≤ s.dWptr.toNat
    · have e : dstepFlow x s = raiseError .range 0 (.dstep x) s := by rw [dstepFlow, if_pos hroom]
      rw [outcome_of_raise e h]; exact .check _ _ rfl
    · have e : dstepFlow x s = .go (s.dstep x) := by rw [dstepFlow, if_neg hroom]
      rw [outcome_of e h]; exact .dstep x (by omega)
  | dflush =>
    change (dflushFlow s).outcome = _ at h
    by_cases hroom : 0 < s.cnt.toNat ∧ s.cfg.byteWords ≤ s.dWptr.toNat
    · have e : dflushFlow s = raiseError .range 0 .dflush s := by rw [dflushFlow, if_pos hroom]
      rw [outcome_of_raise e h]; exact .check _ _ rfl
    · have e : dflushFlow s = .go s.flush := by rw [dflushFlow, if_neg hroom]
      rw [outcome_of e h]; exact .dflush (by omega)

/-- Only the three commands that read a loop of cells can stop (R140), and none is refused. -/
theorem exec_stops {i : Instr} {s : State} {f : Fault} (h : exec i s = .fault f) : i = .resample ∨ i = .quant ∨ i = .denc := by
  cases i with
  | resample => exact .inl rfl
  | quant => exact .inr (.inl rfl)
  | denc => exact .inr (.inr rfl)
  | nop => cases h
  | dinit => cases h
  | rslen =>
    rcases rslenFlow_cases s with ⟨_, e⟩ | ⟨_, _, ⟨_, e⟩ | ⟨_, e⟩⟩ <;> (rw [exec, execRslen, e] at h; cases h)
  | qone =>
    rcases qoneFlow_cases s with ⟨_, e⟩ | ⟨_, _, _, e⟩ <;> (rw [exec, execQone, e] at h; cases h)
  | dstep x =>
    rw [exec, execDstep, dstepFlow] at h
    split at h <;> cases h
  | dflush =>
    rw [exec, execDflush, dflushFlow] at h
    split at h <;> cases h

theorem exec_ne_refused (i : Instr) (s : State) (r : Refusal) : exec i s ≠ .refused r := by
  cases i <;> first
    | exact Flow.outcome_ne_refused _ r
    | exact fun h => by cases h

end Sys2Proof.Machine
end

