-- ==== Sys2Proof/Laws/PerInstr.lean ====
section
/-! SUPPORT. The family EncodedFields: what the word of each instruction holds. -/

namespace Sys2Proof.Laws.EncodedFields

/-- The word of `i` holds its fields, they are legal, and its lowest two bytes are the number spec/opcode_table.json gives. -/
def Statement (i : Instr) : Prop :=
  splitWord (encode i) = i.fields ∧ i.wellFormed = true ∧ (encode i).toNat = 256 * i.fields.imm8.toNat + i.fields.op.toNat

/-- The form of every proof below. -/
theorem of_rsv {i : Instr} (h : i.fields.rsv = 0) : Statement i :=
  ⟨splitWord_joinWord _, i.wellFormed_all, by rw [encode, joinWord_toNat, h]; simp; omega⟩

theorem nop : Statement .nop := of_rsv rfl
theorem resample : Statement .resample := of_rsv rfl
theorem rslen : Statement .rslen := of_rsv rfl
theorem quant : Statement .quant := of_rsv rfl
theorem qone : Statement .qone := of_rsv rfl
theorem dinit : Statement .dinit := of_rsv rfl
theorem denc : Statement .denc := of_rsv rfl
theorem dstep (target : Byte) : Statement (.dstep target) := of_rsv rfl
theorem dflush : Statement .dflush := of_rsv rfl

end Sys2Proof.Laws.EncodedFields
end

