-- ==== Sys2Proof/Tests/Slice0.lean ====
section
/-! SUPPORT. The model's own tests, with expected results from the spec's rules and vectors, and a witness for the hypotheses of each
obligation. -/

namespace Sys2Proof.Tests

open Sys2Proof Sys2Proof.Machine

/-! ### Well-formedness: a term each check refuses -/

theorem test_rsv_refused : ({ op := 0x22, imm8 := 0xFF, rsv := 0x0100 } : CmdFields).rsvOk = false := by decide
theorem test_imm_refused : ({ op := 0x00, imm8 := 0x01, rsv := 0 } : CmdFields).immOk = false := by decide
theorem test_op_refused : ({ op := 0x24, imm8 := 0, rsv := 0 } : CmdFields).opOk = false := by decide
theorem test_fields_refused : ({ op := 0x03, imm8 := 0, rsv := 0 } : CmdFields).wellFormed = false := by decide
theorem test_dstep_fields_accepted : ({ op := 0x22, imm8 := 0xFF, rsv := 0 } : CmdFields).wellFormed = true := by decide
theorem test_instruction_accepted : (Instr.dstep 0xFF).wellFormed = true := by decide
theorem test_sampleWords_refused : ({ sampleWords := 131073, byteWords := 4, blockBase := 0 } : Config).sampleWordsOk = false := by decide
theorem test_byteWords_refused : ({ sampleWords := 1, byteWords := 6, blockBase := 0 } : Config).byteWordsOk = false := by decide
theorem test_blockBase_refused : ({ sampleWords := 1, byteWords := 4, blockBase := 0x100000 } : Config).blockBaseOk = false := by decide
theorem test_config_refused : ({ sampleWords := 0, byteWords := 4, blockBase := 0 } : Config).wellFormed = false := by decide

/-! ### Decoding: a word of each row, bit by bit from R63 and R64 (RSV, IMM8, OP) -/

theorem test_decode_nop : decode 0b0000000000000000_00000000_00000000#32 = .ok .nop := by decide
theorem test_decode_resample : decode 0b0000000000000000_00000000_00000001#32 = .ok .resample := by decide
theorem test_decode_rslen : decode 0b0000000000000000_00000000_00000010#32 = .ok .rslen := by decide
theorem test_decode_quant : decode 0b0000000000000000_00000000_00010000#32 = .ok .quant := by decide
theorem test_decode_qone : decode 0b0000000000000000_00000000_00010001#32 = .ok .qone := by decide
theorem test_decode_dinit : decode 0b0000000000000000_00000000_00100000#32 = .ok .dinit := by decide
theorem test_decode_denc : decode 0b0000000000000000_00000000_00100001#32 = .ok .denc := by decide
theorem test_decode_dstep : decode 0b0000000000000000_10000001_00100010#32 = .ok (.dstep 0b10000001) := by decide
theorem test_decode_dflush : decode 0b0000000000000000_00000000_00100011#32 = .ok .dflush := by decide

/-- V-DEC-11, V-DEC-15 and V-DEC-16. -/
theorem test_decode_refuses : decode 0x00000003 = .error .reservedOp ∧ decode 0x0100FF22 = .error .reservedField ∧
    decode 0x00000121 = .error .immediateField := by decide

theorem test_encode_dstep : encode (.dstep 0x80) = 0x00008022 := by decide
theorem test_decodeTableWord : decodeTableWord 32 0x0000FF22 = some (.dstep 0xFF) ∧ decodeTableWord 32 0x24 = none := by decide

/-! ### Small states -/

/-- SRAM with these samples from index 0. -/
def samples : List Sample → Nat → Memory
  | [], _ => []
  | x :: xs, j => Memory.writeSample (samples xs (j + 1)) j x

/-- BRAM with these bytes from index 0. -/
def bytes : List Byte → Nat → Memory
  | [], _ => []
  | x :: xs, k => Memory.write (bytes xs (k + 1)) k x

/-- A block just after reset with these samples, 0.0, 0.5, 1.0, 0.5 (V-RS-3), and these bytes, 128 and 255 (V-D-1). -/
def block : State :=
  { State.reset with sram := samples [0, 0x3FE0000000000000, 0x3FF0000000000000, 0x3FE0000000000000] 0, bram := bytes [128, 255] 0 }

/-- A property of the next state, false at a stop. -/
def after (x : Host.Outcome State Fault Refusal) (p : State → Bool) : Bool :=
  match x with
  | .next t => p t
  | .fault _ => false
  | .refused _ => false

theorem test_memory_wf : Memory.wf block.sram ∧ Memory.wf block.bram := by decide

/-! ### One step of each command -/

/-- R115's example. -/
theorem test_nop : after (exec .nop State.reset) (fun t => t.statusWord == 1) = true := by decide +kernel

/-- V-RS-3. -/
theorem test_resample_interp :
    after (exec .resample { block with srcRate := 2, dstRate := 3, rsLen := 4, rsDst := 4 })
      (fun t => t.rsOutLen == 6 && Memory.readSample t.sram 8 == some 0x3FE5555555555556) = true := by decide +kernel

/-- V-RS-6 with its first sample 0.0. -/
theorem test_resample_degen :
    after (exec .resample { block with srcRate := 2, dstRate := 1, rsLen := 3, rsDst := 4 })
      (fun t => t.statusWord == 3 && Memory.readSample t.sram 4 == some 0) = true := by decide +kernel

/-- V-RL-2. -/
theorem test_rslen : after (exec .rslen { State.reset with srcRate := 44100, dstRate := 11025, rsLen := 44100 })
    (fun t => t.rsOutLen == 11025 && t.statusWord == 1) = true := by decide +kernel

/-- V-RL-6. -/
theorem test_rslen_range : after (exec .rslen { State.reset with srcRate := 1, dstRate := 0xFFFFFFFF, rsLen := 0xFFFFFFFF })
    (fun t => t.statusWord == 0x300 && t.rsOutLen == 0) = true := by decide +kernel

/-- V-E2E: 0.0 and 1.0 have the codes 128 and 255. -/
theorem test_quant : after (exec .quant { block with qSrc := 0, qDst := 8, qLen := 3 })
    (fun t => Memory.read t.bram 8 == some 128 && Memory.read t.bram 10 == some 255) = true := by decide +kernel

/-- V-Q-N3's shape: a NaN at element 1 leaves one code written. -/
theorem test_quant_nan :
    after (exec .quant { State.reset with sram := samples [0x3FE0000000000000, 0x7FF8000000000000, 0] 0, qLen := 3 })
      (fun t => t.err == .nan && t.errIndex == 1 && t.bram == [(0, 191)]) = true := by decide +kernel

/-- V-Q-T3. -/
theorem test_qone : after (exec .qone { State.reset with qoneHi := 0x3FEFDFDF, qoneLo := 0xDFDFDFDF })
    (fun t => t.qoneRes == 254) = true := by decide +kernel

/-- V-Q-N2. -/
theorem test_qone_nan : after (exec .qone { State.reset with qoneHi := 0x7FF00000, qoneLo := 1 })
    (fun t => t.statusWord == 0x500 && t.errCmd == 0x11) = true := by decide +kernel

/-- R105's example. -/
theorem test_dinit : after (exec .dinit { State.reset with acc := 3, cnt := 5, pend := 9, lastBit := true })
    (fun t => t.readCsr .dAcc == 0x80 && t.readCsr .dPack == 0) = true := by decide +kernel

/-- V-D-1. -/
theorem test_denc : after (exec .denc { block with dLen := 2, dWptr := 4 })
    (fun t => t.acc == 128 && t.packWord == 0x00010201 && t.bram == block.bram) = true := by decide +kernel

/-- V-D-3: the byte 0x55. -/
theorem test_denc_byte : after (exec .denc { State.reset with bram := bytes (List.replicate 8 128) 0, dLen := 8, dWptr := 8 })
    (fun t => Memory.read t.bram 8 == some 0x55 && t.packWord == 0x00010000) = true := by decide +kernel

/-- V-DEC-9. -/
theorem test_dstep : after (exec (.dstep 255) State.reset) (fun t => t.readCsr .dAcc == 0x81 && t.packWord == 0x00010101) = true := by
  decide +kernel

/-- R108's example. -/
theorem test_dflush : after (exec .dflush { State.reset with cnt := 2, pend := 1, dWptr := 4 })
    (fun t => Memory.read t.bram 4 == some 0x40 && t.dWptr == 5) = true := by decide +kernel

/-- The word of a row runs as the first step after reset. -/
theorem test_withFetchWord : after (step (State.reset.withFetchWord 32 0x0000FF22)) (fun t => t.acc == 0x81) = true := by decide +kernel

/-! ### Witnesses: a state and operands that meet the hypotheses of each obligation -/

/-- `block` with a host about to make this access. -/
def facing (offset : Nat) (op : BusOp) : State := { block with host := [accessAt block.cfg offset .w32 op] }

theorem facing_accesses (offset : Nat) (op : BusOp) : (facing offset op).accesses offset op [] := ⟨rfl, rfl⟩

/-- `block` with a host about to issue this word, and this error recorded. -/
def issuing (w : Word) (err : ErrCode) : State := { block with host := [cmdWrite block.cfg w], err := err }

theorem issuing_issues (w : Word) (err : ErrCode) : (issuing w err).issues w [] := ⟨rfl, rfl⟩

theorem next_of {x : Host.Outcome State Fault Refusal} {t : State} (h : after x (fun u => decide (u = t)) = true) : x = .next t := by
  cases x with
  | next u => rw [show u = t from of_decide_eq_true h]
  | fault f => cases h
  | refused r => cases h

theorem witness_StepRunsTheDecodedCommand :
    ((issuing 0x0000FF22 .none).issues 0x0000FF22 [] ∧ (issuing 0x0000FF22 .none).err = .none ∧
      decode 0x0000FF22 = .ok (.dstep 0xFF)) ∧
    (State.reset.err = .none ∧ decode 0x23 = .ok .dflush) :=
  ⟨⟨issuing_issues _ _, rfl, rfl⟩, rfl, rfl⟩

theorem witness_IllegalWordsRaiseIllegalOnly :
    ((issuing 0x00010000 .none).issues 0x00010000 [] ∧ (0x00010000 : Word).extractLsb' 16 16 ≠ 0) ∧
    ((issuing 0x00000100 .none).issues 0x00000100 [] ∧
      (0x00000100 : Word).extractLsb' 8 8 ≠ 0 ∧ (0x00000100 : Word).extractLsb' 0 8 ≠ 0x22) ∧
    ((issuing 0x000000FF .none).issues 0x000000FF [] ∧
      (0x000000FF : Word).extractLsb' 0 8 ∉ ([0x00, 0x01, 0x02, 0x10, 0x11, 0x20, 0x21, 0x22, 0x23] : List Byte)) :=
  ⟨⟨issuing_issues _ _, by decide⟩, ⟨issuing_issues _ _, by decide⟩, issuing_issues _ _, by decide⟩

theorem witness_CommandWritesAreIgnoredWhileErrIsSet : (issuing 0x10 .rate).issues 0x10 [] ∧ (issuing 0x10 .rate).err ≠ .none :=
  ⟨issuing_issues _ _, by decide⟩

theorem witness_BlockStartsNothingOnItsOwn : block.host = [] := rfl

/-- Every way of R49 and R141 to be refused, at the ends of its range. -/
theorem witness_RefusedAccessesGetABusErrorAndChangeNothing :
    ({ facing 0x10 .read with rst := true } : State).host = accessAt block.cfg 0x10 .w32 .read :: [] ∧
    ({ block with host := [accessAt block.cfg 0x10 .w16 .read] } : State).host = accessAt block.cfg 0x10 .w16 .read :: [] ∧
    (0x13 : Nat) % 4 ≠ 0 ∧
    ((0x100 : Nat) ≤ 0x100 ∧ (0x100 : Nat) < 0x100000) ∧ ((0x100 : Nat) ≤ 0xFFFFC ∧ (0xFFFFC : Nat) < 0x100000) ∧
    (0x100000 + 8 * block.cfg.sampleWords ≤ 0x100200 ∧ (0x1FFFFC : Nat) < 0x200000) ∧
    (0x200000 + block.cfg.byteWords ≤ 0x200040 ∧ (0x2FFFFC : Nat) < 0x300000) ∧
    ((0x300000 : Nat) ≤ 0x300000 ∧ (0x3FFFFC : Nat) < 0x400000) := by decide

theorem witness_RegisterWindowReads :
    (facing 0x5C .read).accesses Csr.errCmd.offset .read [] ∧
    ((0x60 : Nat) ≤ 0x60 ∧ (facing 0x60 .read).accesses 0x60 .read []) ∧
    ((0xFC : Nat) < 0x100 ∧ (0xFC : Nat) % 4 = 0 ∧ (facing 0xFC (.write 7)).accesses 0xFC (.write 7) []) ∧
    (facing 0x100 .read).accesses 0x100 .read [] ∧ (facing 0xFFFFC (.write 1)).accesses 0xFFFFC (.write 1) [] :=
  ⟨facing_accesses _ _, ⟨by decide, facing_accesses _ _⟩, ⟨by decide, by decide, facing_accesses _ _⟩, facing_accesses _ _,
    facing_accesses _ _⟩

theorem witness_RegisterWritesFollowTheAccessTypes :
    (facing 0x04 (.write 0xFFFFFFFF)).accesses Csr.ctrl.offset (.write 0xFFFFFFFF) [] ∧
    (facing 0x48 (.write 9)).accesses Csr.dWptr.offset (.write 9) [] ∧
    (facing 0x00 (.write 5)).accesses Csr.id.offset (.write 5) [] ∧
    (facing 0x5C (.write 5)).accesses Csr.errCmd.offset (.write 5) [] :=
  ⟨facing_accesses _ _, facing_accesses _ _, facing_accesses _ _, facing_accesses _ _⟩

theorem witness_StatusWriteClearsByBits : (facing 0x08 (.write 0x80000003)).accesses 0x08 (.write 0x80000003) [] := facing_accesses _ _

/-- A block with DONE, WARN_DEGEN and an error recorded, whose host clears all three. -/
def clearing : State :=
  { facing 0x08 (.write 0x80000003) with done := true, warnDegen := true, err := .overlap, errCmd := 1 }

theorem witness_StatusIsSticky :
    step clearing = .next { block with replies := [.done] } ∧
    clearing.done = true ∧ clearing.warnDegen = true ∧ clearing.err ≠ .none ∧ block.done = false ∧ block.warnDegen = false ∧
    ¬(block.err = clearing.err ∧ block.errIndex = clearing.errIndex ∧ block.errCmd = clearing.errCmd) :=
  ⟨next_of (by decide), by decide, by decide, by decide, by decide, by decide, by decide⟩

theorem witness_SampleHalvesReadAndWriteAlone :
    block.cfg.wellFormed = true ∧ 3 < block.cfg.sampleWords ∧ Memory.readSample block.sram 3 = some 0x3FE0000000000000 ∧
    (facing 0x100018 .read).accesses (0x100000 + 8 * 3) .read [] ∧ (facing 0x10001C .read).accesses (0x100000 + 8 * 3 + 4) .read [] ∧
    (facing 0x100018 (.write 1)).accesses (0x100000 + 8 * 3) (.write 1) [] ∧
    (facing 0x10001C (.write 1)).accesses (0x100000 + 8 * 3 + 4) (.write 1) [] :=
  ⟨by decide, by decide, by decide, facing_accesses _ _, facing_accesses _ _, facing_accesses _ _, facing_accesses _ _⟩

theorem witness_SampleIsWrittenOnlyByBothHalves :
    block.cfg.wellFormed = true ∧ 63 < block.cfg.sampleWords ∧ block.rst = false ∧ (∀ b < 8, Memory.read block.sram (8 * 63 + b) = none) ∧
    ({ block with host := wsmp block.cfg 63 5 } : State).host = wsmp block.cfg 63 5 ++ [] := by decide

theorem witness_BramWordsAreLittleEndian :
    block.cfg.wellFormed = true ∧ (60 : Nat) % 4 = 0 ∧ 60 < block.cfg.byteWords ∧
    (Memory.read (bytes [1, 2, 3, 4] 60) 60 = some 1 ∧ Memory.read (bytes [1, 2, 3, 4] 60) 61 = some 2 ∧
      Memory.read (bytes [1, 2, 3, 4] 60) 62 = some 3 ∧ Memory.read (bytes [1, 2, 3, 4] 60) 63 = some 4 ∧
      ({ facing 0x20003C .read with bram := bytes [1, 2, 3, 4] 60 } : State).accesses (0x200000 + 60) .read []) ∧
    (facing 0x20003C (.write 1)).accesses (0x200000 + 60) (.write 1) [] :=
  ⟨by decide, by decide, by decide, ⟨by decide, by decide, by decide, by decide, rfl, rfl⟩, facing_accesses _ _⟩

theorem witness_HostReadsOfUnwrittenCellsComplete :
    ((0x1001FC : Nat) % 4 = 0 ∧ 0x1001FC < 0x100000 + 8 * block.cfg.sampleWords ∧ (facing 0x1001FC .read).accesses 0x1001FC .read []) ∧
    ((0x20003C : Nat) % 4 = 0 ∧ 0x20003C < 0x200000 + block.cfg.byteWords ∧ (facing 0x20003C .read).accesses 0x20003C .read []) :=
  ⟨⟨by decide, by decide, facing_accesses _ _⟩, by decide, by decide, facing_accesses _ _⟩

theorem witness_ResetPulseRestoresRegistersAndKeepsMemories :
    ({ block with host := resetPulse ++ [] } : State).host = resetPulse ++ [] := rfl

theorem witness_NopSetsDoneOnly : (issuing 0 .nan).issues 0 [] ∧ (issuing 0 .nan).err ≠ .none := ⟨issuing_issues _ _, by decide⟩

theorem witness_CheckedErrorsChangeOnlyTheErrorRecord :
    block.err = .none ∧ exec .rslen block = .next { block with err := .rate, errCmd := 2 } := ⟨rfl, next_of (by decide)⟩

/-- A command that completes and one that does not. -/
theorem witness_CompletionSetsDoneAndErrorsLeaveIt :
    block.err = .none ∧ exec .nop block = .next { block with done := true } ∧
    exec .resample block = .next { block with err := .rate, errCmd := 1 } := ⟨rfl, rfl, next_of (by decide)⟩

/-- V-RL-9. -/
theorem witness_WarnDegenIsSetOnlyInDegenMode :
    after (exec .rslen { State.reset with srcRate := 3, dstRate := 2, rsLen := 2 }) (fun t => t.warnDegen) = true ∧
    State.reset.warnDegen = false := by decide

theorem witness_ErrorReturnLetsTheNextCommandRun :
    (0x80000000 : Word).getLsbD 31 = true ∧ decode 0x20 = .ok .dinit ∧
    ({ block with host := [accessAt block.cfg 0x08 .w32 (.write 0x80000000), cmdWrite block.cfg 0x20] } : State).accesses 0x08
      (.write 0x80000000) (cmdWrite block.cfg 0x20 :: []) := ⟨by decide, by decide, rfl, rfl⟩

theorem witness_EachStepPerformsOneMove :
    ((facing 0x00 .read).host = accessAt block.cfg 0x00 .w32 .read :: [] ∧
      step (facing 0x00 .read) = .next { block with replies := [.data 0x52570001] }) ∧
    step { block with host := [.resetLine false] } = .next block := ⟨⟨rfl, next_of (by decide)⟩, next_of (by decide)⟩

/-- NOP meets the premises of CommandsLeaveOperandRegistersAlone and of OnlyMemoryCommandsWriteMemory, every inequality among them. -/
theorem witness_CommandsLeaveOperandRegistersAlone : exec .nop block = .next { block with done := true } ∧
    Instr.nop ≠ .denc ∧ (∀ x, Instr.nop ≠ .dstep x) ∧ Instr.nop ≠ .dflush := ⟨rfl, nofun, nofun, nofun⟩

theorem witness_OnlyMemoryCommandsWriteMemory : exec .nop block = .next { block with done := true } ∧
    Instr.nop ≠ .resample ∧ Instr.nop ≠ .quant ∧ Instr.nop ≠ .denc ∧ (∀ x, Instr.nop ≠ .dstep x) ∧ Instr.nop ≠ .dflush :=
  ⟨rfl, nofun, nofun, nofun, nofun, nofun⟩

theorem witness_AccumulatorChangesOnlyByDpcmCommands :
    after (step (issuing 0x0000FF22 .none)) (fun t => t.acc != block.acc) = true := by decide +kernel

theorem witness_CommandsKeepTheirSourceRegions :
    after (exec .resample { block with srcRate := 1, dstRate := 1, rsLen := 4, rsDst := 4 }) (fun t => t.rsOutLen == 4) = true ∧
    block.cfg.wellFormed = true ∧ after (exec .denc { block with dLen := 2, dWptr := 4 }) (fun t => t.done) = true := by decide +kernel

/-- R140: a run can stop. -/
theorem witness_StepsStopOnlyWithUninit :
    step { issuing 0x10 .none with qSrc := 4, qLen := 1 } = .fault (.uninitSample 4) := rfl

theorem witness_UninitExactlyOnUnwrittenReads : block.cfg.wellFormed = true := by decide

/-- `block` with an error recorded, which meets the invariant. -/
theorem witness_EveryStepKeepsTheInvariant :
    ({ issuing 0x10 .nan with errIndex := 2, errCmd := 0x10, cnt := 2, pend := 3 } : State).Inv ∧
    after (step { issuing 0x10 .nan with errIndex := 2, errCmd := 0x10, cnt := 2, pend := 3 }) (fun t => t.err == .nan) = true :=
  ⟨⟨by decide, by decide, by decide, by decide, by decide, by decide, .inr ⟨rfl, rfl⟩, .quant, rfl, rfl⟩, by decide +kernel⟩

/-- R85's three outcomes: a zero rate, a length of 2^32, and the largest length that fits. -/
theorem witness_RslenWritesTheOutputLength :
    ((0 : Word).toNat = 0) ∧
    ((1 : Word).toNat ≠ 0 ∧ (0x80000000 : Word).toNat ≠ 0 ∧ 2 ^ 32 ≤ 2 * (0x80000000 : Word).toNat / (1 : Word).toNat) ∧
    (0xFFFFFFFF : Word).toNat < 2 ^ 32 := by decide

/-- `block` set up to resample 4 samples to index `out`. -/
def resampling (src dst out : Word) : State := { block with srcRate := src, dstRate := dst, rsLen := 4, rsDst := out }

theorem witness_ResampleChecksInOrder :
    (resampling 0 1 4).srcRate = 0 ∧
    ((resampling 1 1 61).srcRate ≠ 0 ∧ (resampling 1 1 61).dstRate ≠ 0 ∧
      (resampling 1 1 61).cfg.sampleWords < 61 + (rsmode 4 1 1).2) ∧
    ((resampling 1 1 3).rsDst.toNat + (rsmode 4 1 1).2 ≤ 64 ∧ 0 < (rsmode 4 1 1).2 ∧ (resampling 1 1 3).rsDst.toNat < 0 + 4) := by decide

theorem written_block {i : Nat} (h : i < 4) : ∃ x, Memory.readSample block.sram (0 + i) = some x ∧ isNaN x = false := by
  interval_cases i
  · exact ⟨0, by decide⟩
  · exact ⟨0x3FE0000000000000, by decide⟩
  · exact ⟨0x3FF0000000000000, by decide⟩
  · exact ⟨0x3FE0000000000000, by decide⟩

/-- Equal rates, the output region ending at the last sample. -/
theorem witness_ResampleCopiesWhenRatesAreEqualOrInputIsShort :
    (resampling 7 7 60).srcRate ≠ 0 ∧ (resampling 7 7 60).srcRate = (resampling 7 7 60).dstRate ∧
    (resampling 7 7 60).rsDst.toNat + 4 ≤ (resampling 7 7 60).cfg.sampleWords ∧
    (∀ i < 4, ∃ x, Memory.readSample (resampling 7 7 60).sram (0 + i) = some x) :=
  ⟨by decide, by decide, by decide, fun _ h => (written_block h).imp fun _ h => h.1⟩

theorem witness_ResampleDegenWritesTheFirstSampleAndWarns :
    (resampling 4 1 63).srcRate ≠ (resampling 4 1 63).dstRate ∧ 4 * (1 : Word).toNat / (4 : Word).toNat ≤ 1 ∧
    (resampling 4 1 63).rsDst.toNat + 1 ≤ (resampling 4 1 63).cfg.sampleWords ∧
    Memory.readSample (resampling 4 1 63).sram (resampling 4 1 63).rsSrc.toNat = some 0 := by decide

/-- V-RS-3's state: every output's samples are written. -/
theorem witness_ResampleInterpolates :
    1 < 4 * (3 : Word).toNat / (2 : Word).toNat ∧ (resampling 2 3 58).rsDst.toNat + 4 * 3 / 2 ≤ (resampling 2 3 58).cfg.sampleWords ∧
    (∀ i < 4 * 3 / 2, (∃ x, Memory.readSample (resampling 2 3 58).sram (0 + i * 2 / 3) = some x) ∧
      (i * 2 % 3 ≠ 0 → ∃ x, Memory.readSample (resampling 2 3 58).sram (0 + min (i * 2 / 3 + 1) (4 - 1)) = some x)) :=
  ⟨by decide, by decide, fun i h =>
    ⟨(written_block (i := i * 2 / 3) (by omega)).imp fun _ h => h.1, fun _ =>
      (written_block (i := min (i * 2 / 3 + 1) 3) (by omega)).imp fun _ h => h.1⟩⟩

theorem witness_ResampleKeepsTheSourceLaws :
    (resampling 2 3 58).cfg.wellFormed = true ∧ (resampling 2 3 58).err = .none ∧
    after (exec .resample (resampling 2 3 58)) (fun t => t.err == .none) = true ∧
    after (exec .resample (resampling 7 7 60)) (fun t => t.err == .none) = true := by decide +kernel

theorem witness_SourcePositionsStayInsideTheInput : (rsmode 4 2 3).1 = .interp ∧ 5 < (rsmode 4 2 3).2 := by decide

theorem witness_InterpolationFractionIsBetweenZeroAndOne : 0 < 0xFFFFFFFE ∧ 0xFFFFFFFE < 0xFFFFFFFF ∧ 0xFFFFFFFF < 2 ^ 32 := by decide

theorem witness_QuantWritesOneCodePerSample :
    0 + 4 ≤ block.cfg.sampleWords ∧ (60 : Word).toNat + 4 ≤ block.cfg.byteWords ∧
    (∀ i < 4, ∃ x, Memory.readSample block.sram (0 + i) = some x ∧ isNaN x = false) :=
  ⟨by decide, by decide, fun _ h => written_block h⟩

/-- RANGE by one, and a NaN at element 1 after a written element 0. -/
theorem witness_QuantStopsAtTheFirstNaN :
    block.cfg.byteWords < (61 : Word).toNat + 4 ∧
    Memory.readSample (samples [0, 0x7FF8000000000000] 0) 0 = some 0 ∧ isNaN 0 = false ∧
    Memory.readSample (samples [0, 0x7FF8000000000000] 0) 1 = some 0x7FF8000000000000 ∧ isNaN 0x7FF8000000000000 = true := by decide

theorem witness_QoneQuantizesItsOperand : isNaN (0x3FEFDFDF#32 ++ 0xDFDFDFDF#32) = false ∧ isNaN (0x7FF00000#32 ++ 0x00000001#32) = true := by
  decide

theorem witness_EveryNonNaNHasACode : isNaN 0x7FF0000000000001 = true ∧ isNaN 0x7FF0000000000000 = false := by decide

/-- Negative zero and the least subnormal. -/
theorem witness_QcodeIsMonotone : isNaN 0x8000000000000000 = false ∧ isNaN 1 = false ∧ flt (unpack 1) (unpack 0x8000000000000000) = false ∧
    qcode 0x8000000000000000 = some 128 ∧ qcode 1 = some 128 := by decide +kernel

theorem witness_DstepEmitsOneBit :
    (({ block with cnt := 7, dWptr := 64 } : State).cnt = 7 ∧ block.cfg.byteWords ≤ (64 : Word).toNat) ∧ block.cnt ≠ 7 ∧
    (63 : Word).toNat < block.cfg.byteWords := by decide

theorem witness_DflushWritesTheLastByte :
    block.cnt = 0 ∧ (({ block with cnt := 1, dWptr := 64 } : State).cnt ≠ 0 ∧ block.cfg.byteWords ≤ (64 : Word).toNat) ∧
    (63 : Word).toNat < block.cfg.byteWords := by decide

/-- RANGE by one; and regions that share one byte. -/
theorem witness_DencChecksInOrder :
    (block.cfg.byteWords < (64 : Word).toNat + 1) ∧
    (0 + 8 ≤ block.cfg.byteWords ∧ (7 : Word).toNat + (0 + 8) / 8 ≤ block.cfg.byteWords ∧ 0 < (0 + 8) / 8 ∧ 0 < (7 : Word).toNat + 1 ∧
      (7 : Word).toNat < 0 + 8) := by decide

/-- `block` set up to encode its two bytes, with a byte to complete at index 63. -/
def encoding : State := { block with dLen := 2, dWptr := 63, cnt := 7, pend := 1 }

theorem encoding_reads : ∀ i < encoding.dLen.toNat, Memory.read encoding.bram (encoding.dSrc.toNat + i) = ([128, 255] : List Byte)[i]? := by
  decide

theorem witness_DencWritesTheBitStream :
    encoding.cfg.wellFormed = true ∧ encoding.pend.toNat < 2 ^ encoding.cnt.toNat ∧
    ([128, 255] : List Byte).length = encoding.dLen.toNat ∧
    (∀ i < encoding.dLen.toNat, Memory.read encoding.bram (encoding.dSrc.toNat + i) = ([128, 255] : List Byte)[i]?) ∧
    encoding.dSrc.toNat + 2 ≤ encoding.cfg.byteWords ∧ encoding.dWptr.toNat + (7 + 2) / 8 ≤ encoding.cfg.byteWords ∧
    encoding.dSrc.toNat + 2 ≤ encoding.dWptr.toNat :=
  ⟨by decide, by decide, by decide, encoding_reads, by decide, by decide, by decide⟩

theorem witness_ChunkedEncodingEqualsOnePass :
    encoding.cfg.wellFormed = true ∧ encoding.err = .none ∧ 1 + 1 < 2 ^ 32 ∧
    after (exec .denc { encoding with dLen := BitVec.ofNat 32 (1 + 1) }) (fun t => t.err == .none) = true ∧
    Memory.read encoding.bram encoding.dSrc.toNat = some 128 ∧
    after (exec .denc { encoding with dLen := 1 }) (fun t => t.err == .none) = true := by decide +kernel

theorem witness_CompleteStreamWritesCeilBytes :
    encoding.cfg.wellFormed = true ∧ ([128, 255] : List Byte).length = encoding.dLen.toNat ∧
    (∀ i < encoding.dLen.toNat, Memory.read encoding.bram (encoding.dSrc.toNat + i) = ([128, 255] : List Byte)[i]?) ∧
    encoding.dWptr.toNat + (2 + 7) / 8 ≤ encoding.cfg.byteWords ∧ 2 / 8 = 0 :=
  ⟨by decide, by decide, encoding_reads, by decide, by decide⟩

theorem witness_AccumulatorMovesByOne :
    (({ block with acc := 0 } : State).acc = 0 ∧ (0 : Byte) = 0) ∧ ¬(({ block with acc := 0 } : State).acc = 0 ∧ (1 : Byte) = 0) := by decide

end Sys2Proof.Tests
end

section
/-! Every step keeps the invariant: each of its parts over the block's operations, then over the commands' ends and the host's moves. -/

namespace Sys2Proof

/-! ### The parameters -/

theorem Config.byteWords_bounds {c : Config} (h : c.wellFormed = true) : c.byteWords ≤ 1048576 ∧ c.byteWords % 4 = 0 := by
  simp only [Config.wellFormed, Config.byteWordsOk, Bool.and_eq_true, decide_eq_true_eq] at h
  obtain ⟨⟨_, _, upper, aligned⟩, _⟩ := h
  exact ⟨upper, aligned⟩

end Sys2Proof

namespace Sys2Proof.Machine

/-! ### The error record -/

theorem State.errorRecordOk_congr {s t : State} (err : t.err = s.err) (index : t.errIndex = s.errIndex) (cmd : t.errCmd = s.errCmd)
    (h : s.errorRecordOk) : t.errorRecordOk := by
  simpa only [State.errorRecordOk, err, index, cmd] using h

theorem State.errorRecordOk_clearError (s : State) : s.clearError.errorRecordOk := ⟨rfl, rfl⟩

theorem State.errorRecordOk_raise_illegal (s : State) {w : Word} {e : Illegal} (h : decode w = .error e) :
    (s.raise .illegal 0 w).errorRecordOk := ⟨rfl, e, h⟩

/-- A command may record a code that R118 lets it raise, the index 0 unless it is QUANT's NAN. -/
theorem State.errorRecordOk_raise (s : State) {code : ErrCode} {n : Nat} {i : Instr} (legal : code.raisedBy i = true)
    (index : n = 0 ∨ (code = .nan ∧ i = .quant)) : (s.raise code n (encode i)).errorRecordOk := by
  have hindex : BitVec.ofNat 32 n = 0 ∨ (code = .nan ∧ encode i = encode .quant) :=
    index.imp (fun h => by rw [h]; rfl) (fun ⟨hc, hi⟩ => ⟨hc, by rw [hi]⟩)
  cases code with
  | none => cases legal
  | illegal => cases legal
  | rate => exact ⟨hindex, i, rfl, legal⟩
  | range => exact ⟨hindex, i, rfl, legal⟩
  | overlap => exact ⟨hindex, i, rfl, legal⟩
  | nan => exact ⟨hindex, i, rfl, legal⟩

/-! ### Operations that leave the parameters, the memories and the packer alone -/

/-- A state that differs in other fields keeps the invariant if its own error record is one of R118's. -/
theorem State.Inv.transfer {s t : State} (h : s.Inv) (cfg : t.cfg = s.cfg) (sram : t.sram = s.sram) (bram : t.bram = s.bram)
    (pend : t.pend = s.pend) (cnt : t.cnt = s.cnt) (record : t.errorRecordOk) : t.Inv where
  cfg := cfg ▸ h.cfg
  sramWf := sram ▸ h.sramWf
  bramWf := bram ▸ h.bramWf
  sramBound := by rw [sram, cfg]; exact h.sramBound
  bramBound := by rw [bram, cfg]; exact h.bramBound
  packer := by rw [pend, cnt]; exact h.packer
  record := record

theorem State.Inv.raise {s : State} (h : s.Inv) {code : ErrCode} {n : Nat} {w : Word} (record : (s.raise code n w).errorRecordOk) :
    (s.raise code n w).Inv := h.transfer rfl rfl rfl rfl rfl record

theorem State.Inv.clearError {s : State} (h : s.Inv) : s.clearError.Inv :=
  h.transfer rfl rfl rfl rfl rfl s.errorRecordOk_clearError

theorem State.Inv.complete {s : State} (h : s.Inv) : s.complete.Inv := h.transfer rfl rfl rfl rfl rfl h.record

theorem State.Inv.answered {s : State} (h : s.Inv) (rest : List HostMove) (r : Reply) : (s.answered rest r).Inv :=
  h.transfer rfl rfl rfl rfl rfl h.record

theorem State.Inv.drawn {s : State} (h : s.Inv) (n : Nat) : (s.drawn n).Inv := h.transfer rfl rfl rfl rfl rfl h.record

theorem State.Inv.lengthResult {s : State} (h : s.Inv) (mode : RsMode) (len : Nat) : (s.lengthResult mode len).Inv :=
  h.transfer (by simp) (by simp) (by simp) (by simp) (by simp) (State.errorRecordOk_congr (by simp) (by simp) (by simp) h.record)

theorem State.Inv.writeStatus {s : State} (h : s.Inv) (v : Word) : (s.writeStatus v).Inv := by
  have hflags : ({ s with done := s.done && !v.getLsbD 0, warnDegen := s.warnDegen && !v.getLsbD 1 } : State).Inv :=
    h.transfer rfl rfl rfl rfl rfl h.record
  unfold State.writeStatus
  split
  · exact hflags.clearError
  · exact hflags

/-! ### Operations on the packer -/

theorem State.Inv.startStream {s : State} (h : s.Inv) : s.startStream.Inv := { h with packer := Nat.one_pos }

theorem State.Inv.setResetLine {s : State} (h : s.Inv) (level : Bool) : (setResetLine level s).Inv := by
  cases level with
  | true => exact { h with packer := Nat.one_pos, record := ⟨rfl, rfl⟩ }
  | false => exact h.transfer rfl rfl rfl rfl rfl h.record

/-- A byte written below BYTE_WORDS leaves the packer empty (R103). -/
theorem State.Inv.writeByte {s : State} (h : s.Inv) (room : s.dWptr.toNat < s.cfg.byteWords) (v : Nat) : (s.writeByte v).Inv :=
  { h with
    bramWf := Memory.write_wf h.bramWf _ _
    bramBound := fun x hx => (Memory.mem_write hx).elim (h.bramBound x) (fun e => e ▸ room)
    packer := Nat.one_pos }

theorem State.Inv.flush {s : State} (h : s.Inv) (room : 0 < s.cnt.toNat → s.dWptr.toNat < s.cfg.byteWords) : s.flush.Inv := by
  unfold State.flush
  split
  case isTrue pending => exact h.writeByte (room pending) _
  case isFalse => exact h

/-! ### Writes of the host to the memories -/

theorem State.Inv.writeSramHalf {s : State} (h : s.Inv) {j : Nat} (hj : j < s.cfg.sampleWords) (high : Bool) (v : Word) :
    (s.writeSramHalf j high v).Inv := by
  have hend : halfAddr j high + 4 ≤ 8 * s.cfg.sampleWords := by unfold halfAddr; split <;> omega
  exact { h with
    sramWf := Memory.writeLE_wf h.sramWf _ _ _
    sramBound := fun x hx => (Memory.mem_writeLE hx).elim (h.sramBound x) (fun inside => inside.2.trans_le hend) }

/-- An aligned word that starts below BYTE_WORDS ends at or below it, because BYTE_WORDS is a multiple of 4 (R6). -/
theorem State.Inv.writeBramWord {s : State} (h : s.Inv) {k : Nat} (hk : k < s.cfg.byteWords) (aligned : k % 4 = 0) (v : Word) :
    (s.writeBramWord k v).Inv := by
  have hend : k + 4 ≤ s.cfg.byteWords := by
    have := (Config.byteWords_bounds h.cfg).2
    omega
  exact { h with
    bramWf := Memory.writeLE_wf h.bramWf _ _ _
    bramBound := fun x hx => (Memory.mem_writeLE hx).elim (h.bramBound x) (fun inside => inside.2.trans_le hend) }

/-! ### The loops of the commands -/

theorem ResampledSoFar.inv {s u : State} {mode : RsMode} {n src dst i : Nat} (done : ResampledSoFar s mode n src dst i u) (h : s.Inv)
    (room : s.rsDst.toNat + i ≤ s.cfg.sampleWords) : u.Inv := by
  rw [done.frame]
  exact { h with
    sramWf := done.wf h.sramWf
    sramBound := fun x hx => (done.mem x hx).elim (h.sramBound x)
      (fun inside => inside.2.trans_le (Nat.mul_le_mul_left 8 room)) }

theorem QuantizedSoFar.inv {s u : State} {i : Nat} (done : QuantizedSoFar s i u) (h : s.Inv)
    (room : s.qDst.toNat + i ≤ s.cfg.byteWords) : u.Inv := by
  rw [done.frame]
  exact { h with
    bramWf := done.wf h.bramWf
    bramBound := fun x hx => (done.mem x hx).elim (h.bramBound x) (fun inside => inside.2.trans_le room) }

/-- Where no byte is completed nothing is written, so D_WPTR need not be within the memory. -/
theorem EncodedSoFar.inv {s u : State} {ts : List Byte} (done : EncodedSoFar s ts u) (h : s.Inv)
    (room : 0 < (s.cnt.toNat + ts.length) / 8 → s.dWptr.toNat + (s.cnt.toNat + ts.length) / 8 ≤ s.cfg.byteWords) : u.Inv := by
  rw [done.frame]
  exact { h with
    bramWf := done.wf h.bramWf
    bramBound := fun x hx => (done.mem x hx).elim (h.bramBound x)
      (fun ⟨lower, upper⟩ => upper.trans_le (room (by omega)))
    packer := done.packer h.packer }

/-- A DPCM step is an encoding of one target. -/
theorem State.Inv.dstep {s : State} (h : s.Inv) (x : Byte) (room : s.cnt.toNat = 7 → s.dWptr.toNat < s.cfg.byteWords) :
    (s.dstep x).Inv := by
  have hcnt := cnt_lt s
  have hbytes := (Config.byteWords_bounds h.cfg).1
  have hptr := s.dWptr.isLt
  have one : EncodedSoFar s [x] (s.dstep x) := (EncodedSoFar.start s).turn x (by simp only [List.length_nil]; omega)
  exact one.inv h (by simp only [List.length_singleton]; omega)

/-! ### Commands, register writes and steps -/

/-- Every end of a command keeps the invariant. -/
theorem Ends.inv {s t : State} {i : Instr} (e : Ends s i t) (h : s.Inv) : t.Inv := by
  cases e with
  | check code i legal => exact h.raise (s.errorRecordOk_raise legal (.inl rfl))
  | nop => exact h.complete
  | resample t src dst fitsSrc fitsDst apart done => exact (((done.inv h fitsDst).drawn _).lengthResult _ _).complete
  | rslen src dst small => exact (h.lengthResult _ _).complete
  | quant t fitsSrc fitsDst done => exact (done.inv h fitsDst).complete
  | quantNaN t j small fitsSrc fitsDst done =>
    exact (done.inv h (by omega)).raise (t.errorRecordOk_raise rfl (.inr ⟨rfl, rfl⟩))
  | qone c code => exact h.transfer rfl rfl rfl rfl rfl h.record
  | dinit => exact h.startStream.complete
  | denc t fitsSrc fitsDst apart frame done =>
    have hbytes := (Config.byteWords_bounds h.cfg).1
    obtain ⟨ts, hlen, _, encoded⟩ := done (by omega)
    exact (encoded.inv h (fun _ => by rw [hlen]; exact fitsDst)).complete
  | dstep target room => exact (h.dstep target room).complete
  | dflush room => exact (h.flush room).complete

theorem issueCommand_inv {w : Word} {s t : State} (h : s.Inv) (hstep : issueCommand w s = .next t) : t.Inv := by
  rcases issueCommand_cases w s with ⟨_, e⟩ | ⟨_, i, _, e⟩ | ⟨_, e', illegal, e⟩ <;> rw [e] at hstep
  · cases hstep; exact h
  · exact (exec_ends hstep).inv h
  · cases hstep; exact h.raise (s.errorRecordOk_raise_illegal illegal)

theorem writeCsr_inv {c : Csr} {v : Word} {s t : State} (notCmd : c ≠ .cmd) (h : s.Inv) (hstep : writeCsr c v s = .next t) : t.Inv := by
  obtain ⟨u, e, cfg, _, pend, cnt, _, _, sram, bram, _, _, _, _, _, _, other, status⟩ := writeCsr_next notCmd v s
  cases e.symm.trans hstep
  by_cases hc : c = .status
  · rw [status hc]; exact h.writeStatus v
  · obtain ⟨_, _, err, index, cmd⟩ := other hc
    exact h.transfer cfg sram bram pend cnt (State.errorRecordOk_congr err index cmd h.record)

/-- Settles O32: each thing a step can come to keeps the invariant. -/
theorem everyStepKeepsTheInvariant : Obligations.EveryStepKeepsTheInvariant := by
  intro s t h hstep
  rcases step_cases s with ⟨_, e⟩ | ⟨level, rest, _, e⟩ | ⟨rest, r, e⟩ | ⟨rest, j, high, v, hj, e⟩ | ⟨rest, k, v, hk, aligned, e⟩ |
    ⟨rest, c, v, notCmd, _, e⟩ | ⟨rest, w, _, e⟩ <;> rw [e] at hstep
  · cases hstep; exact h
  · cases hstep
    have taken : (s.withHost rest).Inv := h.transfer rfl rfl rfl rfl rfl h.record
    exact taken.setResetLine level
  · cases hstep; exact h.answered rest r
  · cases hstep; exact (h.answered rest .done).writeSramHalf hj high v
  · cases hstep; exact (h.answered rest .done).writeBramWord hk aligned v
  · exact writeCsr_inv notCmd (h.answered rest .done) hstep
  · exact issueCommand_inv (h.answered rest .done) hstep

end Sys2Proof.Machine
end

section
/-! The register window and the flags: what the registers read as, what a host write to one does, how a command leaves the flags and the
operand registers, and what every step keeps of them. -/

namespace Sys2Proof.Machine

/-! ### Fields of a word -/

/-- A field of a word, by division. -/
theorem extractLsb'_eq_of_toNat {w : Word} {start len : Nat} {x : BitVec len} (h : w.toNat / 2 ^ start % 2 ^ len = x.toNat) :
    w.extractLsb' start len = x :=
  BitVec.eq_of_toNat_eq (by rw [BitVec.extractLsb'_toNat, Nat.shiftRight_eq_div_pow, h])

/-- A bit of a word, by division. -/
theorem toNat_getLsbD (w : Word) (n : Nat) : (w.getLsbD n).toNat = w.toNat / 2 ^ n % 2 := Nat.toNat_testBit _ _

theorem getLsbD_eq_of_toNat {w : Word} {n : Nat} {b : Bool} (h : w.toNat / 2 ^ n % 2 = b.toNat) : w.getLsbD n = b :=
  Bool.eq_iff_iff.mpr (by rw [← Bool.toNat_eq_one, ← Bool.toNat_eq_one, toNat_getLsbD, h])

theorem ErrCode.code_le (c : ErrCode) : c.code ≤ 5 := by cases c <;> decide

theorem State.ctrlWord_toNat (s : State) : s.ctrlWord.toNat = s.ieDone.toNat + 2 * s.ieErr.toNat := by
  have hd := s.ieDone.toNat_le
  have he := s.ieErr.toNat_le
  rw [State.ctrlWord, BitVec.toNat_ofNat]
  omega

theorem State.statusWord_toNat (s : State) : s.statusWord.toNat = s.done.toNat + 2 * s.warnDegen.toNat + 256 * s.err.code := by
  have hd := s.done.toNat_le
  have hw := s.warnDegen.toNat_le
  have hc := s.err.code_le
  rw [State.statusWord, BitVec.toNat_ofNat]
  omega

theorem State.packWord_toNat (s : State) : s.packWord.toNat = s.pend.toNat + 256 * s.cnt.toNat + 65536 * s.lastBit.toNat := by
  have hp := s.pend.isLt
  have hc := s.cnt.isLt
  have hl := s.lastBit.toNat_le
  rw [State.packWord, BitVec.toNat_ofNat]
  omega

/-- A byte read as a register stands in bits 7:0. -/
theorem byteRegister_fields (b : Byte) : (b.zeroExtend 32).extractLsb' 0 8 = b ∧ (b.zeroExtend 32).extractLsb' 8 24 = 0 := by
  have hb := b.isLt
  have e : (b.zeroExtend 32).toNat = b.toNat := by rw [BitVec.toNat_setWidth]; omega
  have zero : (0 : BitVec 24).toNat = 0 := rfl
  exact ⟨extractLsb'_eq_of_toNat (by omega), extractLsb'_eq_of_toNat (by rw [e, zero]; omega)⟩

/-- Settles O13: each field is read off the register's number. -/
theorem registerFieldsReadAtTheirBits : Obligations.RegisterFieldsReadAtTheirBits := by
  intro s
  have hctrl := s.ctrlWord_toNat
  have hstatus := s.statusWord_toNat
  have hpack := s.packWord_toNat
  have hieDone := s.ieDone.toNat_le
  have hieErr := s.ieErr.toNat_le
  have hdone := s.done.toNat_le
  have hwarn := s.warnDegen.toNat_le
  have hcode := s.err.code_le
  have hpend := s.pend.isLt
  have hcnt := s.cnt.isLt
  have hlast := s.lastBit.toNat_le
  have hzero : ∀ n : Nat, (0 : BitVec n).toNat = 0 := fun n => BitVec.toNat_ofNat 0 n
  obtain ⟨qone, qoneRest⟩ := byteRegister_fields s.qoneRes
  obtain ⟨acc, accRest⟩ := byteRegister_fields s.acc
  refine ⟨rfl, rfl, getLsbD_eq_of_toNat ?_, getLsbD_eq_of_toNat ?_, extractLsb'_eq_of_toNat ?_,
    getLsbD_eq_of_toNat ?_, getLsbD_eq_of_toNat ?_, ?_, extractLsb'_eq_of_toNat ?_, extractLsb'_eq_of_toNat ?_,
    qone, qoneRest, acc, accRest,
    extractLsb'_eq_of_toNat ?_, getLsbD_eq_of_toNat ?_, extractLsb'_eq_of_toNat ?_, extractLsb'_eq_of_toNat ?_,
    getLsbD_eq_of_toNat ?_, extractLsb'_eq_of_toNat ?_⟩
  all_goals simp only [State.readCsr, hzero, Bool.toNat_false, BitVec.extractLsb'_toNat, Nat.shiftRight_eq_div_pow]; omega

/-! ### Accesses of the register window -/

theorem Csr.offset_aligned (c : Csr) : c.offset % 4 = 0 := by cases c <;> rfl

theorem Csr.offset_lt (c : Csr) : c.offset < 0x60 := by cases c <;> decide

/-- CSR offsets from 0x100 on stand for nothing (R19). -/
theorem regionAt_unmapped (cfg : Config) {offset : Nat} (h1 : 0x100 ≤ offset) (h2 : offset < 0x100000) :
    regionAt cfg offset = .unmapped := by
  rw [regionAt, if_pos h2, if_neg (by omega)]

/-- An access of the window that reaches nothing gets a bus error, whatever its alignment. -/
theorem step_unmapped {s : State} {offset : Nat} {op : BusOp} {rest : List HostMove} (h : s.accesses offset op rest)
    (hlt : offset < 0x400000) (hreg : regionAt s.cfg offset = .unmapped) : step s = .next (s.answered rest .busError) := by
  obtain ⟨_, hhost⟩ := h
  have hclaims : (s.withHost rest).claims (s.cfg.blockBase + offset) = true := by simp [State.claims, windowSize]; omega
  have htarget : (s.withHost rest).target { addr := s.cfg.blockBase + offset, width := .w32, op := op } = .unmapped := by
    simp [State.target, hreg]
  rw [step_cons hhost, accessAt, perform, busAccess, if_pos hclaims, htarget]
  cases op <;> rfl

theorem step_readCsr {s : State} {c : Csr} {rest : List HostMove} (h : s.accesses c.offset .read rest) :
    step s = .next (s.answered rest (.data (s.readCsr c))) := by
  have hlt := c.offset_lt
  rw [step_read h c.offset_aligned (by omega), regionAt_csr]
  cases c <;> rfl

theorem step_writeCsr {s : State} {c : Csr} {v : Word} {rest : List HostMove} (h : s.accesses c.offset (.write v) rest) :
    step s = writeCsr c v (s.answered rest .done) := by
  have hlt := c.offset_lt
  rw [step_write h c.offset_aligned (by omega), regionAt_csr]
  rfl

/-- Settles O9: each kind of offset has its region. -/
theorem registerWindowReads : Obligations.RegisterWindowReads := by
  refine ⟨fun s c rest h => step_readCsr h, fun s offset v rest h1 h2 h4 => ⟨fun h => ?_, fun h => ?_⟩,
    fun s offset op rest h1 h2 h => step_unmapped h (by omega) (regionAt_unmapped s.cfg h1 h2)⟩
  · rw [step_read h h4 (by omega), regionAt_reserved s.cfg h1 h2]
    rfl
  · rw [step_write h h4 (by omega), regionAt_reserved s.cfg h1 h2]
    rfl

/-! ### Writes of operand registers and of CTRL -/

theorem State.writeCtrl_ctrlWord (s : State) (v : Word) : (s.writeCtrl v).ctrlWord = v &&& 3 := by
  apply BitVec.eq_of_toNat_eq
  have hand : (v &&& 3).toNat = v.toNat % 4 := Nat.and_two_pow_sub_one_eq_mod v.toNat 2
  rw [hand, State.ctrlWord_toNat, State.writeCtrl, toNat_getLsbD, toNat_getLsbD]
  omega

/-- A write to a register other than CMD and STATUS leaves what every other register reads as. -/
theorem readCsr_writeCsr_ne {c d : Csr} {v : Word} {s t : State} (notCmd : c ≠ .cmd) (notStatus : c ≠ .status) (other : d ≠ c)
    (h : writeCsr c v s = .next t) : t.readCsr d = s.readCsr d := by
  cases c with
  | cmd => exact absurd rfl notCmd
  | status => exact absurd rfl notStatus
  | _ =>
    cases h
    cases d <;> simp_all [State.readCsr, State.ctrlWord, State.statusWord, State.packWord, State.writeCtrl]

/-- Settles O10: what an RW register reads as after a write, and the frame of `writeCsr`. -/
theorem registerWritesFollowTheAccessTypes : Obligations.RegisterWritesFollowTheAccessTypes := by
  refine ⟨fun s c v rest hc h => ?_, fun s c v rest hc h => ?_⟩
  · have notCmd : c ≠ .cmd := by rintro rfl; simp at hc
    have notStatus : c ≠ .status := by rintro rfl; simp at hc
    obtain ⟨t, e, cfg, _, _, _, _, _, sram, bram, rst, host, replies, draws, _⟩ := writeCsr_next notCmd v (s.answered rest .done)
    refine ⟨t, (step_writeCsr h).trans e, ?_, fun d hd => ?_, sram, bram, cfg, rst, draws, host, replies⟩
    · by_cases ctrl : c = .ctrl
      · subst ctrl
        cases e
        exact State.writeCtrl_ctrlWord _ v
      · simp only [List.mem_cons, List.not_mem_nil, ctrl, or_false] at hc
        rw [if_neg ctrl]
        rcases hc with rfl | rfl | rfl | rfl | rfl | rfl | rfl | rfl | rfl | rfl | rfl | rfl | rfl <;> (cases e; rfl)
    · rw [readCsr_writeCsr_ne notCmd notStatus hd e]
      cases d <;> rfl
  · rw [step_writeCsr h]
    simp only [List.mem_cons, List.not_mem_nil, or_false] at hc
    rcases hc with rfl | rfl | rfl | rfl | rfl | rfl | rfl | rfl <;> rfl

/-! ### Writes of STATUS and CMD -/

/-- The whole effect of a STATUS write (R28). -/
theorem State.writeStatus_eq (s : State) (v : Word) : s.writeStatus v = { s with
    done := s.done && !v.getLsbD 0
    warnDegen := s.warnDegen && !v.getLsbD 1
    err := if v.getLsbD 31 then .none else s.err
    errIndex := if v.getLsbD 31 then 0 else s.errIndex
    errCmd := if v.getLsbD 31 then 0 else s.errCmd } := by
  unfold State.writeStatus
  split <;> rfl

/-- A write to STATUS, by its offset. -/
theorem step_writeStatus {s : State} {v : Word} {rest : List HostMove} (h : s.accesses 0x08 (.write v) rest) :
    step s = .next ((s.answered rest .done).writeStatus v) := step_writeCsr (c := .status) h

/-- Settles O11: bit 31 is above every field of STATUS, and the write is `writeStatus`. -/
theorem statusWriteClearsByBits : Obligations.StatusWriteClearsByBits := by
  refine ⟨fun s => getLsbD_eq_of_toNat ?_, fun s v rest h => ?_⟩
  · have hdone := s.done.toNat_le
    have hwarn := s.warnDegen.toNat_le
    have hcode := s.err.code_le
    rw [State.statusWord_toNat, Bool.toNat_false]
    omega
  · rw [step_writeStatus h, State.writeStatus_eq]
    rfl

theorem issueCommand_ok {w : Word} {i : Instr} {s : State} (err : s.err = .none) (legal : decode w = .ok i) :
    issueCommand w s = exec i s := by
  simp [issueCommand, err, legal]

/-- `withFetchWord` places a write to CMD of a block that is out of reset (log 2). -/
theorem State.withFetchWord_issues (s : State) (w : Word) : (s.withFetchWord 32 w.toNat).issues w s.host := by
  have hw : BitVec.ofNat 32 (w.toNat % 2 ^ 32) = w := by rw [Nat.mod_eq_of_lt w.isLt, BitVec.ofNat_toNat, BitVec.setWidth_eq]
  exact ⟨rfl, by rw [State.withFetchWord, hw]⟩

/-- Settles O4: a legal word issued while ERR is 0 runs its command. -/
theorem stepRunsTheDecodedCommand : Obligations.StepRunsTheDecodedCommand := by
  refine ⟨fun s w i rest h err legal => ?_, fun s w i err legal => ?_⟩
  · exact (step_issue h).trans (issueCommand_ok (s := s.answered rest .done) err legal)
  · exact (step_issue (s.withFetchWord_issues w)).trans
      (issueCommand_ok (s := (s.withFetchWord 32 w.toNat).answered s.host .done) err legal)

/-- Settles O24: after the STATUS write ERR is 0, so the word issued next runs. -/
theorem errorReturnLetsTheNextCommandRun : Obligations.ErrorReturnLetsTheNextCommandRun := by
  intro s v w i rest clears legal h
  obtain ⟨t, ht⟩ : ∃ t, t = (s.answered (cmdWrite s.cfg w :: rest) .done).writeStatus v := ⟨_, rfl⟩
  have record : t.err = .none ∧ t.errIndex = 0 ∧ t.errCmd = 0 := by
    rw [ht, State.writeStatus_eq]
    simp only [clears, if_true, and_self]
  obtain ⟨err, index, cmd⟩ := record
  have issued : t.issues w rest := by simp [ht, State.issues, State.answered, h.1]
  have runs : step t = exec i (t.answered rest .done) :=
    (step_issue issued).trans (issueCommand_ok (s := t.answered rest .done) err legal)
  exact ⟨t, ht ▸ step_writeStatus h, err, index, cmd, by simp [ht, State.answered], by simp [ht, State.answered],
    by simp [ht, State.answered], by simp [ht, State.answered], runs⟩

/-! ### How a command leaves the operand registers, the accumulator and the flags -/

/-- Settles O26: every end of a command keeps them, a loop by its frame. -/
theorem commandsLeaveOperandRegistersAlone : Obligations.CommandsLeaveOperandRegistersAlone := by
  intro i s t h
  cases exec_ends h with
  | check code i legal => simp
  | nop => simp
  | resample u src dst fitsSrc fitsDst apart done => rw [done.frame]; simp
  | rslen src dst small => simp
  | quant u fitsSrc fitsDst done => rw [done.frame]; simp
  | quantNaN u j small fitsSrc fitsDst done => rw [done.frame]; simp
  | qone c code => simp
  | dinit => simp
  | denc u fitsSrc fitsDst apart frame done => rw [frame]; simp
  | dstep target room => simp
  | dflush room => simp

theorem Ends.acc {s t : State} {i : Instr} (e : Ends s i t) : t.acc = s.acc ∨ i = .dinit ∨ i = .denc ∨ ∃ x, i = .dstep x := by
  cases e with
  | check code i legal => exact .inl rfl
  | nop => exact .inl rfl
  | resample u src dst fitsSrc fitsDst apart done => left; rw [done.frame]; simp
  | rslen src dst small => left; simp
  | quant u fitsSrc fitsDst done => left; rw [done.frame]; rfl
  | quantNaN u j small fitsSrc fitsDst done => left; rw [done.frame]; rfl
  | qone c code => exact .inl rfl
  | dinit => exact .inr (.inl rfl)
  | denc u fitsSrc fitsDst apart frame done => exact .inr (.inr (.inl rfl))
  | dstep target room => exact .inr (.inr (.inr ⟨target, rfl⟩))
  | dflush room => left; simp

/-- The two ways a command leaves STATUS: it has recorded an error and nothing else (R125), or it has set DONE, and WARN_DEGEN in DEGEN
mode (R80, R130, R131). -/
theorem Ends.status {s t : State} {i : Instr} (e : Ends s i t) :
    (t.err ≠ .none ∧ t.done = s.done ∧ t.warnDegen = s.warnDegen) ∨
    (t.err = s.err ∧ t.done = true ∧
      (t.warnDegen = s.warnDegen ∨ (t.warnDegen = true ∧ (i = .resample ∨ i = .rslen) ∧ s.rsMode = .degen))) := by
  cases e with
  | check code i legal =>
    refine .inl ⟨?_, rfl, rfl⟩
    rintro rfl
    cases legal
  | quantNaN u j small fitsSrc fitsDst done => left; rw [done.frame]; simp
  | resample u src dst fitsSrc fitsDst apart done =>
    right
    rw [done.frame]
    by_cases degen : s.rsMode = .degen <;> simp [degen]
  | rslen src dst small =>
    right
    by_cases degen : s.rsMode = .degen <;> simp [degen]
  | quant u fitsSrc fitsDst done => right; rw [done.frame]; simp
  | denc u fitsSrc fitsDst apart frame done => right; rw [frame]; simp
  | nop => right; simp
  | qone c code => right; simp
  | dinit => right; simp
  | dstep target room => right; simp
  | dflush room => right; simp

/-- Settles O22: the two ways of `Ends.status` differ in ERR, which was 0. -/
theorem completionSetsDoneAndErrorsLeaveIt : Obligations.CompletionSetsDoneAndErrorsLeaveIt := by
  intro i s t clear h
  rcases (exec_ends h).status with ⟨err, same⟩ | ⟨err, done, _⟩
  · exact ⟨fun clean => absurd clean err, fun _ => same⟩
  · exact ⟨fun _ => done, fun raised => absurd (err.trans clear) raised⟩

/-- Settles O23: WARN_DEGEN rises only where the mode is DEGEN, and `rsmode` says when that is. -/
theorem warnDegenIsSetOnlyInDegenMode : Obligations.WarnDegenIsSetOnlyInDegenMode := by
  intro i s t h was now
  rcases (exec_ends h).status with ⟨_, _, same⟩ | ⟨err, done, same | ⟨_, command, degen⟩⟩
  · rw [was, now] at same; cases same
  · rw [was, now] at same; cases same
  · rcases rsmode_cases s.rsLen.toNat s.srcRate.toNat s.dstRate.toNat with ⟨_, e⟩ | ⟨long, rates, short, _⟩ | ⟨_, _, _, e⟩
    · rw [State.rsMode, e] at degen; cases degen
    · exact ⟨command, long, fun equal => rates (congrArg BitVec.toNat equal), short, err, done⟩
    · rw [State.rsMode, e] at degen; cases degen

/-! ### What every step keeps -/

/-- What a step can do to the accumulator and to STATUS: a reset, nothing, a write of STATUS, or an issued command. -/
theorem step_effect {s t : State} (hstep : step s = .next t) :
    (∃ rest, s.host = .resetLine true :: rest) ∨
    (t.acc = s.acc ∧ t.done = s.done ∧ t.warnDegen = s.warnDegen ∧ t.err = s.err ∧ t.errIndex = s.errIndex ∧ t.errCmd = s.errCmd) ∨
    (∃ v rest, s.accesses 0x08 (.write v) rest ∧ t = (s.answered rest .done).writeStatus v) ∨
    (∃ w rest, s.issues w rest ∧ issueCommand w (s.answered rest .done) = .next t) := by
  rcases step_cases s with ⟨_, e⟩ | ⟨level, rest, host, e⟩ | ⟨rest, r, e⟩ | ⟨rest, j, high, v, _, e⟩ | ⟨rest, k, v, _, _, e⟩ |
    ⟨rest, c, v, notCmd, access, e⟩ | ⟨rest, w, issued, e⟩ <;> rw [e] at hstep
  · cases hstep; exact .inr (.inl ⟨rfl, rfl, rfl, rfl, rfl, rfl⟩)
  · cases level with
    | true => exact .inl ⟨rest, host⟩
    | false => cases hstep; exact .inr (.inl ⟨rfl, rfl, rfl, rfl, rfl, rfl⟩)
  · cases hstep; exact .inr (.inl ⟨rfl, rfl, rfl, rfl, rfl, rfl⟩)
  · cases hstep; right; left; simp [State.answered]
  · cases hstep; right; left; simp [State.answered]
  · obtain ⟨u, e', _, acc, _, _, _, _, _, _, _, _, _, _, _, _, other, status⟩ := writeCsr_next notCmd v (s.answered rest .done)
    cases e'.symm.trans hstep
    by_cases hc : c = .status
    · subst hc; exact .inr (.inr (.inl ⟨v, rest, access, status rfl⟩))
    · exact .inr (.inl ⟨acc, other hc⟩)
  · exact .inr (.inr (.inr ⟨w, rest, issued, hstep⟩))

/-- Settles O28: only an issued command or a reset reaches the accumulator. -/
theorem accumulatorChangesOnlyByDpcmCommands : Obligations.AccumulatorChangesOnlyByDpcmCommands := by
  intro s t hstep changed
  rcases step_effect hstep with reset | ⟨acc, _⟩ | ⟨v, rest, _, rfl⟩ | ⟨w, rest, issued, h⟩
  · exact .inl reset
  · exact absurd acc changed
  · exact absurd (State.writeStatus_acc _ v) changed
  · rcases issueCommand_cases w (s.answered rest .done) with ⟨_, e⟩ | ⟨_, i, legal, e⟩ | ⟨_, _, _, e⟩ <;> rw [e] at h
    · cases h; exact absurd rfl changed
    · rcases (exec_ends h).acc with acc | command
      · exact absurd acc changed
      · exact .inr ⟨w, rest, i, issued, legal, command⟩
    · cases h; exact absurd rfl changed

/-- What is set in STATUS stays set, and a recorded error stays as it is (R25 to R27, R129). -/
structure State.StatusKept (s t : State) : Prop where
  done : s.done = true → t.done = true
  warn : s.warnDegen = true → t.warnDegen = true
  record : s.err ≠ .none → t.err = s.err ∧ t.errIndex = s.errIndex ∧ t.errCmd = s.errCmd

/-- A command that runs with no error recorded clears neither flag. -/
theorem Ends.statusKept {s t : State} {i : Instr} (e : Ends s i t) (clear : s.err = .none) : s.StatusKept t := by
  have record : s.err ≠ .none → t.err = s.err ∧ t.errIndex = s.errIndex ∧ t.errCmd = s.errCmd := fun recorded => absurd clear recorded
  rcases e.status with ⟨_, done, warn⟩ | ⟨_, done, warn | ⟨warn, _⟩⟩
  · exact ⟨done.trans, warn.trans, record⟩
  · exact ⟨fun _ => done, warn.trans, record⟩
  · exact ⟨fun _ => done, fun _ => warn, record⟩

theorem issueCommand_statusKept {w : Word} {s t : State} (h : issueCommand w s = .next t) : s.StatusKept t := by
  rcases issueCommand_cases w s with ⟨_, e⟩ | ⟨clear, i, _, e⟩ | ⟨clear, _, _, e⟩ <;> rw [e] at h
  · cases h; exact ⟨id, id, fun _ => ⟨rfl, rfl, rfl⟩⟩
  · exact (exec_ends h).statusKept clear
  · cases h; exact ⟨id, id, fun recorded => absurd clear recorded⟩

/-- A step keeps STATUS unless it asserts reset or takes a STATUS write. -/
theorem step_statusKept {s t : State} (hstep : step s = .next t) :
    (∃ rest, s.host = .resetLine true :: rest) ∨ s.StatusKept t ∨
    (∃ v rest, s.accesses 0x08 (.write v) rest ∧ t = (s.answered rest .done).writeStatus v) := by
  rcases step_effect hstep with reset | ⟨_, done, warn, record⟩ | write | ⟨w, rest, _, h⟩
  · exact .inl reset
  · exact .inr (.inl ⟨done.trans, warn.trans, fun _ => record⟩)
  · exact .inr (.inr write)
  · obtain ⟨done, warn, record⟩ := issueCommand_statusKept h
    exact .inr (.inl ⟨done, warn, record⟩)

/-- Settles O12: where a STATUS write does clear, it has the bit that clears. -/
theorem statusIsSticky : Obligations.StatusIsSticky := by
  intro s t hstep
  rcases step_statusKept hstep with reset | kept | ⟨v, rest, access, rfl⟩
  · exact .inl reset
  · refine .inr ⟨fun was now => ?_, fun was now => ?_, fun was now => absurd (kept.record was) now⟩
    · rw [kept.done was] at now; cases now
    · rw [kept.warn was] at now; cases now
  · refine .inr ⟨fun was now => ⟨v, rest, access, ?_⟩, fun was now => ⟨v, rest, access, ?_⟩, fun _ now => ⟨v, rest, access, ?_⟩⟩
    · simpa [State.answered, was] using now
    · simpa [State.answered, was] using now
    · by_contra keep
      rw [State.writeStatus_eq] at now
      simp only [keep] at now
      exact now ⟨rfl, rfl, rfl⟩

end Sys2Proof.Machine
end

section
/-! The memory windows and the memories: which accesses are refused, what the windows read and write, and which memory and which region of
it a command leaves alone. -/

namespace Sys2Proof

theorem Config.sampleWords_le {c : Config} (h : c.wellFormed = true) : c.sampleWords ≤ 131072 := by
  simp only [Config.wellFormed, Config.sampleWordsOk, Bool.and_eq_true, decide_eq_true_eq] at h
  obtain ⟨⟨⟨_, upper⟩, _⟩, _⟩ := h
  exact upper

end Sys2Proof

namespace Sys2Proof.Machine

/-! ### Refused accesses -/

/-- An access of the window, of any width and at any level of the reset input, that has no target gets a bus error. -/
theorem step_refused {s : State} {offset : Nat} {width : Width} {op : BusOp} {rest : List HostMove}
    (host : s.host = accessAt s.cfg offset width op :: rest) (hlt : offset < 0x400000)
    (htarget : s.target ⟨s.cfg.blockBase + offset, width, op⟩ = .unmapped) : step s = .next (s.answered rest .busError) := by
  have hclaims : (s.withHost rest).claims (s.cfg.blockBase + offset) = true := by simp [State.claims, windowSize]; omega
  have htaken : (s.withHost rest).target ⟨s.cfg.blockBase + offset, width, op⟩ = .unmapped := htarget
  rw [step_cons host, accessAt, perform, busAccess, if_pos hclaims, htaken]
  cases op <;> rfl

/-- The offsets past the end of each memory window's cells, and past the windows, stand for nothing (R49). -/
theorem regionAt_beyond (cfg : Config) {offset : Nat}
    (h : (0x100000 + 8 * cfg.sampleWords ≤ offset ∧ 0x100000 ≤ offset ∧ offset < 0x200000) ∨
      (0x200000 + cfg.byteWords ≤ offset ∧ 0x200000 ≤ offset ∧ offset < 0x300000) ∨ 0x300000 ≤ offset) :
    regionAt cfg offset = .unmapped := by
  rcases h with ⟨h1, h2, h3⟩ | ⟨h1, h2, h3⟩ | h
  · rw [regionAt, if_neg (by omega), if_pos h3, if_neg (by omega)]
  · rw [regionAt, if_neg (by omega), if_neg (by omega), if_pos h3, if_neg (by omega)]
  · rw [regionAt, if_neg (by omega), if_neg (by omega), if_neg (by omega)]

/-- Settles O8: `State.target` is `unmapped` for each kind of refused access. -/
theorem refusedAccessesGetABusErrorAndChangeNothing : Obligations.RefusedAccessesGetABusErrorAndChangeNothing := by
  intro s offset width op rest hlt host refused
  refine step_refused host hlt ?_
  rw [State.target, Nat.add_sub_cancel_left]
  rcases refused with reset | narrow | misaligned | ⟨h1, h2⟩ | beyond
  · simp [reset]
  · simp [narrow]
  · simp [misaligned]
  · rw [regionAt_unmapped s.cfg h1 h2, ite_self]
  · rw [regionAt_beyond s.cfg beyond, ite_self]

/-! ### Accesses of the memory windows -/

theorem step_readSram {s : State} {j : Nat} {high : Bool} {rest : List HostMove} (wf : s.cfg.wellFormed = true)
    (hj : j < s.cfg.sampleWords) (h : s.accesses (0x100000 + 8 * j + if high then 4 else 0) .read rest) :
    step s = .next (s.answered rest (.data (s.readSramHalf j high))) := by
  have hdepth := Config.sampleWords_le wf
  rw [step_read h (by split <;> omega) (by split <;> omega), regionAt_sram s.cfg high hj (by omega)]
  rfl

theorem step_writeSram {s : State} {j : Nat} {high : Bool} {v : Word} {rest : List HostMove} (wf : s.cfg.wellFormed = true)
    (hj : j < s.cfg.sampleWords) (h : s.accesses (0x100000 + 8 * j + if high then 4 else 0) (.write v) rest) :
    step s = .next ((s.answered rest .done).writeSramHalf j high v) := by
  have hdepth := Config.sampleWords_le wf
  rw [step_write h (by split <;> omega) (by split <;> omega), regionAt_sram s.cfg high hj (by omega)]
  rfl

theorem step_readBram {s : State} {k : Nat} {rest : List HostMove} (wf : s.cfg.wellFormed = true) (aligned : k % 4 = 0)
    (hk : k < s.cfg.byteWords) (h : s.accesses (0x200000 + k) .read rest) :
    step s = .next (s.answered rest (.data (s.readBramWord k))) := by
  have hdepth := (Config.byteWords_bounds wf).1
  rw [step_read h (by omega) (by omega), regionAt_bram s.cfg hk (by omega)]
  rfl

theorem step_writeBram {s : State} {k : Nat} {v : Word} {rest : List HostMove} (wf : s.cfg.wellFormed = true) (aligned : k % 4 = 0)
    (hk : k < s.cfg.byteWords) (h : s.accesses (0x200000 + k) (.write v) rest) :
    step s = .next ((s.answered rest .done).writeBramWord k v) := by
  have hdepth := (Config.byteWords_bounds wf).1
  rw [step_write h (by omega) (by omega), regionAt_bram s.cfg hk (by omega)]
  rfl

/-! ### Halves of a sample -/

theorem State.readSramHalf_written {s : State} {j : Nat} {x : Sample} (h : Memory.readSample s.sram j = some x) (high : Bool) :
    s.readSramHalf j high = sampleHalf x high := by
  simp only [State.readSramHalf, h]

/-- A half of sample `j` lies within its eight bytes. -/
theorem halfAddr_bounds (j : Nat) (high : Bool) : 8 * j ≤ halfAddr j high ∧ halfAddr j high + 4 ≤ 8 * j + 8 := by
  cases high <;> simp [halfAddr]

theorem State.read_writeSramHalf_outside (s : State) (j : Nat) (high : Bool) (v : Word) {a : Nat} (h : a < 8 * j ∨ 8 * j + 8 ≤ a) :
    Memory.read (s.writeSramHalf j high v).sram a = Memory.read s.sram a := by
  have hbounds := halfAddr_bounds j high
  exact Memory.read_writeLE_outside _ _ _ _ (by omega)

theorem State.readSample_writeSramHalf_other (s : State) {j k : Nat} (high : Bool) (v : Word) (h : k ≠ j) :
    Memory.readSample (s.writeSramHalf j high v).sram k = Memory.readSample s.sram k :=
  Memory.readSample_congr fun _ _ _ => s.read_writeSramHalf_outside j high v (by omega)

/-- The low half of a written sample is replaced, the high half stays (R48). -/
theorem State.readSample_writeSramHalf_low {s : State} {j : Nat} {x : Sample} (v : Word) (h : Memory.readSample s.sram j = some x) :
    Memory.readSample (s.writeSramHalf j false v).sram j = some (x.extractLsb' 32 32 ++ v) :=
  Memory.readSample_write_low v fun i _ hi => Memory.readSample_eq_some_iff.mp h i hi

/-- The high half of a written sample is replaced, the low half stays (R48). -/
theorem State.readSample_writeSramHalf_high {s : State} {j : Nat} {x : Sample} (v : Word) (h : Memory.readSample s.sram j = some x) :
    Memory.readSample (s.writeSramHalf j true v).sram j = some (v ++ x.extractLsb' 0 32) :=
  Memory.readSample_write_high v fun i hi => Memory.readSample_eq_some_iff.mp h i (by omega)

/-- Settles O15: each of the four accesses is one half read or written. -/
theorem sampleHalvesReadAndWriteAlone : Obligations.SampleHalvesReadAndWriteAlone := by
  intro s j x rest wf hj written
  refine ⟨fun h => ?_, fun h => ?_, fun v h => ?_, fun v h => ?_⟩
  · rw [step_readSram (high := false) wf hj h, State.readSramHalf_written written]
    rfl
  · rw [step_readSram (high := true) wf hj h, State.readSramHalf_written written]
    rfl
  · exact ⟨_, step_writeSram (high := false) wf hj h, State.readSample_writeSramHalf_low v written,
      fun _ other => State.readSample_writeSramHalf_other _ _ v other, rfl⟩
  · exact ⟨_, step_writeSram (high := true) wf hj h, State.readSample_writeSramHalf_high v written,
      fun _ other => State.readSample_writeSramHalf_other _ _ v other, rfl⟩

/-- The low half written into an unwritten sample leaves its byte 4, so the sample, unwritten (R53). -/
theorem State.readSample_writeSramHalf_low_unwritten {s : State} {j : Nat} (v : Word) (h : Memory.read s.sram (8 * j + 4) = none) :
    Memory.readSample (s.writeSramHalf j false v).sram j = none :=
  Memory.readSample_eq_none (i := 4) (by omega) ((Memory.read_writeLE_outside _ _ _ _ (by simp [halfAddr])).trans h)

theorem sampleHalf_append (x : Sample) : sampleHalf x true ++ sampleHalf x false = x :=
  (BitVec.extractLsb'_append_extractLsb'_eq_extractLsb' rfl).trans BitVec.extractLsb'_eq_self

/-- A sample's two halves, written low half first, make the sample, whatever was there before (R72). -/
theorem State.readSample_writeSramHalf_both (s : State) (j : Nat) (p : Sample) :
    Memory.readSample ((s.writeSramHalf j false (sampleHalf p false)).writeSramHalf j true (sampleHalf p true)).sram j = some p := by
  have lowBytes : ∀ i < 4, Memory.read (s.writeSramHalf j false (sampleHalf p false)).sram (8 * j + i) =
      some (p.extractLsb' (8 * i) 8) := by
    intro i hi
    have bytes : (sampleHalf p false).extractLsb' (8 * i) 8 = p.extractLsb' (8 * i) 8 :=
      BitVec.extractLsb'_extractLsb'_of_le (by omega)
    refine (Memory.read_writeLE_inside _ _ _ _ _ hi).trans ?_
    rw [ofNat_div_eq_extract, bytes]
  exact (Memory.readSample_write_high (sampleHalf p true) lowBytes).trans (congrArg some (sampleHalf_append p))

/-- Settles O16: `wsmp` is the write of the low half and then of the high half. -/
theorem sampleIsWrittenOnlyByBothHalves : Obligations.SampleIsWrittenOnlyByBothHalves := by
  intro s j p rest wf hj released unwritten host
  have first := step_writeSram (high := false) (v := sampleHalf p false)
    (rest := hostWrite s.cfg (0x100000 + 8 * j + 4) (sampleHalf p true) ++ rest) wf hj ⟨released, host⟩
  have second := step_writeSram (high := true) (v := sampleHalf p true) (rest := rest)
    (s := (s.answered (hostWrite s.cfg (0x100000 + 8 * j + 4) (sampleHalf p true) ++ rest) .done).writeSramHalf j false
      (sampleHalf p false)) wf hj ⟨released, rfl⟩
  refine ⟨_, _, first, State.readSample_writeSramHalf_low_unwritten _ (unwritten 4 (by omega)), second,
    State.readSample_writeSramHalf_both _ j p, fun a outside => ?_, ?_⟩
  · rw [State.read_writeSramHalf_outside _ j true _ outside]
    exact State.read_writeSramHalf_outside _ j false _ outside
  · simp only [State.writeSramHalf, State.withSram, State.answered, State.reply, State.withHost]

/-! ### Words of BRAM -/

theorem State.readBramByte_written {s : State} {k : Nat} {b : Byte} (h : Memory.read s.bram k = some b) : s.readBramByte k = b := by
  rw [State.readBramByte, h, Option.getD_some]

/-- Settles O17: a word's bytes are those of `readBramWord` and `writeBramWord`. -/
theorem bramWordsAreLittleEndian : Obligations.BramWordsAreLittleEndian := by
  intro s k rest wf aligned hk
  refine ⟨fun b0 b1 b2 b3 h0 h1 h2 h3 h => ?_, fun v h => ⟨_, step_writeBram wf aligned hk h, fun i hi => ?_, fun a outside => ?_, rfl⟩⟩
  · rw [step_readBram wf aligned hk h, State.readBramWord, State.readBramByte_written h0, State.readBramByte_written h1,
      State.readBramByte_written h2, State.readBramByte_written h3]
  · exact (Memory.read_writeLE_inside _ k 4 _ i hi).trans (congrArg some (ofNat_div_eq_extract v i))
  · exact Memory.read_writeLE_outside _ k 4 _ outside

/-! ### Reads that complete -/

/-- A mapped offset of the memory windows reaches a cell, whatever the depths. -/
theorem regionAt_memory (cfg : Config) {offset : Nat}
    (h : (0x100000 ≤ offset ∧ offset < 0x200000 ∧ offset < 0x100000 + 8 * cfg.sampleWords) ∨
      (0x200000 ≤ offset ∧ offset < 0x300000 ∧ offset < 0x200000 + cfg.byteWords)) :
    (∃ j high, regionAt cfg offset = .sram j high) ∨ (∃ k, regionAt cfg offset = .bram k) := by
  rcases h with ⟨h1, h2, h3⟩ | ⟨h1, h2, h3⟩
  · exact .inl ⟨_, _, by rw [regionAt, if_neg (by omega), if_pos h2, if_pos (by omega)]⟩
  · exact .inr ⟨_, by rw [regionAt, if_neg (by omega), if_neg (by omega), if_pos h2, if_pos (by omega)]⟩

/-- Settles O18: a read of a cell replies with its value, written or free. -/
theorem hostReadsOfUnwrittenCellsComplete : Obligations.HostReadsOfUnwrittenCellsComplete := by
  intro s offset rest aligned mapped h
  have hlt : offset < 0x400000 := by omega
  rcases regionAt_memory s.cfg mapped with ⟨j, high, hreg⟩ | ⟨k, hreg⟩
  · exact ⟨(s.withHost rest).readSramHalf j high, by rw [step_read h aligned hlt, hreg]; rfl⟩
  · exact ⟨(s.withHost rest).readBramWord k, by rw [step_read h aligned hlt, hreg]; rfl⟩

/-! ### What a command leaves of the memories -/

theorem Ends.sram {s t : State} {i : Instr} (e : Ends s i t) : t.sram = s.sram ∨ i = .resample := by
  cases e with
  | check code i legal => exact .inl rfl
  | nop => exact .inl rfl
  | resample u src dst fitsSrc fitsDst apart done => exact .inr rfl
  | rslen src dst small => left; simp
  | quant u fitsSrc fitsDst done => left; rw [done.frame]; rfl
  | quantNaN u j small fitsSrc fitsDst done => left; rw [done.frame]; rfl
  | qone c code => exact .inl rfl
  | dinit => exact .inl rfl
  | denc u fitsSrc fitsDst apart frame done => left; rw [frame]; rfl
  | dstep target room => left; simp
  | dflush room => left; simp

theorem Ends.bram {s t : State} {i : Instr} (e : Ends s i t) :
    t.bram = s.bram ∨ i = .quant ∨ i = .denc ∨ (∃ x, i = .dstep x) ∨ i = .dflush := by
  cases e with
  | check code i legal => exact .inl rfl
  | nop => exact .inl rfl
  | resample u src dst fitsSrc fitsDst apart done => left; rw [done.frame]; simp
  | rslen src dst small => left; simp
  | quant u fitsSrc fitsDst done => exact .inr (.inl rfl)
  | quantNaN u j small fitsSrc fitsDst done => exact .inr (.inl rfl)
  | qone c code => exact .inl rfl
  | dinit => exact .inl rfl
  | denc u fitsSrc fitsDst apart frame done => exact .inr (.inr (.inl rfl))
  | dstep target room => exact .inr (.inr (.inr (.inl ⟨target, rfl⟩)))
  | dflush room => exact .inr (.inr (.inr (.inr rfl)))

/-- Settles O27: `Ends.sram` and `Ends.bram` name the commands that may write. -/
theorem onlyMemoryCommandsWriteMemory : Obligations.OnlyMemoryCommandsWriteMemory := by
  intro i s t h
  refine ⟨(exec_ends h).sram.resolve_right, fun notQuant notDenc notDstep notDflush => ?_⟩
  rcases (exec_ends h).bram with same | quant | denc | ⟨x, dstep⟩ | dflush
  · exact same
  · exact absurd quant notQuant
  · exact absurd denc notDenc
  · exact absurd dstep (notDstep x)
  · exact absurd dflush notDflush

/-- The targets of a DENC read as they did at its start: no output byte lands on one. -/
theorem EncodedSoFar.source {s u : State} {ts : List Byte} (h : EncodedSoFar s ts u)
    (apart : overlap s.dSrc.toNat ts.length s.dWptr.toNat ((s.cnt.toNat + ts.length) / 8) = false) {i : Nat} (hi : i < ts.length) :
    Memory.read u.bram (s.dSrc.toNat + i) = Memory.read s.bram (s.dSrc.toNat + i) := by
  rw [overlap_eq_false] at apart
  exact h.outside _ (by omega)

/-- RESAMPLE keeps every sample of S[RS_SRC, RS_LEN], however it ends (R60). -/
theorem Ends.resample_source {s t : State} (e : Ends s .resample t) {i : Nat} (hi : i < s.rsLen.toNat) :
    Memory.readSample t.sram (s.rsSrc.toNat + i) = Memory.readSample s.sram (s.rsSrc.toNat + i) := by
  cases e with
  | check code i legal => rfl
  | resample u src dst fitsSrc fitsDst apart done => simpa using done.source le_rfl apart hi

/-- DENC keeps every byte of B[D_SRC, D_LEN], however it ends (R60). -/
theorem Ends.denc_source {s t : State} (e : Ends s .denc t) (wf : s.cfg.wellFormed = true) {i : Nat} (hi : i < s.dLen.toNat) :
    Memory.read t.bram (s.dSrc.toNat + i) = Memory.read s.bram (s.dSrc.toNat + i) := by
  cases e with
  | check code i legal => rfl
  | denc u fitsSrc fitsDst apart frame done =>
    have hdepth := (Config.byteWords_bounds wf).1
    obtain ⟨ts, hlen, _, encoded⟩ := done (by omega)
    rw [State.encBytes, ← hlen] at apart
    exact encoded.source apart (hlen ▸ hi)

/-- Settles O29: an index of the source region is its base and an index below its length. -/
theorem commandsKeepTheirSourceRegions : Obligations.CommandsKeepTheirSourceRegions := by
  refine ⟨fun s t h j lower upper => ?_, fun s t wf h k lower upper => ?_⟩
  · obtain ⟨i, rfl⟩ := Nat.exists_eq_add_of_le lower
    exact (exec_ends h).resample_source (by omega)
  · obtain ⟨i, rfl⟩ := Nat.exists_eq_add_of_le lower
    exact (exec_ends h).denc_source wf (by omega)

end Sys2Proof.Machine
end

section
/-! Command words and the bit stream: which words decode, and what DENC and a whole stream DINIT, DENC, DFLUSH write. -/

namespace Sys2Proof

/-! ### Decoding inverts encoding -/

@[simp] theorem decode_encode (i : Instr) : decode (encode i) = .ok i := by
  rw [decode, encode, splitWord_joinWord]
  cases i <;> rfl

theorem encode_injective : Function.Injective encode := fun i j h =>
  Except.ok.inj ((decode_encode i).symm.trans ((congrArg decode h).trans (decode_encode j)))

/-- The opcode map names the operation code of the instruction it gives (R64). -/
theorem fields_of_decodeOp {op : Byte} {i : Instr} (h : decodeOp op = .ok i) : i.fields = { op := op, imm8 := 0, rsv := 0 } := by
  unfold decodeOp at h
  split_ifs at h <;> cases h <;> subst_vars <;> rfl

/-- The three fields of a word that decodes are those of its instruction (R65). -/
theorem fields_of_decodeFields {f : CmdFields} {i : Instr} (h : decodeFields f = .ok i) : i.fields = f := by
  obtain ⟨op, imm8, rsv⟩ := f
  unfold decodeFields at h
  split_ifs at h with hrsv hstep himm
  · cases h
    simp only [ne_eq, not_not] at hrsv hstep
    rw [hrsv, hstep, Instr.fields]
  · simp only [ne_eq, not_not] at hrsv himm
    rw [fields_of_decodeOp h, hrsv, himm]

/-- Settles O2: a word is its three fields, and those of a word that decodes are its instruction's. -/
theorem decodeAndEncodeAreInverse : Obligations.DecodeAndEncodeAreInverse := by
  refine fun w i => ⟨fun h => ?_, fun h => h ▸ decode_encode i⟩
  rw [encode, fields_of_decodeFields h, joinWord_splitWord]

/-! ### The words that decode -/

/-- Every instruction: the eight without an operand, and DSTEP with each target (R64, R69). -/
def Instr.all : List Instr :=
  [.nop, .resample, .rslen, .quant, .qone, .dinit, .denc, .dflush] ++ List.ofFn fun k : Fin 256 => .dstep (BitVec.ofFin k)

theorem Instr.mem_all (i : Instr) : i ∈ Instr.all := by
  cases i with
  | dstep target => exact List.mem_append_right _ (List.mem_ofFn.mpr ⟨target.toFin, rfl⟩)
  | _ => exact List.mem_append_left _ (by decide)

theorem Instr.all_nodup : Instr.all.Nodup := by
  refine List.Nodup.append (by decide) (List.nodup_ofFn.mpr fun j k h => ?_) fun i fixed step => ?_
  · cases h; rfl
  · obtain ⟨k, rfl⟩ := List.mem_ofFn.mp step
    simp at fixed

theorem Instr.all_length : Instr.all.length = 264 := by rw [Instr.all, List.length_append, List.length_ofFn]; rfl

/-- Settles O3: the decoder's tests are the rule's, and the words that decode are those of `Instr.all`. -/
theorem decodingIsTotalWith264Commands : Obligations.DecodingIsTotalWith264Commands := by
  refine ⟨fun w => ?_, Instr.all.map encode, Instr.all_nodup.map encode_injective, ?_, fun w => ?_⟩
  · unfold decode decodeFields decodeOp
    simp only [apply_ite Except.toOption]
    rfl
  · rw [List.length_map, Instr.all_length]
  · simp only [List.mem_map, decodeAndEncodeAreInverse w, Instr.mem_all, true_and, eq_comm]

theorem CmdFields.wellFormed_iff (f : CmdFields) :
    f.wellFormed = true ↔ f.rsv = 0 ∧ (f.op = 0x22 ∨ f.imm8 = 0) ∧ f.op ∈ CmdFields.opMap := by
  simp [CmdFields.wellFormed, CmdFields.rsvOk, CmdFields.immOk, CmdFields.opOk, and_assoc]

/-- A word whose fields are not legal decodes to no command: an instruction's fields are legal. -/
theorem decode_error_of_not_wellFormed {w : Word} (h : ¬ (splitWord w).wellFormed = true) : ∃ e, decode w = .error e := by
  cases hd : decode w with
  | error e => exact ⟨e, rfl⟩
  | ok i => exact absurd (fields_of_decodeFields hd ▸ i.wellFormed_all) h

/-- Settles O1: each word by running the decoder. -/
theorem opcodeMapWordsDecode : Obligations.OpcodeMapWordsDecode := by
  unfold Obligations.OpcodeMapWordsDecode
  decide

end Sys2Proof

namespace Sys2Proof.Machine

theorem issueCommand_error {w : Word} {e : Illegal} {s : State} (err : s.err = .none) (illegal : decode w = .error e) :
    issueCommand w s = .next (s.raise .illegal 0 w) := by
  simp [issueCommand, err, illegal]

/-- Settles O5: each of the three conditions is one of a legal word's fields not holding. -/
theorem illegalWordsRaiseIllegalOnly : Obligations.IllegalWordsRaiseIllegalOnly := by
  intro s w rest h err bad
  have illegal : ¬ (splitWord w).wellFormed = true := by
    rw [CmdFields.wellFormed_iff]
    rintro ⟨rsvOk, immOk, opOk⟩
    rcases bad with rsv | ⟨imm, op⟩ | reserved
    · exact rsv rsvOk
    · exact immOk.elim op imm
    · exact reserved opOk
  obtain ⟨e, he⟩ := decode_error_of_not_wellFormed illegal
  exact (step_issue h).trans (issueCommand_error (s := s.answered rest .done) err he)

/-! ### DENC -/

/-- A DENC whose regions fit and do not overlap, and whose targets are all written, completes with its targets encoded (R106). -/
theorem exec_denc {s : State} {ts : List Byte} (wf : s.cfg.wellFormed = true) (hlen : ts.length = s.dLen.toNat)
    (reads : ∀ i < s.dLen.toNat, Memory.read s.bram (s.dSrc.toNat + i) = ts[i]?)
    (fitsSrc : s.dSrc.toNat + s.dLen.toNat ≤ s.cfg.byteWords) (fitsDst : s.dWptr.toNat + s.encBytes ≤ s.cfg.byteWords)
    (apart : overlap s.dSrc.toNat s.dLen.toNat s.dWptr.toNat s.encBytes = false) :
    ∃ t, exec .denc s = .next t.complete ∧ EncodedSoFar s ts t := by
  have depth := (Config.byteWords_bounds wf).1
  obtain ⟨t, loop, encoded⟩ := dencLoop_go le_rfl hlen reads apart (by omega)
  have flow : dencFlow s = .go t := by
    simp [dencFlow, (fits_eq_true _ _ _).mpr fitsSrc, (fits_eq_true _ _ _).mpr fitsDst, apart, loop]
  exact ⟨t, by rw [exec, execDenc, flow, Flow.outcome_go], encoded⟩

/-- Settles O52: what `EncodedSoFar` says of all the targets is the statement. -/
theorem dencWritesTheBitStream : Obligations.DencWritesTheBitStream := by
  intro s targets n nb bits wf packer hlen reads fitsSrc fitsDst apart
  obtain ⟨t, ht, encoded⟩ := exec_denc wf hlen reads fitsSrc fitsDst (overlap_eq_false.mpr apart)
  have hnb : (s.cnt.toNat + targets.length) / 8 = nb := by rw [hlen]
  have bytes := encoded.bytes packer
  have pending := encoded.pending packer
  have outside := encoded.outside
  have frame := encoded.frame
  rw [hnb] at bytes pending outside frame
  rw [hlen, BitVec.ofNat_toNat, BitVec.setWidth_eq] at frame
  exact ⟨t.complete, ht, bytes, pending, encoded.packer packer, outside, congrArg State.complete frame⟩

/-! ### DFLUSH -/

theorem State.flush_of_empty {s : State} (h : s.cnt.toNat = 0) : s.flush = s := if_neg (by omega)

theorem State.flush_of_pending {s : State} (h : 0 < s.cnt.toNat) : s.flush = s.writeByte s.flushByte := if_pos h

theorem State.flush_cnt (s : State) : s.flush.cnt = 0 := by
  rcases Nat.eq_zero_or_pos s.cnt.toNat with empty | pending
  · rw [State.flush_of_empty empty]
    exact BitVec.eq_of_toNat_eq empty
  · rw [State.flush_of_pending pending, State.writeByte_cnt]

/-- A flush moves D_WPTR past the byte that holds the pending bits, if there are any (R104). -/
theorem State.flush_dWptr {s : State} (noWrap : s.dWptr.toNat + (s.cnt.toNat + 7) / 8 < 2 ^ 32) :
    s.flush.dWptr.toNat = s.dWptr.toNat + (s.cnt.toNat + 7) / 8 := by
  have hcnt := cnt_lt s
  rcases Nat.eq_zero_or_pos s.cnt.toNat with empty | pending
  · rw [State.flush_of_empty empty]
    omega
  · have one : (1 : Word).toNat = 1 := rfl
    rw [State.flush_of_pending pending, State.writeByte_dWptr, BitVec.toNat_add, one]
    omega

theorem State.flush_read_outside (s : State) {a : Nat} (h : a < s.dWptr.toNat ∨ s.dWptr.toNat + (s.cnt.toNat + 7) / 8 ≤ a) :
    Memory.read s.flush.bram a = Memory.read s.bram a := by
  rcases Nat.eq_zero_or_pos s.cnt.toNat with empty | pending
  · rw [State.flush_of_empty empty]
  · rw [State.flush_of_pending pending, State.writeByte_bram, Memory.read_write_other _ _ (by omega)]

/-- The byte of a flush: the pending bits, first one in bit 7, then zeros (R104). -/
theorem State.flushByte_getLsbD (s : State) {m : Nat} (hm : m < 8) :
    (BitVec.ofNat 8 s.flushByte).getLsbD (7 - m) = s.pendBits[m]?.getD false := by
  have hcnt := cnt_lt s
  rw [BitVec.getLsbD_ofNat, State.flushByte, Nat.testBit_mul_two_pow]
  by_cases h : m < s.cnt.toNat
  · rw [State.pendBits_get s h, show 7 - m - (8 - s.cnt.toNat) = s.cnt.toNat - 1 - m by omega]
    simp [show 7 - m < 8 by omega, show 8 - s.cnt.toNat ≤ 7 - m by omega]
  · rw [List.getElem?_eq_none (by rw [State.pendBits_length]; omega)]
    simp [show ¬ 8 - s.cnt.toNat ≤ 7 - m by omega]

/-- A flush writes its byte at D_WPTR. -/
theorem State.flush_read (s : State) (pending : 0 < s.cnt.toNat) :
    Memory.read s.flush.bram s.dWptr.toNat = some (BitVec.ofNat 8 s.flushByte) := by
  rw [State.flush_of_pending pending, State.writeByte_bram, Memory.read_write_same]

theorem State.flush_complete (s : State) : s.complete.flush = s.flush.complete :=
  (apply_ite State.complete (0 < s.cnt.toNat) (s.writeByte s.flushByte) s).symm

/-- A DFLUSH with room for its byte completes (R108). -/
theorem exec_dflush {s : State} (room : 0 < s.cnt.toNat → s.dWptr.toNat < s.cfg.byteWords) :
    exec .dflush s = .next s.flush.complete := by
  rw [exec, execDflush, dflushFlow, if_neg (by omega), Flow.outcome_go]

/-! ### A whole stream -/

theorem EncodedSoFar.dWptr {s u : State} {ts : List Byte} (h : EncodedSoFar s ts u)
    (noWrap : s.dWptr.toNat + (s.cnt.toNat + ts.length) / 8 < 2 ^ 32) :
    u.dWptr.toNat = s.dWptr.toNat + (s.cnt.toNat + ts.length) / 8 := by
  rw [h.frame, BitVec.toNat_add, BitVec.toNat_ofNat, Nat.mod_eq_of_lt (a := (s.cnt.toNat + ts.length) / 8) (by omega),
    Nat.mod_eq_of_lt noWrap]

/-- After a flush the stream's bits stand MSB-first in whole bytes, and the rest of the last byte is 0 (R74, R75). -/
theorem EncodedSoFar.flush_bytes {s u : State} {ts : List Byte} (h : EncodedSoFar s ts u) (packer : s.pend.toNat < 2 ^ s.cnt.toNat)
    (noWrap : s.dWptr.toNat + (s.cnt.toNat + ts.length) / 8 < 2 ^ 32) {m : Nat} (hm : m < 8 * ((s.cnt.toNat + ts.length + 7) / 8)) :
    ∃ b, Memory.read u.flush.bram (s.dWptr.toNat + m / 8) = some b ∧
      b.getLsbD (7 - m % 8) = ((s.pendBits ++ dpcmBits s.acc ts)[m]?).getD false := by
  have hptr := h.dWptr noWrap
  have hcnt := h.cnt
  by_cases whole : m < 8 * ((s.cnt.toNat + ts.length) / 8)
  · obtain ⟨b, hread, hbit⟩ := h.bytes packer m whole
    exact ⟨b, by rw [u.flush_read_outside (by omega), hread], by rw [hbit, Option.getD_some]⟩
  · refine ⟨BitVec.ofNat 8 u.flushByte, ?_, ?_⟩
    · rw [show s.dWptr.toNat + m / 8 = u.dWptr.toNat by omega, u.flush_read (by omega)]
    · rw [u.flushByte_getLsbD (by omega), h.pending packer, List.getElem?_drop,
        show 8 * ((s.cnt.toNat + ts.length) / 8) + m % 8 = m by omega]

theorem EncodedSoFar.flush_outside {s u : State} {ts : List Byte} (h : EncodedSoFar s ts u)
    (noWrap : s.dWptr.toNat + (s.cnt.toNat + ts.length) / 8 < 2 ^ 32) {a : Nat}
    (outside : a < s.dWptr.toNat ∨ s.dWptr.toNat + (s.cnt.toNat + ts.length + 7) / 8 ≤ a) :
    Memory.read u.flush.bram a = Memory.read s.bram a := by
  have hptr := h.dWptr noWrap
  have hcnt := h.cnt
  rw [u.flush_read_outside (by omega), h.outside a (by omega)]

/-- DENC and then DFLUSH write the pending bits and the targets' bits, padded with zeros to whole bytes (R112). -/
theorem exec_denc_dflush {s : State} {ts : List Byte} (wf : s.cfg.wellFormed = true) (packer : s.pend.toNat < 2 ^ s.cnt.toNat)
    (hlen : ts.length = s.dLen.toNat) (reads : ∀ i < s.dLen.toNat, Memory.read s.bram (s.dSrc.toNat + i) = ts[i]?)
    (fitsSrc : s.dSrc.toNat + s.dLen.toNat ≤ s.cfg.byteWords)
    (fitsDst : s.dWptr.toNat + (s.cnt.toNat + s.dLen.toNat + 7) / 8 ≤ s.cfg.byteWords)
    (apart : overlap s.dSrc.toNat s.dLen.toNat s.dWptr.toNat s.encBytes = false) :
    ∃ u v, exec .denc s = .next u ∧ exec .dflush u = .next v ∧
      v.dWptr.toNat = s.dWptr.toNat + (s.cnt.toNat + s.dLen.toNat + 7) / 8 ∧ v.cnt = 0 ∧
      (∀ m < 8 * ((s.cnt.toNat + s.dLen.toNat + 7) / 8), ∃ b, Memory.read v.bram (s.dWptr.toNat + m / 8) = some b ∧
        b.getLsbD (7 - m % 8) = ((s.pendBits ++ dpcmBits s.acc ts)[m]?).getD false) ∧
      (∀ a, a < s.dWptr.toNat ∨ s.dWptr.toNat + (s.cnt.toNat + s.dLen.toNat + 7) / 8 ≤ a →
        Memory.read v.bram a = Memory.read s.bram a) := by
  have depth := (Config.byteWords_bounds wf).1
  obtain ⟨u, hu, encoded⟩ := exec_denc wf hlen reads fitsSrc (by rw [State.encBytes]; omega) apart
  rw [← hlen] at fitsDst ⊢
  have noWrap : s.dWptr.toNat + (s.cnt.toNat + ts.length) / 8 < 2 ^ 32 := by omega
  have hptr := encoded.dWptr noWrap
  have hcnt := encoded.cnt
  have hcfg : u.cfg = s.cfg := by rw [encoded.frame]
  have room : 0 < u.complete.cnt.toNat → u.complete.dWptr.toNat < u.complete.cfg.byteWords := by
    simp only [State.complete_cnt, State.complete_dWptr, State.complete_cfg, hcfg]
    omega
  refine ⟨u.complete, u.flush.complete.complete, hu, by rw [exec_dflush room, State.flush_complete], ?_, u.flush_cnt,
    fun m hm => encoded.flush_bytes packer noWrap hm, fun a ha => encoded.flush_outside noWrap ha⟩
  rw [State.complete_dWptr, State.complete_dWptr, State.flush_dWptr (by omega)]
  omega

/-- Settles O54: DINIT empties the packer, so the stream is that of DENC and DFLUSH with no bit pending. -/
theorem completeStreamWritesCeilBytes : Obligations.CompleteStreamWritesCeilBytes := by
  intro s targets n bytes wf hlen reads fitsSrc fitsDst apart
  have empty : s.startStream.complete.cnt.toNat = 0 := rfl
  have noBits : s.startStream.complete.pendBits = [] := rfl
  obtain ⟨u, v, hu, hv, stream⟩ := exec_denc_dflush (s := s.startStream.complete) wf Nat.one_pos hlen reads fitsSrc
    (by rw [empty, Nat.zero_add]; exact fitsDst)
    (overlap_eq_false.mpr (by rw [State.encBytes, empty, Nat.zero_add]; exact .inr apart))
  rw [empty, Nat.zero_add, noBits, List.nil_append] at stream
  exact ⟨_, u, v, rfl, hu, hv, stream⟩

end Sys2Proof.Machine
end

section
/-! The resampler: the output length and RSLEN, RESAMPLE's checks, what it writes in each mode, and the arithmetic of its source positions. -/

namespace Sys2Proof.Machine

/-! ### Modes and source positions -/

theorem rsmode_copy {n src dst : Nat} (h : n < 2 ∨ src = dst) : rsmode n src dst = (.copy, n) := if_pos h

theorem rsmode_degen {n src dst : Nat} (long : 2 ≤ n) (rates : src ≠ dst) (short : n * dst / src ≤ 1) :
    rsmode n src dst = (.degen, 1) := by
  rw [rsmode, if_neg (by omega), if_pos short]

theorem rsmode_interp {n src dst : Nat} (long : 2 ≤ n) (rates : src ≠ dst) (several : 1 < n * dst / src) :
    rsmode n src dst = (.interp, n * dst / src) := by
  rw [rsmode, if_neg (by omega), if_neg (by omega)]

theorem rsmode_length (n src dst : Nat) :
    (rsmode n src dst).2 = if n < 2 ∨ src = dst then n else if n * dst / src ≤ 1 then 1 else n * dst / src := by
  unfold rsmode
  split_ifs <;> rfl

theorem rsmode_eq_degen_iff (n src dst : Nat) :
    (rsmode n src dst).1 = .degen ↔ 2 ≤ n ∧ src ≠ dst ∧ n * dst / src ≤ 1 := by
  rcases rsmode_cases n src dst with ⟨copies, e⟩ | ⟨long, rates, short, e⟩ | ⟨long, rates, several, e⟩ <;> rw [e]
  · simp only [reduceCtorEq, false_iff]
    omega
  · exact ⟨fun _ => ⟨long, rates, short⟩, fun _ => rfl⟩
  · simp only [reduceCtorEq, false_iff]
    omega

/-- Settles O40: a position below the output length is below the input length, and `i1` is the next index unless that is past the end. -/
theorem sourcePositionsStayInsideTheInput : Obligations.SourcePositionsStayInsideTheInput := by
  intro n src dst i hsrc hdst interp below
  rcases rsmode_cases n src dst with ⟨_, e⟩ | ⟨_, _, _, e⟩ | ⟨long, _, _, e⟩ <;> rw [e] at interp below
  · cases interp
  · cases interp
  · have inside := rsIndex_lt hsrc hdst below
    unfold rsNext
    omega

/-! ### The interpolation fraction -/

/-- The largest value below 1.0, which is 1 - 2^-53, in units of 2^-1074. -/
def belowOneUnits : Nat := (2 ^ 53 - 1) * 2 ^ 1021

theorem representable_belowOneUnits : Representable belowOneUnits := representable_mul_two_pow 1021 (by norm_num)

theorem two_pow_53_mul_belowOneUnits : 2 ^ 53 * belowOneUnits = (2 ^ 53 - 1) * oneUnits := by
  rw [belowOneUnits, oneUnits_eq, show 1074 = 53 + 1021 from rfl, pow_add]
  ring

theorem belowOneUnits_lt : belowOneUnits < oneUnits := by
  have scaled := two_pow_53_mul_belowOneUnits
  have pos := oneUnits_pos
  omega

theorem two_pow_32_le_oneUnits : 2 ^ 32 ≤ oneUnits := by
  rw [oneUnits_eq]
  exact Nat.pow_le_pow_right two_pos (by omega)

/-- The quotient of two integers with `0 < r < dst < 2^32`, rounded, is at least one unit, and at most the largest value below 1.0. -/
theorem roundUnits_fraction {r dst : Nat} (pos : 0 < r) (lt : r < dst) (small : dst < 2 ^ 32) :
    1 ≤ roundUnits (r * oneUnits * oneUnits) (dst * oneUnits) ∧
      roundUnits (r * oneUnits * oneUnits) (dst * oneUnits) ≤ belowOneUnits := by
  have hq : 0 < dst * oneUnits := Nat.mul_pos (by omega) oneUnits_pos
  constructor
  · have large : dst ≤ r * oneUnits := (small.le.trans two_pow_32_le_oneUnits).trans (Nat.le_mul_of_pos_left _ pos)
    exact le_roundUnits hq (representable_of_lt (by norm_num)) (by rw [one_mul]; exact Nat.mul_le_mul_right _ large)
  · have ratio : 2 ^ 53 * r ≤ (2 ^ 53 - 1) * dst := by omega
    refine roundUnits_le hq representable_belowOneUnits (Nat.le_of_mul_le_mul_left ?_ (Nat.two_pow_pos 53))
    calc 2 ^ 53 * (r * oneUnits * oneUnits) = 2 ^ 53 * r * oneUnits * oneUnits := by ring
      _ ≤ (2 ^ 53 - 1) * dst * oneUnits * oneUnits := Nat.mul_le_mul_right _ (Nat.mul_le_mul_right _ ratio)
      _ = 2 ^ 53 * belowOneUnits * (dst * oneUnits) := by rw [two_pow_53_mul_belowOneUnits]; ring
      _ = 2 ^ 53 * (belowOneUnits * (dst * oneUnits)) := by ring

/-- A quotient of integers below 1.0 is the rounded magnitude: it does not overflow. -/
theorem fdiv_i2f {r dst : Nat} (pos : 0 < r) (lt : r < dst) (small : dst < 2 ^ 32) :
    fdiv (i2f r) (i2f dst) = .fin false (roundUnits (r * oneUnits * oneUnits) (dst * oneUnits)) := by
  have upper := (roundUnits_fraction pos lt small).2
  have below := belowOneUnits_lt
  have nonzero : dst * oneUnits ≠ 0 := (Nat.mul_pos (by omega) oneUnits_pos).ne'
  rw [i2f_exact (show r < 2 ^ 53 by omega), i2f_exact (show dst < 2 ^ 53 by omega), fdiv, if_neg nonzero, fl, bne_self_eq_false]
  exact ofUnits_fin _ (by omega)

/-- Settles O41: the fraction's magnitude is at least one unit and at most the largest value below 1.0. -/
theorem interpolationFractionIsBetweenZeroAndOne : Obligations.InterpolationFractionIsBetweenZeroAndOne := by
  intro r dst pos lt small
  obtain ⟨lower, upper⟩ := roundUnits_fraction pos lt small
  have below := belowOneUnits_lt
  rw [fdiv_i2f pos lt small, i2f_exact (show 0 < 2 ^ 53 by omega), i2f_exact (show 1 < 2 ^ 53 by omega)]
  simp only [flt, signedUnits, Bool.false_eq_true, if_false, decide_eq_true_eq, Nat.cast_lt, zero_mul, one_mul]
  exact ⟨lower, by omega⟩

/-! ### RSLEN -/

/-- What RSLEN and RESAMPLE leave in the registers when they complete (R84, R85). -/
theorem State.lengthResult_eq (s : State) (mode : RsMode) (len : Nat) :
    s.lengthResult mode len = { s with rsOutLen := BitVec.ofNat 32 len, warnDegen := s.warnDegen || decide (mode = .degen) } := by
  cases mode <;> simp [State.lengthResult, State.warn]

theorem exec_rslen_rate {s : State} (zero : s.srcRate.toNat = 0 ∨ s.dstRate.toNat = 0) :
    exec .rslen s = .next (s.raise .rate 0 (encode .rslen)) := by
  rcases rslenFlow_cases s with ⟨_, flow⟩ | ⟨src, dst, _⟩
  · rw [exec, execRslen, flow, Flow.outcome_raiseError]
  · omega

theorem exec_rslen_range {s : State} (src : s.srcRate.toNat ≠ 0) (dst : s.dstRate.toNat ≠ 0) (long : 2 ^ 32 ≤ s.rsOut) :
    exec .rslen s = .next (s.raise .range 0 (encode .rslen)) := by
  rcases rslenFlow_cases s with ⟨zero, _⟩ | ⟨_, _, ⟨_, flow⟩ | ⟨short, _⟩⟩
  · omega
  · rw [exec, execRslen, flow, Flow.outcome_raiseError]
  · omega

theorem exec_rslen {s : State} (src : s.srcRate.toNat ≠ 0) (dst : s.dstRate.toNat ≠ 0) (short : s.rsOut < 2 ^ 32) :
    exec .rslen s = .next (s.lengthResult s.rsMode s.rsOut).complete := by
  rcases rslenFlow_cases s with ⟨zero, _⟩ | ⟨_, _, ⟨long, _⟩ | ⟨_, flow⟩⟩
  · omega
  · omega
  · rw [exec, execRslen, flow, Flow.outcome_go]

/-- Settles O34: the three outcomes, with the length and the warning of `rsmode` written out. -/
theorem rslenWritesTheOutputLength : Obligations.RslenWritesTheOutputLength := by
  intro s n src dst len
  have hlen : s.rsOut = len := rsmode_length n src dst
  refine ⟨exec_rslen_rate, fun hsrc hdst long => exec_rslen_range hsrc hdst (hlen ▸ long), fun hsrc hdst short => ?_⟩
  rw [exec_rslen hsrc hdst (hlen ▸ short), State.lengthResult_eq, hlen, decide_eq_decide.mpr (rsmode_eq_degen_iff n src dst)]
  rfl

/-! ### RESAMPLE's checks -/

theorem exec_resample_rate {s : State} (zero : s.srcRate.toNat = 0 ∨ s.dstRate.toNat = 0) :
    exec .resample s = .next (s.raise .rate 0 (encode .resample)) := by
  rcases resampleFlow_cases s with ⟨_, flow⟩ | ⟨src, dst, _⟩
  · rw [exec, execResample, flow, Flow.outcome_raiseError]
  · omega

theorem exec_resample_range {s : State} (src : 0 < s.srcRate.toNat) (dst : 0 < s.dstRate.toNat)
    (beyond : s.cfg.sampleWords < s.rsSrc.toNat + s.rsLen.toNat ∨ s.cfg.sampleWords < s.rsDst.toNat + s.rsOut) :
    exec .resample s = .next (s.raise .range 0 (encode .resample)) := by
  rcases resampleFlow_cases s with ⟨zero, _⟩ | ⟨_, _, ⟨_, flow⟩ | ⟨fitsSrc, fitsDst, _⟩⟩
  · omega
  · rw [exec, execResample, flow, Flow.outcome_raiseError]
  · omega

theorem exec_resample_overlap {s : State} (src : 0 < s.srcRate.toNat) (dst : 0 < s.dstRate.toNat)
    (fitsSrc : s.rsSrc.toNat + s.rsLen.toNat ≤ s.cfg.sampleWords) (fitsDst : s.rsDst.toNat + s.rsOut ≤ s.cfg.sampleWords)
    (shared : overlap s.rsSrc.toNat s.rsLen.toNat s.rsDst.toNat s.rsOut = true) :
    exec .resample s = .next (s.raise .overlap 0 (encode .resample)) := by
  rcases resampleFlow_cases s with ⟨zero, _⟩ | ⟨_, _, ⟨beyond, _⟩ | ⟨_, _, ⟨_, flow⟩ | ⟨apart, _⟩⟩⟩
  · omega
  · omega
  · rw [exec, execResample, flow, Flow.outcome_raiseError]
  · rw [shared] at apart; cases apart

/-- Settles O35: one lemma per check, each under the conditions that let the checks before it pass. -/
theorem resampleChecksInOrder : Obligations.ResampleChecksInOrder := by
  intro s len
  refine ⟨fun zero => exec_resample_rate (zero.imp (congrArg BitVec.toNat) (congrArg BitVec.toNat)),
    fun src dst beyond => exec_resample_range (BitVec.toNat_pos_of_ne_zero src) (BitVec.toNat_pos_of_ne_zero dst) beyond,
    fun src dst fitsSrc fitsDst input output lower upper => ?_⟩
  exact exec_resample_overlap (BitVec.toNat_pos_of_ne_zero src) (BitVec.toNat_pos_of_ne_zero dst) fitsSrc fitsDst
    (overlap_eq_true.mpr ⟨input, output, lower, upper⟩)

/-! ### RESAMPLE completed -/

/-- The state in which a RESAMPLE of this mode and length completes, with these contents of SRAM (R84; log 3). -/
def State.resampled (s : State) (mode : RsMode) (len : Nat) (m : Memory) : State := { s with
  sram := m
  rsOutLen := BitVec.ofNat 32 len
  warnDegen := s.warnDegen || decide (mode = .degen)
  done := true
  draws := s.draws + rsDraws mode len }

theorem ResampledSoFar.completed {s u : State} {mode : RsMode} {n src dst len : Nat} (h : ResampledSoFar s mode n src dst len u) :
    ((u.drawn (rsDraws mode len)).lengthResult mode len).complete = s.resampled mode len u.sram := by
  rw [State.lengthResult_eq, h.frame]
  rfl

/-- An output that has been written reads as its value. -/
theorem ResampledSoFar.output {s u : State} {mode : RsMode} {n src dst i j : Nat} (h : ResampledSoFar s mode n src dst i u)
    (hj : j < i) :
    Memory.readSample u.sram (s.rsDst.toNat + j) = sourceValue mode n src dst s.rsSrc.toNat s.draws s.sram j := by
  obtain ⟨y, value, written⟩ := h.values j hj
  rw [value, written]

/-- A RESAMPLE whose checks pass, and whose outputs all have their samples, completes with every output written and no other byte
of SRAM changed (R84). -/
theorem exec_resample {s : State} {mode : RsMode} {len : Nat} (src : s.srcRate ≠ 0) (dst : s.dstRate ≠ 0)
    (shape : rsmode s.rsLen.toNat s.srcRate.toNat s.dstRate.toNat = (mode, len))
    (fitsSrc : s.rsSrc.toNat + s.rsLen.toNat ≤ s.cfg.sampleWords) (fitsDst : s.rsDst.toNat + len ≤ s.cfg.sampleWords)
    (apart : overlap s.rsSrc.toNat s.rsLen.toNat s.rsDst.toNat len = false) (reads : ∀ i < len, ∃ y, s.rsValue i = some y) :
    ∃ m, exec .resample s = .next (s.resampled mode len m) ∧
      (∀ i < len, Memory.readSample m (s.rsDst.toNat + i) = s.rsValue i) ∧
      (∀ a, a < 8 * s.rsDst.toNat ∨ 8 * (s.rsDst.toNat + len) ≤ a → Memory.read m a = Memory.read s.sram a) := by
  have hsrc := BitVec.toNat_pos_of_ne_zero src
  have hdst := BitVec.toNat_pos_of_ne_zero dst
  obtain rfl : s.rsMode = mode := congrArg Prod.fst shape
  obtain rfl : s.rsOut = len := congrArg Prod.snd shape
  rcases resampleFlow_cases s with ⟨zero, _⟩ | ⟨_, _, ⟨beyond, _⟩ | ⟨_, _, ⟨shared, _⟩ | ⟨_, ⟨_, u, flow, done⟩ | ⟨j, hj, unwritten, _⟩⟩⟩⟩
  · omega
  · omega
  · rw [apart] at shared; cases shared
  · exact ⟨u.sram, by rw [exec, execResample, flow, Flow.outcome_go, done.completed], fun i hi => done.output hi, done.outside⟩
  · obtain ⟨y, hy⟩ := reads j hj
    rw [unwritten] at hy; cases hy

/-! ### The three modes -/

theorem State.rsValue_copy {s : State} {len : Nat} (mode : rsmode s.rsLen.toNat s.srcRate.toNat s.dstRate.toNat = (.copy, len))
    (i : Nat) : s.rsValue i = Memory.readSample s.sram (s.rsSrc.toNat + i) := by
  rw [State.rsValue, State.rsMode, mode, sourceValue]

theorem State.rsValue_degen {s : State} {len : Nat} (mode : rsmode s.rsLen.toNat s.srcRate.toNat s.dstRate.toNat = (.degen, len))
    (i : Nat) : s.rsValue i = Memory.readSample s.sram s.rsSrc.toNat := by
  rw [State.rsValue, State.rsMode, mode, sourceValue]

/-- At an integer position the output is the sample there (R81). -/
theorem State.rsValue_interp_whole {s : State} {len i : Nat}
    (mode : rsmode s.rsLen.toNat s.srcRate.toNat s.dstRate.toNat = (.interp, len))
    (whole : rsRemainder s.srcRate.toNat s.dstRate.toNat i = 0) :
    s.rsValue i = Memory.readSample s.sram (s.rsSrc.toNat + rsIndex s.srcRate.toNat s.dstRate.toNat i) := by
  simp [State.rsValue, State.rsMode, mode, sourceValue, whole]

/-- Between two samples the output is interpolated from both (R82, R83). -/
theorem State.rsValue_interp_between {s : State} {len i : Nat} {x0 x1 : Sample}
    (mode : rsmode s.rsLen.toNat s.srcRate.toNat s.dstRate.toNat = (.interp, len))
    (between : rsRemainder s.srcRate.toNat s.dstRate.toNat i ≠ 0)
    (hx0 : Memory.readSample s.sram (s.rsSrc.toNat + rsIndex s.srcRate.toNat s.dstRate.toNat i) = some x0)
    (hx1 : Memory.readSample s.sram (s.rsSrc.toNat + rsNext s.rsLen.toNat (rsIndex s.srcRate.toNat s.dstRate.toNat i)) = some x1) :
    s.rsValue i = some (lerpSample (s.draws + i) x0 x1 (rsRemainder s.srcRate.toNat s.dstRate.toNat i) s.dstRate.toNat) := by
  simp [State.rsValue, State.rsMode, mode, sourceValue, between, hx0, hx1]

/-- The value of an interpolated output: a NaN's free pattern is a NaN, and every other value has its own pattern (R10, U4). -/
theorem unpack_lerpSample (draw : Nat) (x0 x1 : Sample) (r dst : Nat) : unpack (lerpSample draw x0 x1 r dst) = lerp x0 x1 r dst :=
  unpack_pack (fadd_ok _ _) (isNaN_of_fields (freeNaN_fields draw).1 (freeNaN_fields draw).2)

/-- Settles O36: every value of COPY mode is the input's pattern. -/
theorem resampleCopiesWhenRatesAreEqualOrInputIsShort : Obligations.ResampleCopiesWhenRatesAreEqualOrInputIsShort := by
  intro s n src dst copies fitsSrc fitsDst apart reads
  have mode := rsmode_copy (n := s.rsLen.toNat) (copies.imp_right (congrArg BitVec.toNat))
  obtain ⟨m, run, outputs, outside⟩ := exec_resample src dst mode fitsSrc fitsDst (overlap_eq_false.mpr (by omega))
    (fun i hi => s.rsValue_copy mode i ▸ reads i hi)
  exact ⟨_, run, fun i hi => (outputs i hi).trans (s.rsValue_copy mode i), outside, by simp [State.resampled, rsDraws]⟩

/-- Settles O37: DEGEN mode has one output, whose value is the first input sample. -/
theorem resampleDegenWritesTheFirstSampleAndWarns : Obligations.ResampleDegenWritesTheFirstSampleAndWarns := by
  intro s n src dst long rates short fitsSrc fitsDst apart x hx
  have mode := rsmode_degen long (BitVec.toNat_ne.mp rates) short
  obtain ⟨m, run, outputs, outside⟩ := exec_resample src dst mode fitsSrc fitsDst (overlap_eq_false.mpr (by omega))
    (fun i _ => ⟨x, (s.rsValue_degen mode i).trans hx⟩)
  exact ⟨_, run, ((outputs 0 one_pos).trans (s.rsValue_degen mode 0)).trans hx, fun a ha => outside a (by omega),
    by simp [State.resampled, rsDraws]⟩

/-- Settles O38: every value of INTERP mode is the sample at an integer position, or the interpolation of the two around it. -/
theorem resampleInterpolates : Obligations.ResampleInterpolates := by
  intro s n src dst len hsrc hdst long rates several fitsSrc fitsDst apart reads
  have mode := rsmode_interp long rates several
  have written : ∀ i < len, ∃ y, s.rsValue i = some y := fun i hi => by
    obtain ⟨⟨x0, hx0⟩, next⟩ := reads i hi
    by_cases r : i * src % dst = 0
    · exact ⟨x0, (s.rsValue_interp_whole mode r).trans hx0⟩
    · obtain ⟨x1, hx1⟩ := next r
      exact ⟨_, s.rsValue_interp_between mode r hx0 hx1⟩
  obtain ⟨m, run, outputs, outside⟩ := exec_resample (BitVec.toNat_ne.mpr hsrc) (BitVec.toNat_ne.mpr hdst) mode fitsSrc fitsDst
    (overlap_eq_false.mpr (by omega)) written
  refine ⟨_, run, fun i hi => ?_, outside, by simp [State.resampled, len]⟩
  obtain ⟨⟨x0, hx0⟩, next⟩ := reads i hi
  by_cases r : i * src % dst = 0
  · exact ⟨x0, x0, hx0, (outputs i hi).trans ((s.rsValue_interp_whole mode r).trans hx0), fun _ => rfl, fun between => absurd r between⟩
  · obtain ⟨x1, hx1⟩ := next r
    exact ⟨x0, _, hx0, (outputs i hi).trans (s.rsValue_interp_between mode r hx0 hx1), fun whole => absurd whole r,
      fun _ => ⟨x1, hx1, unpack_lerpSample ..⟩⟩

/-! ### The source's laws -/

/-- Output element 0 is input element 0 in every mode: in INTERP mode its position is 0 (R88). -/
theorem State.rsValue_zero (s : State) : s.rsValue 0 = Memory.readSample s.sram s.rsSrc.toNat := by
  rcases rsmode_cases s.rsLen.toNat s.srcRate.toNat s.dstRate.toNat with ⟨_, mode⟩ | ⟨_, _, _, mode⟩ | ⟨_, _, _, mode⟩
  · exact s.rsValue_copy mode 0
  · exact s.rsValue_degen mode 0
  · have position : rsIndex s.srcRate.toNat s.dstRate.toNat 0 = 0 := by rw [rsIndex, Nat.zero_mul, Nat.zero_div]
    have remainder : rsRemainder s.srcRate.toNat s.dstRate.toNat 0 = 0 := by rw [rsRemainder, Nat.zero_mul, Nat.zero_mod]
    rw [s.rsValue_interp_whole mode remainder, position, Nat.add_zero]

/-- The length law: at least one output for an input of two samples or more at different rates (R88). -/
theorem rsmode_length_max {n src dst : Nat} (long : 2 ≤ n) (rates : src ≠ dst) : (rsmode n src dst).2 = max 1 (n * dst / src) := by
  rw [rsmode_length, if_neg (by omega)]
  split <;> omega

theorem rsmode_length_pos {n : Nat} (src dst : Nat) (h : 1 ≤ n) : 0 < (rsmode n src dst).2 := by
  rw [rsmode_length]
  split_ifs <;> omega

/-- Settles O39: a RESAMPLE that ends without an error has written every output, and its length has not wrapped (R6). -/
theorem resampleKeepsTheSourceLaws : Obligations.ResampleKeepsTheSourceLaws := by
  intro s t wf _ h clean
  cases exec_ends h with
  | check code i legal => cases (show code = .none from clean); cases legal
  | resample u src dst fitsSrc fitsDst apart done =>
    have depth := Config.sampleWords_le wf
    rw [done.completed]
    refine ⟨fun equal => ?_, fun rates long => ?_, fun nonempty => ?_⟩
    · have mode := rsmode_copy (n := s.rsLen.toNat) (.inr (congrArg BitVec.toNat equal))
      have hout : s.rsOut = s.rsLen.toNat := congrArg Prod.snd mode
      refine ⟨?_, fun i hi => (done.output (hout ▸ hi)).trans (s.rsValue_copy mode i)⟩
      rw [State.resampled, hout, BitVec.ofNat_toNat, BitVec.setWidth_eq]
    · rw [State.resampled, BitVec.toNat_ofNat, Nat.mod_eq_of_lt (by omega)]
      exact rsmode_length_max long (BitVec.toNat_ne.mp rates)
    · exact (done.output (rsmode_length_pos _ _ nonempty)).trans s.rsValue_zero

end Sys2Proof.Machine
end

section
/-! The quantizer: every pattern that is no NaN has a code, the code keeps order, and what QUANT and QONE write or record. -/

namespace Sys2Proof.Machine

/-! ### Every code -/

theorem roundTiesEven_false (u : Nat) : roundTiesEven false u = roundHalfEven u oneUnits := rfl

theorem qcode_negOne_posOne_zero :
    qcode 0xBFF0000000000000 = some 0 ∧ qcode 0x3FF0000000000000 = some 255 ∧ qcode 0 = some 128 := by decide +kernel

/-- Settles O45: the affine map of a clamped value is at most 255 times 1.0 and not negative, so its rounding is a code already. -/
theorem everyNonNaNHasACode : Obligations.EveryNonNaNHasACode := by
  refine ⟨fun x => (qcode_eq_none_iff x).mpr, fun x hx => ?_, qcode_negOne_posOne_zero⟩
  obtain ⟨neg, u, _, bound, value, c, code, rounded⟩ := qcode_eq hx
  refine ⟨false, codeUnits neg u, c, value, ?_⟩
  rw [roundTiesEven_false]
  exact ⟨Int.natCast_nonneg _, by exact_mod_cast code_le bound, code, by rw [rounded]⟩

/-- Halfway between `k` and `k + 1` the even one of the two is taken (R92). -/
theorem roundTiesEven_halfway (k : Nat) : roundTiesEven false ((2 * k + 1) * oneUnits / 2) = (k + k % 2 : Nat) := by
  have double := two_halfUnits
  have pos := oneUnits_pos
  have magnitude : (2 * k + 1) * oneUnits / 2 = halfUnits + oneUnits * k := by
    rw [← double, show (2 * k + 1) * (2 * halfUnits) = 2 * (halfUnits + 2 * halfUnits * k) by ring, Nat.mul_div_cancel_left _ two_pos]
  have quotient : (halfUnits + oneUnits * k) / oneUnits = k := by
    rw [Nat.add_mul_div_left _ _ pos, Nat.div_eq_of_lt (by omega), Nat.zero_add]
  have remainder : (halfUnits + oneUnits * k) % oneUnits = halfUnits := by
    rw [Nat.add_mul_mod_self_left, Nat.mod_eq_of_lt (by omega)]
  rw [roundTiesEven_false, magnitude, roundHalfEven, quotient, remainder, if_neg (by omega), if_neg (by omega)]

/-- Settles O47: the rule for halfway values at 0, 2, 127 and 254, and the codes of the two patterns evaluated. -/
theorem tiesGoToTheEvenCode : Obligations.TiesGoToTheEvenCode := by
  have zero := roundTiesEven_halfway 0
  rw [Nat.mul_zero, Nat.zero_add, one_mul] at zero
  exact ⟨zero, roundTiesEven_halfway 2, roundTiesEven_halfway 127, roundTiesEven_halfway 254, by decide +kernel, by decide +kernel⟩

/-! ### The code keeps order -/

/-- A map of magnitudes that keeps their order and 0 keeps the order of the signed values. -/
theorem signedUnits_mono {f : Nat → Nat} (mono : Monotone f) (zero : f 0 = 0) {s t : Bool} {u v : Nat}
    (h : signedUnits s u ≤ signedUnits t v) : signedUnits s (f u) ≤ signedUnits t (f v) := by
  cases s <;> cases t <;> simp only [signedUnits, if_true, Bool.false_eq_true, if_false] at h ⊢
  · exact_mod_cast mono (by omega)
  · obtain ⟨rfl, rfl⟩ : u = 0 ∧ v = 0 := by omega
    simp [zero]
  · omega
  · have := mono (show v ≤ u by omega)
    omega

theorem signedUnits_bounds (s : Bool) {u k : Nat} (h : u ≤ k) : signedUnits true k ≤ signedUnits s u ∧
    signedUnits s u ≤ signedUnits false k := by
  cases s <;> simp only [signedUnits, if_true, Bool.false_eq_true, if_false] <;> omega

/-- The first clamp keeps order (R90). An infinity is clamped to a bound, so it needs an argument only where it would be on the wrong
side, and there `notAbove` excludes it. -/
theorem clampUnit_mono {v w : FVal} {s t : Bool} {a b : Nat} (hv : v ≠ .nan) (hw : w ≠ .nan) (notAbove : flt w v = false)
    (cv : clampUnit v = .fin s a) (cw : clampUnit w = .fin t b) (ha : a ≤ oneUnits) (hb : b ≤ oneUnits) :
    signedUnits s a ≤ signedUnits t b := by
  cases v with
  | nan => exact absurd rfl hv
  | inf m =>
    rw [clampUnit_inf] at cv
    cases cv
    cases s with
    | true => exact (signedUnits_bounds t hb).1
    | false =>
      cases w with
      | nan => exact absurd rfl hw
      | inf n =>
        obtain rfl : n = false := by simpa [flt] using notAbove
        rw [clampUnit_inf] at cw
        cases cw
        exact le_rfl
      | fin n u => cases notAbove
  | fin m u =>
    cases w with
    | nan => exact absurd rfl hw
    | inf n =>
      obtain rfl : n = false := by simpa [flt] using notAbove
      rw [clampUnit_inf] at cw
      cases cw
      exact (signedUnits_bounds s ha).2
    | fin n u' =>
      rw [clampUnit_fin] at cv cw
      cases cv
      cases cw
      have le : signedUnits s u ≤ signedUnits t u' := not_lt.mp (of_decide_eq_false notAbove)
      exact signedUnits_mono (f := (min · oneUnits)) (fun _ _ h => min_le_min_right _ h) (Nat.zero_min _) le

theorem halved_mono : Monotone halved := fun _ _ h =>
  roundUnits_mono oneUnits_pos oneUnits_pos (Nat.mul_le_mul_right _ (Nat.mul_le_mul_right _ h))

theorem halved_zero : halved 0 = 0 := by
  have := roundUnits_exact (u := 0) oneUnits_pos (representable_of_lt (by norm_num))
  simpa [halved] using this

/-- The sum of R91, as a signed number. -/
theorem centred_eq {neg : Bool} {u : Nat} (h : u ≤ oneUnits) : (centred neg u : Int) = halfUnits + signedUnits neg (halved u) := by
  have bound := halved_le h
  cases neg <;> simp only [centred, signedUnits, Bool.false_eq_true, if_true, if_false] <;> omega

/-- The affine map keeps order: each of its three operations is exact or rounds by a monotone map (R91, R98). -/
theorem codeUnits_mono {s t : Bool} {u v : Nat} (hu : u ≤ oneUnits) (hv : v ≤ oneUnits) (h : signedUnits s u ≤ signedUnits t v) :
    codeUnits s u ≤ codeUnits t v := by
  have sum : centred s u ≤ centred t v := by
    have := signedUnits_mono halved_mono halved_zero h
    have := centred_eq (neg := s) hu
    have := centred_eq (neg := t) hv
    omega
  have rounded : roundUnits (centred s u) 1 ≤ roundUnits (centred t v) 1 :=
    roundUnits_mono one_pos one_pos (Nat.mul_le_mul_right _ sum)
  exact roundUnits_mono oneUnits_pos oneUnits_pos (Nat.mul_le_mul_right _ (Nat.mul_le_mul_right _ rounded))

theorem unpack_ne_nan {x : Sample} (hx : isNaN x = false) : unpack x ≠ .nan := by
  rw [ne_eq, unpack_eq_nan_iff, hx]
  decide

/-- Settles O46: the first clamp, the affine map and the rounding to an integer each keep order. -/
theorem qcodeIsMonotone : Obligations.QcodeIsMonotone := by
  intro x y a b hx hy notAbove ha hb
  obtain ⟨s, u, cx, hu, _, c, codeX, roundedX⟩ := qcode_eq hx
  obtain ⟨t, v, cy, hv, _, d, codeY, roundedY⟩ := qcode_eq hy
  obtain rfl : c = a := Option.some.inj (codeX.symm.trans ha)
  obtain rfl : d = b := Option.some.inj (codeY.symm.trans hb)
  have clamped := clampUnit_mono (unpack_ne_nan hx) (unpack_ne_nan hy) notAbove cx cy hu hv
  rw [roundedX, roundedY]
  exact roundHalfEven_mono oneUnits_pos oneUnits_pos (Nat.mul_le_mul_right _ (codeUnits_mono hu hv clamped))

/-! ### QONE -/

/-- Settles O44: the two cases of `qoneFlow_cases`. -/
theorem qoneQuantizesItsOperand : Obligations.QoneQuantizesItsOperand := by
  intro s
  change (isNaN s.qoneOperand = false → ∃ c, qcode s.qoneOperand = some c ∧ _) ∧ (isNaN s.qoneOperand = true → _)
  rcases qoneFlow_cases s with ⟨nan, flow⟩ | ⟨number, c, code, flow⟩
  · refine ⟨fun number => ?_, fun _ => by rw [exec, execQone, flow]; rfl⟩
    rw [nan] at number; cases number
  · refine ⟨fun _ => ⟨c, code, by rw [exec, execQone, flow]; rfl⟩, fun nan => ?_⟩
    rw [number] at nan; cases nan

/-! ### QUANT -/

theorem exec_quant_range {s : State}
    (beyond : s.cfg.sampleWords < s.qSrc.toNat + s.qLen.toNat ∨ s.cfg.byteWords < s.qDst.toNat + s.qLen.toNat) :
    exec .quant s = .next (s.raise .range 0 (encode .quant)) := by
  rcases quantFlow_cases s with ⟨_, flow⟩ | ⟨fitsSrc, fitsDst, _⟩
  · rw [exec, execQuant, flow, Flow.outcome_raiseError]
  · omega

/-- No element is both a number and unwritten or a NaN. -/
theorem element_not_both {m : Memory} {a : Nat} (number : ∃ x, Memory.readSample m a = some x ∧ isNaN x = false)
    (other : Memory.readSample m a = none ∨ ∃ x, Memory.readSample m a = some x ∧ isNaN x = true) : False := by
  obtain ⟨x, hx, hn⟩ := number
  rcases other with unwritten | ⟨y, hy, nan⟩
  · rw [hx] at unwritten; cases unwritten
  · obtain rfl : x = y := Option.some.inj (hx.symm.trans hy)
    rw [hn] at nan; cases nan

/-- A QUANT whose regions fit, and whose elements are all numbers, completes with every code written (R95). -/
theorem exec_quant {s : State} (fitsSrc : s.qSrc.toNat + s.qLen.toNat ≤ s.cfg.sampleWords)
    (fitsDst : s.qDst.toNat + s.qLen.toNat ≤ s.cfg.byteWords)
    (numbers : ∀ i < s.qLen.toNat, ∃ x, Memory.readSample s.sram (s.qSrc.toNat + i) = some x ∧ isNaN x = false) :
    ∃ u, exec .quant s = .next u.complete ∧ QuantizedSoFar s s.qLen.toNat u := by
  rcases quantFlow_cases s with ⟨beyond, _⟩ | ⟨_, _, ⟨_, u, flow, done⟩ | ⟨j, hj, _, bad⟩⟩
  · omega
  · exact ⟨u, by rw [exec, execQuant, flow, Flow.outcome_go], done⟩
  · exact (element_not_both (numbers j hj) (bad.imp And.left And.left)).elim

/-- A QUANT whose regions fit stops at its first NaN, if all elements before that are numbers (R94, R95). -/
theorem exec_quant_nan {s : State} {k : Nat} (fitsSrc : s.qSrc.toNat + s.qLen.toNat ≤ s.cfg.sampleWords)
    (fitsDst : s.qDst.toNat + s.qLen.toNat ≤ s.cfg.byteWords) (hk : k < s.qLen.toNat)
    (numbers : ∀ i < k, ∃ x, Memory.readSample s.sram (s.qSrc.toNat + i) = some x ∧ isNaN x = false)
    (nan : ∃ x, Memory.readSample s.sram (s.qSrc.toNat + k) = some x ∧ isNaN x = true) :
    ∃ u, exec .quant s = .next (u.raise .nan k (encode .quant)) ∧ QuantizedSoFar s k u := by
  rcases quantFlow_cases s with ⟨beyond, _⟩ | ⟨_, _, ⟨all, _⟩ | ⟨j, _, before, bad⟩⟩
  · omega
  · exact (element_not_both (all k hk) (.inr nan)).elim
  · rcases lt_trichotomy j k with early | rfl | late
    · exact (element_not_both (numbers j early) (bad.imp And.left And.left)).elim
    · rcases bad with ⟨unwritten, _⟩ | ⟨_, u, flow, done⟩
      · obtain ⟨x, hx, _⟩ := nan
        rw [hx] at unwritten; cases unwritten
      · exact ⟨u, by rw [exec, execQuant, flow, Flow.outcome_raiseError], done⟩
    · exact (element_not_both (before k late) (.inr nan)).elim

/-- Settles O42: the loop's invariant after its last element. -/
theorem quantWritesOneCodePerSample : Obligations.QuantWritesOneCodePerSample := by
  intro s n fitsSrc fitsDst numbers
  obtain ⟨u, run, done⟩ := exec_quant fitsSrc fitsDst numbers
  exact ⟨u.complete, run, done.codes, done.outside, congrArg State.complete done.frame⟩

/-- Settles O43: the check comes before the loop, and the loop's invariant after `k` elements says what is written before the NaN. -/
theorem quantStopsAtTheFirstNaN : Obligations.QuantStopsAtTheFirstNaN := by
  intro s n
  refine ⟨exec_quant_range, fun fitsSrc fitsDst k hk numbers nan => ?_⟩
  obtain ⟨u, run, done⟩ := exec_quant_nan fitsSrc fitsDst hk numbers nan
  exact ⟨_, run, done.codes, done.outside, congrArg (State.raise · .nan k (encode .quant)) done.frame⟩

end Sys2Proof.Machine
end

section
/-! The DPCM encoder: what a step does to the accumulator, the ends of DINIT, DSTEP and DFLUSH, DENC's checks, and DENC in chunks. -/

namespace Sys2Proof.Machine

/-! ### The accumulator -/

/-- The encoder's step of the accumulator is the decoder's, taken with the emitted bit (R101, R113). -/
theorem stepAcc_eq (acc x : Byte) : stepAcc acc x = BitVec.ofNat 8 (reconstructStep acc.toNat (stepBit acc x)) := by
  by_cases up : acc.toNat < x.toNat <;> simp [stepAcc, stepBit, reconstructStep, up]

theorem stepAcc_toNat (acc x : Byte) : (stepAcc acc x).toNat = reconstructStep acc.toNat (stepBit acc x) := by
  have small : reconstructStep acc.toNat (stepBit acc x) < 2 ^ 8 := by
    have := acc.isLt
    unfold reconstructStep
    split <;> omega
  rw [stepAcc_eq, BitVec.toNat_ofNat, Nat.mod_eq_of_lt small]

theorem stepAcc_toNat_up {acc x : Byte} (up : acc.toNat < x.toNat) : (stepAcc acc x).toNat = acc.toNat + 1 := by
  have := x.isLt
  rw [stepAcc_toNat, stepBit, decide_eq_true up, reconstructStep, if_pos rfl]
  omega

theorem stepAcc_toNat_down {acc x : Byte} (down : ¬ acc.toNat < x.toNat) : (stepAcc acc x).toNat = acc.toNat - 1 := by
  rw [stepAcc_toNat, stepBit, decide_eq_false down, reconstructStep, if_neg Bool.false_ne_true]

/-- Settles O56: a step down from 0 happens only for the target 0. -/
theorem accumulatorMovesByOne : Obligations.AccumulatorMovesByOne := by
  intro s x
  rw [State.dstep_acc]
  refine ⟨fun ⟨acc, target⟩ => by rw [acc, target]; rfl, fun notBothZero => ?_⟩
  by_cases up : s.acc.toNat < x.toNat
  · exact .inl (stepAcc_toNat_up up)
  · have : s.acc.toNat ≠ 0 := fun zero =>
      notBothZero ⟨BitVec.eq_of_toNat_eq zero, BitVec.eq_of_toNat_eq (show x.toNat = 0 by omega)⟩
    rw [stepAcc_toNat_down up]
    omega

/-- Settles O55, by induction on the targets. -/
theorem reconstructionFollowsTheAccumulator : Obligations.ReconstructionFollowsTheAccumulator := by
  intro acc targets
  induction targets generalizing acc with
  | nil => intro k; rw [dpcmBits, List.take_nil, List.take_nil]; rfl
  | cons x targets ih =>
    rintro (_ | k)
    · rfl
    · rw [dpcmBits, List.take_succ_cons, List.foldl_cons, ← stepAcc_toNat, ih]
      rfl

/-! ### DINIT -/

/-- Settles O48: DINIT's registers, written out; at reset they have those values already (R144). -/
theorem dinitStartsAStream : Obligations.DinitStartsAStream := ⟨fun _ => rfl, rfl⟩

/-! ### DSTEP -/

/-- DSTEP's word holds its target above the opcode (R63, R64). -/
theorem encode_dstep (x : Byte) : encode (.dstep x) = BitVec.ofNat 32 (256 * x.toNat + 0x22) := by
  obtain ⟨_, _, word⟩ := Laws.EncodedFields.dstep x
  exact BitVec.eq_of_toNat_eq (word.trans (Nat.mod_eq_of_lt (word ▸ (encode (.dstep x)).isLt)).symm)

theorem State.dstep_eq_short {s : State} (x : Byte) (h : s.cnt.toNat ≠ 7) : s.dstep x = { s with
    acc := stepAcc s.acc x, pend := BitVec.ofNat 7 (2 * s.pend.toNat + (stepBit s.acc x).toNat), cnt := s.cnt + 1
    lastBit := stepBit s.acc x, dBits := s.dBits + 1 } := State.emit_eq_short _ h

theorem State.dstep_eq_full {s : State} (x : Byte) (h : s.cnt.toNat = 7) : s.dstep x = { s with
    acc := stepAcc s.acc x
    bram := Memory.write s.bram s.dWptr.toNat (BitVec.ofNat 8 (2 * s.pend.toNat + (stepBit s.acc x).toNat))
    pend := 0, cnt := 0, lastBit := stepBit s.acc x, dBits := s.dBits + 1, dWptr := s.dWptr + 1 } := State.emit_eq_full _ h

theorem exec_dstep_range {s : State} (x : Byte) (full : s.cnt.toNat = 7) (beyond : s.cfg.byteWords ≤ s.dWptr.toNat) :
    exec (.dstep x) s = .next (s.raise .range 0 (encode (.dstep x))) := by
  rw [exec, execDstep, dstepFlow, if_pos ⟨full, beyond⟩, Flow.outcome_raiseError]

/-- A DSTEP with room for the byte it may complete is a step of the encoder (R107). -/
theorem exec_dstep {s : State} (x : Byte) (room : s.cnt.toNat = 7 → s.dWptr.toNat < s.cfg.byteWords) :
    exec (.dstep x) s = .next (s.dstep x).complete := by
  rw [exec, execDstep, dstepFlow, if_neg (by omega), Flow.outcome_go]

/-- Settles O49: the check, and the two forms of an emitted bit. -/
theorem dstepEmitsOneBit : Obligations.DstepEmitsOneBit := by
  intro x s up acc' pending
  have acc_eq : stepAcc s.acc x = acc' := stepAcc_eq s.acc x
  refine ⟨fun full beyond => ?_, fun short => ?_, fun full room => ⟨(s.dstep x).complete, ?_, ?_, ?_, ?_⟩⟩
  · rw [exec_dstep_range x (congrArg BitVec.toNat full) beyond, encode_dstep]
    rfl
  · have notFull : s.cnt.toNat ≠ 7 := fun h => short (BitVec.eq_of_toNat_eq h)
    rw [exec_dstep x (absurd · notFull), State.dstep_eq_short x notFull, acc_eq]
    rfl
  · exact exec_dstep x fun _ => room
  all_goals rw [State.dstep_eq_full x (congrArg BitVec.toNat full)]
  · exact Memory.read_write_same _ _ _
  · exact fun a other => Memory.read_write_other _ _ other.symm
  · rw [acc_eq]
    rfl

/-! ### DFLUSH -/

theorem exec_dflush_range {s : State} (pending : 0 < s.cnt.toNat) (beyond : s.cfg.byteWords ≤ s.dWptr.toNat) :
    exec .dflush s = .next (s.raise .range 0 (encode .dflush)) := by
  rw [exec, execDflush, dflushFlow, if_pos ⟨pending, beyond⟩, Flow.outcome_raiseError]

/-- Settles O50: the check, and a flush with and without pending bits. -/
theorem dflushWritesTheLastByte : Obligations.DflushWritesTheLastByte := by
  intro s
  refine ⟨fun empty => ?_, fun pending => exec_dflush_range (BitVec.toNat_pos_of_ne_zero pending), fun pending room => ?_⟩
  · have zero : s.cnt.toNat = 0 := congrArg BitVec.toNat empty
    rw [exec_dflush (by omega), State.flush_of_empty zero]
    rfl
  · have positive := BitVec.toNat_pos_of_ne_zero pending
    refine ⟨s.flush.complete, exec_dflush fun _ => room, s.flush_read positive, fun a other => ?_, ?_⟩
    all_goals rw [State.flush_of_pending positive]
    · exact Memory.read_write_other _ _ other.symm
    · rfl

/-! ### DENC's checks -/

/-- DENC's checks all pass: its regions fit and do not overlap (R106). -/
structure State.DencClear (s : State) : Prop where
  fitsSrc : s.dSrc.toNat + s.dLen.toNat ≤ s.cfg.byteWords
  fitsDst : s.dWptr.toNat + s.encBytes ≤ s.cfg.byteWords
  apart : overlap s.dSrc.toNat s.dLen.toNat s.dWptr.toNat s.encBytes = false

theorem dencFlow_range {s : State}
    (beyond : s.cfg.byteWords < s.dSrc.toNat + s.dLen.toNat ∨ s.cfg.byteWords < s.dWptr.toNat + s.encBytes) :
    dencFlow s = raiseError .range 0 .denc s :=
  if_pos (by simpa only [Bool.or_eq_true, Bool.not_eq_true', fits_eq_false] using beyond)

/-- Where both regions fit, whether they overlap decides what DENC does. -/
theorem dencFlow_of_fits {s : State} (fitsSrc : s.dSrc.toNat + s.dLen.toNat ≤ s.cfg.byteWords)
    (fitsDst : s.dWptr.toNat + s.encBytes ≤ s.cfg.byteWords) : dencFlow s =
      if overlap s.dSrc.toNat s.dLen.toNat s.dWptr.toNat s.encBytes then raiseError .overlap 0 .denc s
      else forUp s.dLen.toNat 0 encElement s :=
  if_neg (by simpa only [Bool.or_eq_true, Bool.not_eq_true', fits_eq_false, not_or, not_lt] using ⟨fitsSrc, fitsDst⟩)

theorem State.DencClear.flow {s : State} (h : s.DencClear) : dencFlow s = forUp s.dLen.toNat 0 encElement s := by
  rw [dencFlow_of_fits h.fitsSrc h.fitsDst, h.apart, if_neg Bool.false_ne_true]

theorem exec_denc_range {s : State}
    (beyond : s.cfg.byteWords < s.dSrc.toNat + s.dLen.toNat ∨ s.cfg.byteWords < s.dWptr.toNat + s.encBytes) :
    exec .denc s = .next (s.raise .range 0 (encode .denc)) := by
  rw [exec, execDenc, dencFlow_range beyond, Flow.outcome_raiseError]

theorem exec_denc_overlap {s : State} (fitsSrc : s.dSrc.toNat + s.dLen.toNat ≤ s.cfg.byteWords)
    (fitsDst : s.dWptr.toNat + s.encBytes ≤ s.cfg.byteWords)
    (shared : overlap s.dSrc.toNat s.dLen.toNat s.dWptr.toNat s.encBytes = true) :
    exec .denc s = .next (s.raise .overlap 0 (encode .denc)) := by
  rw [exec, execDenc, dencFlow_of_fits fitsSrc fitsDst, if_pos shared, Flow.outcome_raiseError]

/-- Settles O51: one lemma per check, the second under the conditions that let the first pass. -/
theorem dencChecksInOrder : Obligations.DencChecksInOrder := by
  intro s n nb
  exact ⟨exec_denc_range, fun fitsSrc fitsDst input output lower upper =>
    exec_denc_overlap fitsSrc fitsDst (overlap_eq_true.mpr ⟨input, output, lower, upper⟩)⟩

/-! ### DENC in chunks -/

theorem State.DencClear.completes {s u : State} (h : s.DencClear) (loop : forUp s.dLen.toNat 0 encElement s = .go u) :
    exec .denc s = .next u.complete := by
  rw [exec, execDenc, h.flow, loop, Flow.outcome_go]

/-- A DENC that ends with no error recorded has passed its checks, and its loop has gone on to its end. -/
theorem exec_denc_completed {s t : State} (run : exec .denc s = .next t) (noError : t.err = .none) :
    s.DencClear ∧ ∃ u, forUp s.dLen.toNat 0 encElement s = .go u ∧ t = u.complete := by
  by_cases fit : s.dSrc.toNat + s.dLen.toNat ≤ s.cfg.byteWords ∧ s.dWptr.toNat + s.encBytes ≤ s.cfg.byteWords
  · obtain ⟨fitsSrc, fitsDst⟩ := fit
    cases apart : overlap s.dSrc.toNat s.dLen.toNat s.dWptr.toNat s.encBytes with
    | true =>
      cases (exec_denc_overlap fitsSrc fitsDst apart).symm.trans run
      cases noError
    | false =>
      have clear : s.DencClear := ⟨fitsSrc, fitsDst, apart⟩
      rcases encLoop_frame s.dLen.toNat 0 s with ⟨u, loop, _⟩ | ⟨k, loop⟩
      · exact ⟨clear, u, loop, outcome_of (clear.flow.trans loop) run⟩
      · exact (outcome_of_stop (clear.flow.trans loop) run).elim
  · cases (exec_denc_range (s := s) (by omega)).symm.trans run
    cases noError

/-- What DENC's loop has encoded at its end, in a block whose BRAM is no larger than R6 allows. -/
theorem State.DencClear.encoded {s u : State} (h : s.DencClear) (wf : s.cfg.wellFormed = true)
    (loop : forUp s.dLen.toNat 0 encElement s = .go u) : ∃ ts : List Byte, ts.length = s.dLen.toNat ∧ EncodedSoFar s ts u := by
  have depth := (Config.byteWords_bounds wf).1
  have flow := h.flow.trans loop
  rcases dencFlow_cases (s := s) (by omega) with
    ⟨_, beyond⟩ | ⟨_, _, ⟨_, shared⟩ | ⟨_, ⟨ts, hlen, _, v, go, encoded⟩ | ⟨j, _, _, stop⟩⟩⟩
  · cases flow.symm.trans beyond
  · cases flow.symm.trans shared
  · cases flow.symm.trans go
    exact ⟨ts, hlen, encoded⟩
  · cases flow.symm.trans stop

/-- The first chunk of a DENC whose checks pass: they pass for it too. -/
theorem State.DencClear.firstChunk {s : State} (h : s.DencClear) {m : Word} (le : m.toNat ≤ s.dLen.toNat) :
    (s.withRegion s.dSrc m s.done).DencClear := by
  obtain ⟨fitsSrc, fitsDst, apart⟩ := h
  rw [overlap_eq_false] at apart
  unfold State.encBytes at fitsDst apart
  refine ⟨?_, ?_, overlap_eq_false.mpr ?_⟩ <;> simp only [State.encBytes, State.withRegion] <;> omega

/-- The second chunk, issued where the first one has moved D_WPTR and CNT to. -/
theorem State.DencClear.secondChunk {s u : State} (h : s.DencClear) {m : Nat} {src n : Word} (cfg : u.cfg = s.cfg)
    (dWptr : u.dWptr.toNat = s.dWptr.toNat + (s.cnt.toNat + m) / 8) (cnt : u.cnt.toNat = (s.cnt.toNat + m) % 8)
    (later : src.toNat = s.dSrc.toNat + m) (total : m + n.toNat = s.dLen.toNat) (done : Bool) :
    (u.withRegion src n done).DencClear := by
  obtain ⟨fitsSrc, fitsDst, apart⟩ := h
  rw [overlap_eq_false] at apart
  unfold State.encBytes at fitsDst apart
  refine ⟨?_, ?_, overlap_eq_false.mpr ?_⟩ <;> simp only [State.encBytes, State.withRegion, cfg] <;> omega

/-- A loop that has gone on to its end has changed only the encoder's registers, BRAM and D_WPTR. -/
theorem encLoop_go_frame {count first : Nat} {s t : State} (loop : forUp count first encElement s = .go t) : t = { s with
    acc := t.acc, bram := t.bram, pend := t.pend, cnt := t.cnt, lastBit := t.lastBit, dBits := t.dBits, dWptr := t.dWptr } := by
  rcases encLoop_frame count first s with ⟨u, go, frame⟩ | ⟨k, stop⟩
  · cases go.symm.trans loop
    exact frame
  · cases stop.symm.trans loop

/-- A DENC that completes is two DENCs of its chunks, the second one with D_SRC moved past the first. -/
theorem exec_denc_chunks {s t : State} {m n src : Word} (clear : s.DencClear) (wf : s.cfg.wellFormed = true)
    (total : m.toNat + n.toNat = s.dLen.toNat) (later : src.toNat = s.dSrc.toNat + m.toNat)
    (loop : forUp s.dLen.toNat 0 encElement s = .go t) :
    ∃ u : State, u.err = s.err ∧ exec .denc (s.withRegion s.dSrc m s.done) = .next (u.withRegion s.dSrc m true) ∧
      exec .denc (u.withRegion src n true) = .next (t.withRegion src n true) := by
  rw [← total, forUp_add, Nat.zero_add] at loop
  obtain ⟨u, first, second⟩ := Flow.bind_eq_go loop
  have frame := encLoop_go_frame first
  have cfg : u.cfg = s.cfg := by rw [frame]
  have dSrc : u.dSrc = s.dSrc := by rw [frame]
  have clear₁ : (s.withRegion s.dSrc m s.done).DencClear := clear.firstChunk (by omega)
  have loop₁ : forUp m.toNat 0 encElement (s.withRegion s.dSrc m s.done) = .go (u.withRegion s.dSrc m s.done) :=
    encLoop_withRegion (k := 0) m.toNat 0 rfl first
  obtain ⟨ts, hlen, encoded⟩ := clear₁.encoded wf loop₁
  have hlen : ts.length = m.toNat := hlen
  have depth := (Config.byteWords_bounds wf).1
  have cnt : u.cnt.toNat = (s.cnt.toNat + m.toNat) % 8 := hlen ▸ encoded.cnt
  have dWptr : u.dWptr.toNat = s.dWptr.toNat + (s.cnt.toNat + m.toNat) / 8 := by
    have fitsDst : s.dWptr.toNat + (s.cnt.toNat + m.toNat) / 8 ≤ s.cfg.byteWords := clear₁.fitsDst
    rw [← hlen] at fitsDst ⊢
    exact encoded.dWptr (Nat.lt_of_le_of_lt fitsDst (by omega))
  have clear₂ : (u.withRegion src n true).DencClear := clear.secondChunk cfg dWptr cnt later total true
  have loop₂ : forUp n.toNat 0 encElement (u.withRegion src n true) = .go (t.withRegion src n true) :=
    encLoop_withRegion n.toNat 0 (dSrc ▸ later) (by rwa [Nat.zero_add])
  exact ⟨u, by rw [frame], clear₁.completes loop₁, clear₂.completes loop₂⟩

/-- A DENC of one target that completes is a DSTEP of it. -/
theorem exec_dstep_of_denc {s t : State} {x : Byte} (one : s.dLen = 1) (read : Memory.read s.bram s.dSrc.toNat = some x)
    (run : exec .denc s = .next t) (noError : t.err = .none) : exec (.dstep x) s = .next t := by
  obtain ⟨clear, u, loop, rfl⟩ := exec_denc_completed run noError
  have len : s.dLen.toNat = 1 := congrArg BitVec.toNat one
  have oneTurn : forUp s.dLen.toNat 0 encElement s = .go (s.dstep x) := by
    rw [len, forUp_succ, encElement, Nat.add_zero, memReadB_some read, Flow.bind_go, forUp_zero]
  cases loop.symm.trans oneTurn
  have room := clear.fitsDst
  rw [State.encBytes, len] at room
  exact exec_dstep x (by omega)

/-- Settles O53: the loop of one pass is the loops of its chunks one after the other, and the loop over one target is a step. -/
theorem chunkedEncodingEqualsOnePass : Obligations.ChunkedEncodingEqualsOnePass := by
  refine ⟨fun s t m n wf noErrorBefore small run noError => ?_, fun s t x _ one read run noError => ?_⟩
  · obtain ⟨clear, w, loop, rfl⟩ := exec_denc_completed run noError
    have hm : (BitVec.ofNat 32 m).toNat = m := Nat.mod_eq_of_lt (by omega)
    have hn : (BitVec.ofNat 32 n).toNat = n := Nat.mod_eq_of_lt (by omega)
    have hmn : (BitVec.ofNat 32 (m + n)).toNat = m + n := Nat.mod_eq_of_lt small
    have later : (s.dSrc + BitVec.ofNat 32 m).toNat = s.dSrc.toNat + m := by
      have fitsSrc : s.dSrc.toNat + (BitVec.ofNat 32 (m + n)).toNat ≤ s.cfg.byteWords := clear.fitsSrc
      have depth := (Config.byteWords_bounds wf).1
      rw [BitVec.toNat_add, hm, Nat.mod_eq_of_lt (by omega)]
    have total : (BitVec.ofNat 32 m).toNat + (BitVec.ofNat 32 n).toNat = (BitVec.ofNat 32 (m + n)).toNat := by rw [hm, hn, hmn]
    obtain ⟨u, err, run₁, run₂⟩ := exec_denc_chunks clear wf total (later.trans (by rw [hm])) loop
    refine ⟨u.withRegion s.dSrc (BitVec.ofNat 32 m) true, _, run₁, err.trans noErrorBefore, run₂, ?_⟩
    rw [encLoop_go_frame loop]
    rfl
  · exact exec_dstep_of_denc one read run noError

end Sys2Proof.Machine
end

section
/-! Control: NOP's one effect, and what becomes of a word issued while an error is recorded. -/

namespace Sys2Proof.Machine

theorem exec_nop (s : State) : exec .nop s = .next s.complete := rfl

/-- While an error is recorded a word is not looked at (R127). -/
theorem issueCommand_ignored {w : Word} {s : State} (recorded : s.err ≠ .none) : issueCommand w s = .next s := by
  rw [issueCommand, if_pos recorded]

/-- A write to CMD while an error is recorded is answered, and nothing more (R127). -/
theorem step_ignored {s : State} {w : Word} {rest : List HostMove} (h : s.issues w rest) (recorded : s.err ≠ .none) :
    step s = .next (s.answered rest .done) :=
  (step_issue h).trans (issueCommand_ignored (s := s.answered rest .done) recorded)

/-- Settles O20: the word 0 is NOP's encoding, and like every word it is ignored while an error is recorded. -/
theorem nopSetsDoneOnly : Obligations.NopSetsDoneOnly :=
  ⟨exec_nop, decode_encode .nop, fun _ _ => step_ignored⟩

end Sys2Proof.Machine
end

section
/-! Exceptions: the interrupt line, commands while an error is recorded, what an error leaves, and where a step stops with UNINIT. -/

namespace Sys2Proof.Machine

/-! ### The interrupt line -/

theorem ErrCode.code_eq_zero_iff (c : ErrCode) : c.code = 0 ↔ c = .none := by cases c <;> decide

theorem State.irq_eq_true_iff (s : State) : s.irq = true ↔ (s.done = true ∧ s.ieDone = true) ∨ (s.err ≠ .none ∧ s.ieErr = true) := by
  simp [State.irq]

/-- Settles O14: the fields of STATUS and CTRL stand at the bits the equation names, and only `none` has the code 0. -/
theorem irqFollowsItsEquation : Obligations.IrqFollowsItsEquation := by
  intro s
  obtain ⟨_, _, ieDone, ieErr, _, done, _, err, _⟩ := registerFieldsReadAtTheirBits s
  simp only [State.readCsr] at ieDone ieErr done err
  have noError : s.statusWord.extractLsb' 8 4 = 0 ↔ s.err = .none := by
    rw [← ErrCode.code_eq_zero_iff, ← err, ← BitVec.toNat_inj]
    rfl
  rw [State.irq_eq_true_iff, ieDone, ieErr, done, noError.ne]

/-! ### Errors -/

/-- Settles O6: a word issued while an error is recorded is not looked at. -/
theorem commandWritesAreIgnoredWhileErrIsSet : Obligations.CommandWritesAreIgnoredWhileErrIsSet :=
  fun _ _ _ issued recorded => step_ignored issued recorded

/-- A command leaves ERR as it was, or it has ended at a NaN, or it has ended at a check and changed the error record only
(R125, R126). -/
theorem Ends.error {s t : State} {i : Instr} (e : Ends s i t) :
    t.err = s.err ∨ t.err = .nan ∨ ∃ code, t = s.raise code 0 (encode i) := by
  cases e with
  | check code i legal => exact .inr (.inr ⟨code, rfl⟩)
  | quantNaN u j small fitsSrc fitsDst done => exact .inr (.inl rfl)
  | resample u src dst fitsSrc fitsDst apart done => left; rw [done.frame]; simp
  | quant u fitsSrc fitsDst done => left; rw [done.frame]; simp
  | denc u fitsSrc fitsDst apart frame done => left; rw [frame]; simp
  | nop => left; simp
  | rslen src dst small => left; simp
  | qone c code => left; simp
  | dinit => left; simp
  | dstep target room => left; simp
  | dflush room => left; simp

/-- Settles O21: of the ways of `Ends.error`, only a failed check records an error other than NAN. -/
theorem checkedErrorsChangeOnlyTheErrorRecord : Obligations.CheckedErrorsChangeOnlyTheErrorRecord := by
  intro i s t clear h raised notNaN
  rcases (exec_ends h).error with same | nan | ⟨code, rfl⟩
  · exact absurd (same.trans clear) raised
  · exact absurd nan notNaN
  · rfl

/-! ### Which steps stop -/

/-- What answers a next state has not stopped. -/
theorem next_not_stops (t : State) : ¬ ∃ f, (.next t : Host.Outcome State Fault Refusal) = .fault f := fun ⟨_, h⟩ => by cases h

/-- A step answers a next state, or it is the run of an issued command. -/
theorem step_next_or_exec (s : State) :
    (∃ t, step s = .next t) ∨
    (∃ w rest i, s.issues w rest ∧ decode w = .ok i ∧ step s = exec i (s.answered rest .done)) := by
  rcases step_cases s with ⟨_, e⟩ | ⟨_, _, _, e⟩ | ⟨_, _, e⟩ | ⟨_, _, _, _, _, e⟩ | ⟨_, _, _, _, _, e⟩ |
    ⟨rest, c, v, notCmd, _, e⟩ | ⟨rest, w, issued, e⟩
  · exact .inl ⟨_, e⟩
  · exact .inl ⟨_, e⟩
  · exact .inl ⟨_, e⟩
  · exact .inl ⟨_, e⟩
  · exact .inl ⟨_, e⟩
  · obtain ⟨t, written, _⟩ := writeCsr_next notCmd v (s.answered rest .done)
    exact .inl ⟨t, e.trans written⟩
  · rcases issueCommand_cases w (s.answered rest .done) with ⟨_, ignored⟩ | ⟨_, i, legal, runs⟩ | ⟨_, _, _, illegal⟩
    · exact .inl ⟨_, e.trans ignored⟩
    · exact .inr ⟨w, rest, i, issued, legal, e.trans runs⟩
    · exact .inl ⟨_, e.trans illegal⟩

/-- Settles O30: only an issued command can do anything but answer a next state, and `exec_stops` says which commands can stop. -/
theorem stepsStopOnlyWithUninit : Obligations.StepsStopOnlyWithUninit := by
  intro s
  rcases step_next_or_exec s with ⟨t, e⟩ | ⟨w, rest, i, issued, legal, e⟩ <;> rw [e]
  · exact ⟨fun _ h => (by cases h), fun f stops => absurd ⟨f, stops⟩ (next_not_stops t)⟩
  · exact ⟨exec_ne_refused i _, fun f stops => ⟨w, rest, i, issued, legal, exec_stops stops⟩⟩

/-! ### Where a command stops -/

/-- Output index `i` is computed from input sample `j` (R79, R80, R81 to R83). -/
def OutputReads (mode : RsMode) (n src dst i j : Nat) : Prop :=
  match mode with
  | .copy => j = i
  | .degen => j = 0
  | .interp => j = rsIndex src dst i ∨ (rsRemainder src dst i ≠ 0 ∧ j = rsNext n (rsIndex src dst i))

/-- An output has no value exactly when one of the samples it is computed from is unwritten. -/
theorem sourceValue_eq_none_iff (mode : RsMode) (n src dst base draw : Nat) (m : Memory) (i : Nat) :
    sourceValue mode n src dst base draw m i = none ↔
      ∃ j, Memory.readSample m (base + j) = none ∧ OutputReads mode n src dst i j := by
  cases mode with
  | copy => simp [sourceValue, OutputReads]
  | degen => simp [sourceValue, OutputReads]
  | interp =>
    by_cases whole : rsRemainder src dst i = 0
    · simp [sourceValue, OutputReads, whole]
    · cases hx0 : Memory.readSample m (base + rsIndex src dst i) <;>
        simp [sourceValue, OutputReads, whole, hx0, and_or_left, exists_or]

/-- RESAMPLE stops exactly when its checks pass and one of its outputs has no value (R84, R140). -/
theorem exec_resample_stops_iff (s : State) : (∃ f, exec .resample s = .fault f) ↔
    s.srcRate.toNat ≠ 0 ∧ s.dstRate.toNat ≠ 0 ∧
    s.rsSrc.toNat + s.rsLen.toNat ≤ s.cfg.sampleWords ∧ s.rsDst.toNat + s.rsOut ≤ s.cfg.sampleWords ∧
    overlap s.rsSrc.toNat s.rsLen.toNat s.rsDst.toNat s.rsOut = false ∧ ∃ i < s.rsOut, s.rsValue i = none := by
  rw [exec, execResample]
  rcases resampleFlow_cases s with ⟨zero, flow⟩ | ⟨src, dst, ⟨beyond, flow⟩ | ⟨fitsSrc, fitsDst, ⟨shared, flow⟩ |
    ⟨apart, ⟨values, t, flow, _⟩ | ⟨i, hi, unwritten, k, flow⟩⟩⟩⟩ <;> rw [flow]
  · exact iff_of_false (next_not_stops _) fun ⟨src, dst, _⟩ => zero.elim src dst
  · exact iff_of_false (next_not_stops _) fun ⟨_, _, fitsSrc, fitsDst, _⟩ => by omega
  · exact iff_of_false (next_not_stops _) fun ⟨_, _, _, _, apart, _⟩ => by rw [shared] at apart; cases apart
  · refine iff_of_false (next_not_stops _) fun ⟨_, _, _, _, _, i, hi, unwritten⟩ => ?_
    obtain ⟨y, hy⟩ := values i hi
    rw [unwritten] at hy; cases hy
  · exact iff_of_true ⟨_, rfl⟩ ⟨src.ne', dst.ne', fitsSrc, fitsDst, apart, i, hi, unwritten⟩

/-- Only one element is the first that is unwritten or a NaN. -/
theorem first_element_unique {m : Memory} {a j k : Nat}
    (beforeJ : ∀ i < j, ∃ x, Memory.readSample m (a + i) = some x ∧ isNaN x = false)
    (atJ : Memory.readSample m (a + j) = none ∨ ∃ x, Memory.readSample m (a + j) = some x ∧ isNaN x = true)
    (beforeK : ∀ i < k, ∃ x, Memory.readSample m (a + i) = some x ∧ isNaN x = false)
    (atK : Memory.readSample m (a + k) = none ∨ ∃ x, Memory.readSample m (a + k) = some x ∧ isNaN x = true) : j = k := by
  rcases lt_trichotomy j k with early | same | late
  · exact (element_not_both (beforeK j early) atJ).elim
  · exact same
  · exact (element_not_both (beforeJ k late) atK).elim

/-- QUANT stops exactly when its regions fit and it comes to an unwritten sample before any NaN (R95, R140). -/
theorem exec_quant_stops_iff (s : State) : (∃ f, exec .quant s = .fault f) ↔
    s.qSrc.toNat + s.qLen.toNat ≤ s.cfg.sampleWords ∧ s.qDst.toNat + s.qLen.toNat ≤ s.cfg.byteWords ∧
    ∃ j < s.qLen.toNat, Memory.readSample s.sram (s.qSrc.toNat + j) = none ∧
      ∀ i < j, ∃ v, Memory.readSample s.sram (s.qSrc.toNat + i) = some v ∧ isNaN v = false := by
  rw [exec, execQuant]
  rcases quantFlow_cases s with ⟨beyond, flow⟩ | ⟨fitsSrc, fitsDst, ⟨numbers, t, flow, _⟩ |
    ⟨k, hk, before, ⟨unwritten, flow⟩ | ⟨nan, t, flow, _⟩⟩⟩ <;> rw [flow]
  · exact iff_of_false (next_not_stops _) fun ⟨fitsSrc, fitsDst, _⟩ => by omega
  · exact iff_of_false (next_not_stops _) fun ⟨_, _, j, hj, unwritten, _⟩ => element_not_both (numbers j hj) (.inl unwritten)
  · exact iff_of_true ⟨_, rfl⟩ ⟨fitsSrc, fitsDst, k, hk, unwritten, before⟩
  · refine iff_of_false (next_not_stops _) fun ⟨_, _, j, _, unwritten, beforeJ⟩ => ?_
    obtain rfl := first_element_unique beforeJ (.inl unwritten) before (.inr nan)
    obtain ⟨x, hx, _⟩ := nan
    rw [unwritten] at hx; cases hx

/-- DENC stops exactly when its checks pass and one of its targets is unwritten (R106, R140). -/
theorem exec_denc_stops_iff {s : State} (wf : s.cfg.wellFormed = true) : (∃ f, exec .denc s = .fault f) ↔
    s.dSrc.toNat + s.dLen.toNat ≤ s.cfg.byteWords ∧ s.dWptr.toNat + s.encBytes ≤ s.cfg.byteWords ∧
    overlap s.dSrc.toNat s.dLen.toNat s.dWptr.toNat s.encBytes = false ∧
    ∃ j < s.dLen.toNat, Memory.read s.bram (s.dSrc.toNat + j) = none := by
  have depth := (Config.byteWords_bounds wf).1
  rw [exec, execDenc]
  rcases dencFlow_cases (s := s) (by omega) with ⟨beyond, flow⟩ | ⟨fitsSrc, fitsDst, ⟨shared, flow⟩ |
    ⟨apart, ⟨ts, hlen, reads, t, flow, _⟩ | ⟨j, hj, unwritten, flow⟩⟩⟩ <;> rw [flow]
  · exact iff_of_false (next_not_stops _) fun ⟨fitsSrc, fitsDst, _⟩ => by omega
  · exact iff_of_false (next_not_stops _) fun ⟨_, _, apart, _⟩ => by rw [shared] at apart; cases apart
  · refine iff_of_false (next_not_stops _) fun ⟨_, _, _, j, hj, unwritten⟩ => ?_
    have missing : ts[j]? = none := (reads j hj).symm.trans unwritten
    rw [List.getElem?_eq_none_iff] at missing
    omega
  · exact iff_of_true ⟨_, rfl⟩ ⟨fitsSrc, fitsDst, apart, j, hj, unwritten⟩

/-- An output of RESAMPLE has no value exactly when an unwritten sample is among those the outputs are computed from. -/
theorem State.rsValue_none_iff (s : State) : (∃ i < s.rsOut, s.rsValue i = none) ↔
    ∃ j, Memory.readSample s.sram (s.rsSrc.toNat + j) = none ∧
      ∃ i < s.rsOut, OutputReads s.rsMode s.rsLen.toNat s.srcRate.toNat s.dstRate.toNat i j := by
  simp only [State.rsValue, sourceValue_eq_none_iff]
  exact ⟨fun ⟨i, hi, j, unwritten, reads⟩ => ⟨j, unwritten, i, hi, reads⟩,
    fun ⟨j, unwritten, i, hi, reads⟩ => ⟨i, hi, j, unwritten, reads⟩⟩

/-- Settles O31: for RESAMPLE, the samples that a mode's outputs are computed from are those the statement lists. -/
theorem uninitExactlyOnUnwrittenReads : Obligations.UninitExactlyOnUnwrittenReads := by
  refine ⟨fun s => ?_, exec_quant_stops_iff, fun s wf => exec_denc_stops_iff wf⟩
  rw [exec_resample_stops_iff, State.rsValue_none_iff]
  rcases rsmode_cases s.rsLen.toNat s.srcRate.toNat s.dstRate.toNat with ⟨_, mode⟩ | ⟨_, _, _, mode⟩ | ⟨_, _, _, mode⟩
  · simp [State.rsMode, State.rsOut, mode, OutputReads]
  · simp [State.rsMode, State.rsOut, mode, OutputReads]
  · simp only [State.rsMode, State.rsOut, mode, OutputReads, rsIndex, rsRemainder, rsNext]

end Sys2Proof.Machine
end

section
/-! Reset and the host's moves: what reset leaves, that the state after it meets the invariant, and that a step takes one move and gives an
access one reply. -/

namespace Sys2Proof.Machine

/-! ### Reset -/

/-- The reset values as the register map shows them (R142): ID and ACC are the registers that do not read 0. -/
theorem State.readCsr_atReset (cfg : Config) (c : Csr) :
    (State.atReset cfg).readCsr c = if c = .id then 0x52570001 else if c = .dAcc then 0x80 else 0 := by
  cases c <;> rfl

/-- The state after a reset pulse: the registers of `State.atReset`, with the RAMs, the replies and the moves still to come kept
(R141, R143). -/
def State.pulsed (s : State) (rest : List HostMove) : State := { s.resetRegisters with rst := false, host := rest }

theorem State.pulsed_readCsr (s : State) (rest : List HostMove) (c : Csr) :
    (s.pulsed rest).readCsr c = (State.atReset s.cfg).readCsr c := by
  cases c <;> rfl

/-- Each of the two moves of a reset pulse is a step; after the first the input is asserted (log 6). -/
theorem step_resetPulse {s : State} {rest : List HostMove} (h : s.host = resetPulse ++ rest) :
    ∃ t, step s = .next t ∧ t.rst = true ∧ step t = .next (s.pulsed rest) :=
  ⟨setResetLine true (s.withHost (.resetLine false :: rest)), step_cons h, rfl, rfl⟩

/-- Settles O19: a pulse ends in `State.pulsed`, whose registers are those of `State.atReset`, and no byte is written in an empty RAM. -/
theorem resetPulseRestoresRegistersAndKeepsMemories : Obligations.ResetPulseRestoresRegistersAndKeepsMemories := by
  refine ⟨fun s rest h => ?_, State.readCsr_atReset _, rfl, fun j => Memory.readSample_eq_none (i := 0) (by decide) rfl, fun _ => rfl⟩
  obtain ⟨t, asserted, level, released⟩ := step_resetPulse h
  exact ⟨t, s.pulsed rest, asserted, level, released, fun c => (s.pulsed_readCsr rest c).trans (State.readCsr_atReset _ c),
    rfl, rfl, rfl, rfl, rfl, rfl, rfl⟩

/-- A block just after power-up meets the invariant for all parameters within R6's bounds. -/
theorem State.atReset_inv {cfg : Config} (h : cfg.wellFormed = true) : (State.atReset cfg).Inv where
  cfg := h
  sramWf := .nil
  bramWf := .nil
  sramBound := nofun
  bramBound := nofun
  packer := Nat.one_pos
  record := ⟨rfl, rfl⟩

/-- Settles O33: the depths and the base of log 1 are within R6's bounds. -/
theorem resetMeetsTheInvariant : Obligations.ResetMeetsTheInvariant := State.atReset_inv (by decide)

/-! ### The host's moves -/

/-- Settles O7: `step` has no move to perform. -/
theorem blockStartsNothingOnItsOwn : Obligations.BlockStartsNothingOnItsOwn := fun _ => step_nil

/-- The parameters, the reset input and the host's side are as they were: the moves still to come, and the replies. -/
structure State.HostKept (s t : State) : Prop where
  cfg : t.cfg = s.cfg
  rst : t.rst = s.rst
  host : t.host = s.host
  replies : t.replies = s.replies

theorem State.HostKept.refl (s : State) : s.HostKept s := ⟨rfl, rfl, rfl, rfl⟩

theorem exec_hostKept {i : Instr} {s t : State} (h : exec i s = .next t) : s.HostKept t := by
  obtain ⟨cfg, _, _, _, _, _, _, _, _, _, _, _, _, _, _, rst, host, replies, _⟩ := commandsLeaveOperandRegistersAlone i s t h
  exact ⟨cfg, rst, host, replies⟩

theorem issueCommand_hostKept {w : Word} {s t : State} (h : issueCommand w s = .next t) : s.HostKept t := by
  rcases issueCommand_cases w s with ⟨_, ignored⟩ | ⟨_, i, _, runs⟩ | ⟨_, _, _, illegal⟩
  · cases ignored.symm.trans h; exact .refl s
  · exact exec_hostKept (runs.symm.trans h)
  · cases illegal.symm.trans h; exact ⟨rfl, rfl, rfl, rfl⟩

theorem writeCsr_hostKept {c : Csr} {v : Word} {s t : State} (h : writeCsr c v s = .next t) : s.HostKept t := by
  by_cases cmd : c = .cmd
  · subst cmd; exact issueCommand_hostKept h
  · obtain ⟨u, written, cfg, _, _, _, _, _, _, _, rst, host, replies, _⟩ := writeCsr_next cmd v s
    cases written.symm.trans h
    exact ⟨cfg, rst, host, replies⟩

/-- A read is one reply, whatever it reaches (R50). -/
theorem busRead_reply (r : Region) (s : State) : ∃ answer, busRead r s = s.reply answer := by
  cases r <;> exact ⟨_, rfl⟩

/-- A write gives one reply, and what it does besides keeps the host's side. -/
theorem busWrite_reply {r : Region} {v : Word} {s t : State} (h : busWrite r v s = .next t) :
    ∃ answer, (s.reply answer).HostKept t := by
  cases r with
  | csr c => exact ⟨.done, writeCsr_hostKept h⟩
  | reserved => cases h; exact ⟨.done, .refl _⟩
  | sram j high => cases h; exact ⟨.done, rfl, rfl, rfl, rfl⟩
  | bram k => cases h; exact ⟨.done, rfl, rfl, rfl, rfl⟩
  | unmapped => cases h; exact ⟨.busError, .refl _⟩

/-- An access gets one reply, inside the block's window or outside it, and keeps the rest of the host's side (R154). -/
theorem busAccess_reply {a : BusAccess} {s t : State} (h : busAccess a s = .next t) : ∃ answer, (s.reply answer).HostKept t := by
  rw [busAccess] at h
  split at h
  case isFalse => cases h; exact ⟨.notClaimed, .refl _⟩
  case isTrue =>
    split at h
    · obtain ⟨answer, read⟩ := busRead_reply (s.target a) s
      rw [read] at h
      cases h
      exact ⟨answer, .refl _⟩
    · exact busWrite_reply h

/-- Settles O25: a reset move sets the input, and an access gets the reply of `busAccess_reply`. -/
theorem eachStepPerformsOneMove : Obligations.EachStepPerformsOneMove := by
  intro s t m rest pending h
  rw [step_cons pending] at h
  cases m with
  | resetLine level => cases level <;> (cases h; exact ⟨rfl, rfl, .inl ⟨_, rfl, rfl, rfl⟩⟩)
  | access a =>
    obtain ⟨answer, cfg, rst, host, replies⟩ := busAccess_reply h
    exact ⟨host, cfg, .inr ⟨a, answer, rfl, replies, rst⟩⟩

end Sys2Proof.Machine
end
